-- ==== Sys2Proof/Word.lean ====
section
/-! DEFINITION. The word types of the block: bits, bytes and 32-bit words (00_scope.md R13, R18). Every value is unsigned (R10). -/

namespace Sys2Proof

/-- One bit of data. -/
abbrev Bit := BitVec 1

/-- One byte of IN, OUT or an internal buffer. -/
abbrev Byte := BitVec 8

/-- A register of REG, a position or a length: 32-bit unsigned (00_scope.md R13). -/
abbrev Word := BitVec 32

end Sys2Proof
end

