-- ==== Sys2Proof/Config.lean ====
section
/-! DEFINITION. What an implementation fixes (00_scope.md R7, 93_implementation_defined.md I7, I8) and the one free value the spec leaves (I2). The machine's defaults are in Machine/Params.lean. -/

namespace Sys2Proof

/-- STROW, one row of the StateTransition ROM (30_encoding.md R88, 10_state.md R40). -/
structure StRow where
  runClass : BitVec 3
  nextIfMatch : BitVec 6
  nextIfMismatch : BitVec 6
deriving DecidableEq, Repr

/-- The named parameters of the block (00_scope.md R7; 92_eei_decisions.md, "Parameters left OPEN").
They are no state by 10_state.md R52: State carries one value of this type that no step changes (log 1). -/
structure Config where
  /-- P_IN_CAP: the largest legal IN_LEN in bytes, and the size of IN. -/
  inCap : Word
  /-- P_OUT_CAP: the size of OUT in bytes. -/
  outCap : Word
  /-- P_PLANE_CAP: bytes per bit-plane buffer (log 2). -/
  planeCap : Nat
  /-- P_TAG_CAP: entries of the tag memory (log 2). -/
  tagCap : Nat
  /-- P_CHAN_CAP: bits per Golomb channel buffer (log 2). -/
  chanCap : Nat
  /-- P_REG_BASE: the system address of REG, OPEN (20_memory.md R69, I9; log 22). -/
  regBase : Nat
  /-- P_IN_BASE: the system address of IN, OPEN (R69, I9; log 22). -/
  inBase : Nat
  /-- P_OUT_BASE: the system address of OUT, OPEN (R69, I9; log 22). -/
  outBase : Nat
  /-- ST[0..32]: the state table, a parameter whose default is the printed table (I7). -/
  st : Vector StRow 33
deriving DecidableEq, Repr

/-- FREE VALUE (log 7): the byte the `n`-th host read of OUT made while BUSY = 1 returns:
"any value", one byte per read, no law, no relation between two reads (20_memory.md R75, I2). -/
opaque Config.outDraw : Nat → Byte

end Sys2Proof
end

