-- ==== Sys2Proof/Machine/Params.lean ====
section
/-! DEFINITION. The parameters' default values, the bounds that make a choice of them legal, and the printed state table (00_scope.md R7, 43_probability_estimator.md R135). -/

namespace Sys2Proof.Machine

/-- The StateTransition ROM as printed (43_probability_estimator.md R135). -/
def stTable : Vector StRow 33 := #v[
  ⟨0, 25, 25⟩,
  ⟨0, 2, 1⟩, ⟨0, 3, 1⟩, ⟨0, 4, 2⟩, ⟨0, 5, 3⟩,
  ⟨1, 6, 4⟩, ⟨1, 7, 5⟩, ⟨1, 8, 6⟩, ⟨1, 9, 7⟩,
  ⟨2, 10, 8⟩, ⟨2, 11, 9⟩, ⟨2, 12, 10⟩, ⟨2, 13, 11⟩,
  ⟨3, 14, 12⟩, ⟨3, 15, 13⟩, ⟨3, 16, 14⟩, ⟨3, 17, 15⟩,
  ⟨4, 18, 16⟩, ⟨4, 19, 17⟩,
  ⟨5, 20, 18⟩, ⟨5, 21, 19⟩,
  ⟨6, 22, 20⟩, ⟨6, 23, 21⟩,
  ⟨7, 24, 22⟩, ⟨7, 24, 23⟩,
  ⟨0, 26, 1⟩, ⟨1, 27, 2⟩, ⟨2, 28, 4⟩, ⟨3, 29, 8⟩,
  ⟨4, 30, 12⟩, ⟨5, 31, 16⟩, ⟨6, 32, 18⟩, ⟨7, 24, 22⟩]

/-- P_NB_MAX = 8 (P_IN_CAP + 1): the largest bit count of one attempt (00_scope.md R7). -/
def nbMax (cfg : Config) : Nat := 8 * (cfg.inCap.toNat + 1)

/-- The suggested defaults: P_IN_CAP = 0x10000, P_OUT_CAP = 0x40000, the printed table (log 1), and
the least legal internal capacities (log 2), and three disjoint base addresses, of which the spec suggests none (log 22). -/
def defaultConfig : Config :=
  { inCap := 0x10000
    outCap := 0x40000
    planeCap := 0x8000
    tagCap := 0x80008
    chanCap := 0x400041
    regBase := 0
    inBase := 0x100000
    outBase := 0x200000
    st := stTable }

/-- A row's fields lie in the ranges of 30_encoding.md R88, and its next states in 1..32
(10_state.md R51 (a)). -/
abbrev rowLegal (r : StRow) : Prop :=
  1 ≤ r.nextIfMatch.toNat ∧ r.nextIfMatch.toNat ≤ 32 ∧
    1 ≤ r.nextIfMismatch.toNat ∧ r.nextIfMismatch.toNat ≤ 32

/-- A legal choice of the parameters: the capacities are at least the bounds of 00_scope.md R7, every
bit position fits the 32 bits of R13 (log 2), the output capacity is below the register value that
means INF (10_state.md R30, log 2), and the state table's rows are legal. -/
abbrev legalConfig (cfg : Config) : Prop :=
  (cfg.inCap.toNat + 1) / 2 ≤ cfg.planeCap ∧
  nbMax cfg ≤ cfg.tagCap ∧
  8 * nbMax cfg + 1 ≤ cfg.chanCap ∧
  8 * cfg.planeCap < 2 ^ 32 ∧
  cfg.tagCap < 2 ^ 32 ∧
  cfg.chanCap < 2 ^ 32 ∧
  8 * nbMax cfg + 12 < 2 ^ 32 ∧
  8 * (cfg.outCap.toNat + 1) < 2 ^ 32 ∧
  ∀ i (h : i < 33), rowLegal cfg.st[i]

end Sys2Proof.Machine
end

