-- ==== Sys2Proof/Machine/State.lean ====
section
/-! DEFINITION. The machine's state as plain data (10_state.md, 20_memory.md), the host's moves it still holds, the reasons a step can stop, and the state after reset (R49). -/

namespace Sys2Proof.Machine

/-- A byte memory: (offset, byte) pairs, offsets strictly rising, no byte equal to what an unlisted
offset reads as (`Memory.wf` in Ops.lean). -/
abbrev Memory := List Host.Cell

/-- A bit buffer with its cursors, packed MSB-first (00_scope.md R11): a bit plane (10_state.md R35, R38)
or a Golomb channel (R42). -/
structure BitBuf where
  mem : Memory
  /-- how many bits have been written. -/
  wpos : Word
  /-- the read cursor. -/
  rpos : Word
deriving DecidableEq, Repr

/-- SLOTFMT, a context slot (10_state.md R39). -/
structure Slot where
  state : BitVec 6
  mps : Bit
deriving DecidableEq, Repr

/-- A byte count or INF, which is greater than every byte count (10_state.md R45; log 15). -/
inductive AttLen where
  | bytes (n : Word)
  | inf
deriving DecidableEq, Repr

/-- SEQ.phase (10_state.md R32). -/
inductive Phase where
  | idle
  | run
deriving DecidableEq, Repr

/-- SEQ.kind: the command being run (10_state.md R32). -/
inductive CmdKind where
  | compress
  | encode
deriving DecidableEq, Repr

/-- SEQ, the sequencer, in place of a program counter (10_state.md R32). `idx` is a loop index; at a micro-operation in no loop the
model holds 0 in it (log 28), and while IDLE what it last held (log 27). -/
structure Seq where
  phase : Phase
  kind : CmdKind
  hcur : BitVec 4
  uop : BitVec 8
  idx : Word
deriving DecidableEq, Repr

/-- STATUS by its fields (10_state.md R23); bits 31:8 are hard-wired to 0. -/
structure Status where
  busy : Bool
  done : Bool
  err : Bool
  ovr : Bool
  errcode : BitVec 4
deriving DecidableEq, Repr

/-- The error completions of 60_exceptions.md R186. -/
inductive CommandError where
  | bufferTooSmallOut
  | bufferTooSmallIn
  | illegalCommand
  | internalFault
deriving DecidableEq, Repr

/-- The transient signals of 10_state.md R47 and the operands and results micro-operations hand each
other (30_encoding.md R94); the model's own holder of them (log 8). -/
structure Wires where
  bit : Bit
  ctx : BitVec 5
  cls : BitVec 3
  sym : Bit
  eor : Bit
  pad : Bit
deriving DecidableEq, Repr

/-- The registers of REG (10_state.md R21). -/
inductive RegName where
  | cmd
  | status
  | inLen
  | outMax
  | outLen
  | resultHdr
  | irqEn
  | caps
  | attemptLen (h : BitVec 4)
deriving DecidableEq, Repr

/-- The width of a host access to REG; only 32 bits has a meaning (20_memory.md R63). -/
inductive AccessWidth where
  | w8
  | w16
  | w32
  | w64
deriving DecidableEq, Repr

/-- A move of the host (46_orchestrator.md R180; syntax 30_encoding.md R97, R98; log 5). -/
inductive HostMove where
  /-- `WR`: a write of `v` at REG offset `off`. -/
  | regWrite (width : AccessWidth) (off : Nat) (v : Word)
  /-- `RD`: a read at REG offset `off`. -/
  | regRead (width : AccessWidth) (off : Nat)
  /-- `WRB IN[k], v`. -/
  | inWrite (k : Nat) (v : Byte)
  /-- `RDB OUT[k]`. -/
  | outRead (k : Nat)
  /-- `WAIT_DONE`: poll STATUS until DONE = 1 (log 23). -/
  | waitDone
  /-- no access: the engine takes one micro-operation (log 5). -/
  | pause
  /-- the device reset input (70_reset_and_hazards.md R205; log 12). -/
  | reset
  /-- wait for the completion interrupt and take it (R180, 60_exceptions.md R196; log 23). -/
  | waitIrq
  /-- a write of `v` at a system address, by which the platform places REG, IN and OUT (20_memory.md R69; log 22). -/
  | busWrite (width : AccessWidth) (addr : Nat) (v : Word)
  /-- a read at a system address (R69; log 22). -/
  | busRead (width : AccessWidth) (addr : Nat)
deriving DecidableEq, Repr

/-- What the host got from the block: a value a read returned, or the completion interrupt it took. -/
inductive HostRead where
  | reg (off : Nat) (v : Word)
  | out (k : Nat) (v : Byte)
  | irq
deriving DecidableEq, Repr

/-- The machine. -/
structure State where
  /-- the parameters; no step changes them (log 1). -/
  cfg : Config
  /-- STATUS (R23). -/
  status : Status
  /-- IN_LEN (R24). -/
  inLen : Word
  /-- OUT_MAX (R25). -/
  outMax : Word
  /-- OUT_LEN (R26). -/
  outLen : Word
  /-- RESULT_HDR[3:0] (R27). -/
  resultHdr : BitVec 4
  /-- IRQ_EN.IE (R28). -/
  ie : Bool
  /-- ATTEMPT_LEN[0..15] (R30). -/
  attemptLen : Vector Word 16
  /-- the IN memory (20_memory.md R60). -/
  inMem : Memory
  /-- the OUT memory (R60). -/
  outMem : Memory
  /-- SEQ (10_state.md R32). -/
  seq : Seq
  /-- L: the snapshot of IN_LEN (46_orchestrator.md R165). -/
  lenSnap : Word
  /-- OUT_LIMIT: the snapshot of min(OUT_MAX, P_OUT_CAP) (R165). -/
  outLimit : Word
  /-- HDR (10_state.md R33). -/
  hdr : BitVec 4
  /-- SPLIT_SEL (R34). -/
  splitSel : BitVec 3
  /-- PLANE, PLANE_WPOS, PLANE_RPOS (R35, R38). -/
  planes : Vector BitBuf 8
  /-- MODEL_SEL (R36). -/
  modelSel : BitVec 3
  /-- NBIT (R36). -/
  nbit : Word
  /-- HIST (R37). -/
  hist : Vector (BitVec 16) 8
  /-- SLOT (R39). -/
  slots : Vector Slot 32
  /-- RUNCNT (R41). -/
  runcnt : Vector (BitVec 8) 8
  /-- CHAN, CHAN_WPOS, CHAN_RPOS (R42). -/
  chans : Vector BitBuf 8
  /-- TAGS[0..TAG_LEN-1], in order; TAG_LEN is its length (R43; log 16). -/
  tags : List (BitVec 3)
  /-- ATT (R44). -/
  att : Memory
  /-- OPOS (R44). -/
  opos : Word
  /-- ALEN (R45). -/
  alen : AttLen
  /-- BEST (R46). -/
  best : Memory
  /-- BEST_LEN (R46). -/
  bestLen : AttLen
  /-- BEST_HDR (R46). -/
  bestHdr : BitVec 4
  /-- FAULTED (R53). -/
  faulted : Bool
  /-- the transient signals (R47; log 8). -/
  wires : Wires
  /-- the model's own: the host's moves still to come (log 5). -/
  host : List HostMove
  /-- the model's own: what the host has read, latest first (log 5). -/
  reads : List HostRead
  /-- the model's own: how many free bytes reads of OUT while BUSY have drawn (log 7). -/
  draws : Nat
deriving DecidableEq, Repr

/-- Accesses to an address where nothing of the block is. -/
inductive Fault where
  /-- raised by a host access at a system address that lies in none of REG, IN and OUT (20_memory.md R69,
  60_exceptions.md R200; log 22); safe. -/
  | noSuchAddress (addr : Nat)
deriving DecidableEq, Repr

/-- Host moves and instructions that have no meaning in the model. -/
inductive Refusal where
  /-- raised by exec for an instruction that has no meaning yet (none is left); safe. -/
  | notModelled (mnemonic : String)
  /-- raised by a host write to IN while BUSY = 1: no move in the model (20_memory.md R74, I1); safe. -/
  | inWriteWhileBusy
  /-- raised by a REG access that is not an aligned 32-bit word (20_memory.md R63, I19); safe. -/
  | regAccessShape
  /-- raised by a host write at an IN offset of P_IN_CAP or above (20_memory.md R60, I20; log 13); safe. -/
  | inOutOfRange (k : Nat)
  /-- raised by a host read at an OUT offset of P_OUT_CAP or above (20_memory.md R60, I20; log 13); safe. -/
  | outOutOfRange (k : Nat)
  /-- raised by an access at a system address of IN or OUT that is not a byte write to IN or a byte read of OUT
  (20_memory.md R60, R68; log 13); safe. -/
  | byteAccessShape
deriving DecidableEq, Repr

/-- The register value that means INF in ATTEMPT_LEN (10_state.md R30). -/
def infWord : Word := 0xFFFFFFFF

/-- A cleared bit buffer with both cursors at 0. -/
def BitBuf.empty : BitBuf := { mem := [], wpos := 0, rpos := 0 }

/-- The machine right after reset (10_state.md R21, R49; 70_reset_and_hazards.md R205). What R49 leaves
unspecified is zero or empty (log 3, log 4); the parameters are the suggested defaults (log 1). -/
def State.reset : State :=
  { cfg := defaultConfig
    status := { busy := false, done := false, err := false, ovr := false, errcode := 0 }
    inLen := 0
    outMax := 0
    outLen := 0
    resultHdr := 0
    ie := false
    attemptLen := Vector.replicate 16 infWord
    inMem := []
    outMem := []
    seq := { phase := .idle, kind := .compress, hcur := 0, uop := 0, idx := 0 }
    lenSnap := 0
    outLimit := 0
    hdr := 0
    splitSel := 0
    planes := Vector.replicate 8 BitBuf.empty
    modelSel := 0
    nbit := 0
    hist := Vector.replicate 8 0
    slots := Vector.replicate 32 { state := 0, mps := 0 }
    runcnt := Vector.replicate 8 0
    chans := Vector.replicate 8 BitBuf.empty
    tags := []
    att := []
    opos := 0
    alen := .bytes 0
    best := []
    bestLen := .inf
    bestHdr := 0
    faulted := false
    wires := { bit := 0, ctx := 0, cls := 0, sym := 0, eor := 0, pad := 0 }
    host := []
    reads := []
    draws := 0 }

end Sys2Proof.Machine
end

