-- ==== Sys2Proof/Machine/Flags.lean ====
section
/-! DEFINITION. The flags: STATUS as a word and its updates (10_state.md R23), the interrupt (60_exceptions.md R196), the error codes (R186), and the data path's transient signals (10_state.md R47). -/

namespace Sys2Proof.Machine

/-- STATUS as the host reads it: BUSY bit 0, DONE 1, ERR 2, OVR 3, ERRCODE 7:4, the rest 0 (10_state.md R23). -/
def statusWord (st : Status) : Word :=
  0#24 ++ st.errcode ++ BitVec.ofBool st.ovr ++ BitVec.ofBool st.err ++ BitVec.ofBool st.done ++
    BitVec.ofBool st.busy

/-- IRQ = STATUS.DONE & IRQ_EN.IE, level-sensitive (60_exceptions.md R196). -/
def irq (s : State) : Bool := s.status.done && s.ie

/-- STATUS.ERRCODE of an error (60_exceptions.md R186). -/
def errorCode : CommandError → BitVec 4
  | .bufferTooSmallOut => 1
  | .bufferTooSmallIn => 2
  | .illegalCommand => 3
  | .internalFault => 4

/-- STATUS after an ignored write while BUSY = 1 (60_exceptions.md R204). -/
def statusOverrun (st : Status) : Status := { st with ovr := true }

/-- STATUS at the acceptance of COMPRESS or ENCODE; OVR stays (46_orchestrator.md R165, 60_exceptions.md R204). -/
def statusAccepted (st : Status) : Status :=
  { st with done := false, err := false, errcode := 0, busy := true }

/-- STATUS after a successful command (46_orchestrator.md R171). -/
def statusCompleted (st : Status) : Status := { st with busy := false, done := true }

/-- STATUS after a command that ended with an error (60_exceptions.md R193, R191). -/
def statusFailed (e : CommandError) (st : Status) : Status :=
  { st with err := true, errcode := errorCode e, busy := false, done := true }

/-- STATUS after CLEAR (46_orchestrator.md R172). -/
def statusCleared (st : Status) : Status :=
  { st with done := false, err := false, errcode := 0, ovr := false }

/-- `sym`: 0 for a match with the predicted bit, 1 for a mismatch (10_state.md R47, 43_probability_estimator.md R138). -/
def symbolOf (bit mps : Bit) : Bit := bit ^^^ mps

/-- The two adaptive states: the state masked with 0xFE is 0 (43_probability_estimator.md R139). -/
def adaptive (st : BitVec 6) : Bool := st.setWidth 8 &&& 0xFE#8 == 0

/-- `eor`: the symbol ends the run, a mismatch always and a match when the count reaches 2^c
(44_golomb_encoder.md R148). -/
def endOfRun (c : BitVec 3) (sym : Bit) (cnt : BitVec 8) : Bit :=
  if sym = 1 then 1 else if cnt + 1 = 1#8 <<< c.toNat then 1 else 0

end Sys2Proof.Machine
end

