-- ==== Sys2Proof/Syntax.lean ====
section
/-! DEFINITION. The instructions: one constructor per row of spec/opcode_table.json, with the operands of 30_encoding.md R82 and R94. -/

namespace Sys2Proof

/-- The three host commands and the eighteen micro-operations. -/
inductive Instr where
  /-- COMPRESS: the 16-header search (46_orchestrator.md R166). -/
  | compress
  /-- ENCODE h: one attempt with a forced header (R167). -/
  | encode (h : BitVec 4)
  /-- CLEAR: acknowledge completion (R172). -/
  | clear
  /-- SPL_INIT (41_splitter.md R110). -/
  | splInit
  /-- SPL_BYTE k: one whole input byte to one plane (R112). -/
  | splByte (k : Word)
  /-- SPL_BITS k: one bit of an input byte to each plane (R113). -/
  | splBits (k : Word)
  /-- CM_INIT (42_context_modeler.md R120). -/
  | cmInit
  /-- CM_BIT n: the bit and context at bit index `n` (R124). -/
  | cmBit (n : Word)
  /-- PEM_INIT (43_probability_estimator.md R136). -/
  | pemInit
  /-- PEM_PREDICT ctx: the predicted bit of a context (R137). -/
  | pemPredict (ctx : BitVec 5)
  /-- PEM_STEP bit, ctx: one modelled bit (R138). -/
  | pemStep (bit : Bit) (ctx : BitVec 5)
  /-- GCE_INIT (44_golomb_encoder.md R145). -/
  | gceInit
  /-- GCE_PUTBIT c, sym: one symbol into a run-length channel (R148). -/
  | gcePutbit (c : BitVec 3) (sym : Bit)
  /-- GCE_FINISH: flush partial runs (R151). -/
  | gceFinish
  /-- IL_INIT (45_interleaver.md R155). -/
  | ilInit
  /-- IL_TAG t: one whole codeword to the output (R157). -/
  | ilTag (t : Word)
  /-- IL_MOVEBIT c: one bit of a channel to the output (R156). -/
  | ilMovebit (c : BitVec 3)
  /-- IL_LEN with the limit check (R158, R159). -/
  | ilLen
  /-- ORC_BEGIN h: start an attempt (46_orchestrator.md R169). -/
  | orcBegin (h : BitVec 4)
  /-- ORC_SELECT: keep the attempt if it is the best so far (R170). -/
  | orcSelect
  /-- ORC_DONE: finish the command (R171). -/
  | orcDone
deriving DecidableEq, Repr

end Sys2Proof
end

