-- ==== Sys2Proof/Decode.lean ====
section
/-! DEFINITION. The decoders of command words (30_encoding.md R81) and of micro-operation labels (R94), total, rejecting by name, and the encoder written from the same tables. -/

namespace Sys2Proof

/-- What a micro-operation is given beside its label: "operand (not encoded in the label)" in
spec/opcode_table.json. The record gathers one field per kind of operand (log 19). -/
structure UopOperands where
  /-- the loop index: input byte `k`, bit `n` or tag `t`. -/
  idx : Word
  /-- the header of ORC_BEGIN. -/
  hdr : BitVec 4
  /-- the context of PEM_PREDICT and PEM_STEP. -/
  ctx : BitVec 5
  /-- the bit of PEM_STEP. -/
  bit : Bit
  /-- the run class of GCE_PUTBIT, the channel of IL_MOVEBIT. -/
  cls : BitVec 3
  /-- the symbol of GCE_PUTBIT. -/
  sym : Bit
deriving DecidableEq, Repr

/-- The operand record of all zeros. -/
def UopOperands.zero : UopOperands := { idx := 0, hdr := 0, ctx := 0, bit := 0, cls := 0, sym := 0 }

/-- An instruction as the block holds it: a command word on CMD, or a label with its operands. -/
inductive Encoding where
  | cmdWord (w : BitVec 32)
  | uop (label : BitVec 8) (ops : UopOperands)
deriving DecidableEq, Repr

/-- Why a word or a label is no instruction. -/
inductive DecodeError where
  /-- an illegal command word (30_encoding.md R83). -/
  | illegalCommand (w : BitVec 32)
  /-- a label value R94 does not assign (R95). -/
  | unusedLabel (label : BitVec 8)
deriving DecidableEq, Repr

/-! The micro-operation labels of 30_encoding.md R94: bits 7:4 the unit, bits 3:0 the operation (R93). -/

def Label.splInit : BitVec 8 := 0x10
def Label.splByte : BitVec 8 := 0x11
def Label.splBits : BitVec 8 := 0x12
def Label.cmInit : BitVec 8 := 0x20
def Label.cmBit : BitVec 8 := 0x21
def Label.pemInit : BitVec 8 := 0x30
def Label.pemPredict : BitVec 8 := 0x31
def Label.pemStep : BitVec 8 := 0x32
def Label.gceInit : BitVec 8 := 0x40
def Label.gcePutbit : BitVec 8 := 0x41
def Label.gceFinish : BitVec 8 := 0x42
def Label.ilInit : BitVec 8 := 0x50
def Label.ilTag : BitVec 8 := 0x51
def Label.ilMovebit : BitVec 8 := 0x52
def Label.ilLen : BitVec 8 := 0x53
def Label.orcBegin : BitVec 8 := 0x60
def Label.orcSelect : BitVec 8 := 0x61
def Label.orcDone : BitVec 8 := 0x62

/-- Decode of a word written to CMD (30_encoding.md R81, R83). -/
def decodeCommand (w : BitVec 32) : Except DecodeError Instr :=
  let rsvd := w.extractLsb' 8 24
  let opc := w.extractLsb' 4 4
  let hdrarg := w.extractLsb' 0 4
  if rsvd ≠ 0 then .error (.illegalCommand w)
  else if opc = 1 ∧ hdrarg = 0 then .ok .compress
  else if opc = 2 then .ok (.encode hdrarg)
  else if opc = 3 ∧ hdrarg = 0 then .ok .clear
  else .error (.illegalCommand w)

/-- Decode of the sequencer's label with its operands (30_encoding.md R94, R95). -/
def decodeUop (label : BitVec 8) (ops : UopOperands) : Except DecodeError Instr :=
  if label = Label.splInit then .ok .splInit
  else if label = Label.splByte then .ok (.splByte ops.idx)
  else if label = Label.splBits then .ok (.splBits ops.idx)
  else if label = Label.cmInit then .ok .cmInit
  else if label = Label.cmBit then .ok (.cmBit ops.idx)
  else if label = Label.pemInit then .ok .pemInit
  else if label = Label.pemPredict then .ok (.pemPredict ops.ctx)
  else if label = Label.pemStep then .ok (.pemStep ops.bit ops.ctx)
  else if label = Label.gceInit then .ok .gceInit
  else if label = Label.gcePutbit then .ok (.gcePutbit ops.cls ops.sym)
  else if label = Label.gceFinish then .ok .gceFinish
  else if label = Label.ilInit then .ok .ilInit
  else if label = Label.ilTag then .ok (.ilTag ops.idx)
  else if label = Label.ilMovebit then .ok (.ilMovebit ops.cls)
  else if label = Label.ilLen then .ok .ilLen
  else if label = Label.orcBegin then .ok (.orcBegin ops.hdr)
  else if label = Label.orcSelect then .ok .orcSelect
  else if label = Label.orcDone then .ok .orcDone
  else .error (.unusedLabel label)

/-- The decoder on either kind of encoding. -/
def decode : Encoding → Except DecodeError Instr
  | .cmdWord w => decodeCommand w
  | .uop label ops => decodeUop label ops

/-- The encoding of an instruction: its command word (30_encoding.md R82), or its label with its
operands in their fields and every other operand field zero (R94). -/
def encode : Instr → Encoding
  | .compress => .cmdWord 0x00000010
  | .encode h => .cmdWord (0x0000002#28 ++ h)
  | .clear => .cmdWord 0x00000030
  | .splInit => .uop Label.splInit UopOperands.zero
  | .splByte k => .uop Label.splByte { UopOperands.zero with idx := k }
  | .splBits k => .uop Label.splBits { UopOperands.zero with idx := k }
  | .cmInit => .uop Label.cmInit UopOperands.zero
  | .cmBit n => .uop Label.cmBit { UopOperands.zero with idx := n }
  | .pemInit => .uop Label.pemInit UopOperands.zero
  | .pemPredict ctx => .uop Label.pemPredict { UopOperands.zero with ctx := ctx }
  | .pemStep bit ctx => .uop Label.pemStep { UopOperands.zero with bit := bit, ctx := ctx }
  | .gceInit => .uop Label.gceInit UopOperands.zero
  | .gcePutbit c sym => .uop Label.gcePutbit { UopOperands.zero with cls := c, sym := sym }
  | .gceFinish => .uop Label.gceFinish UopOperands.zero
  | .ilInit => .uop Label.ilInit UopOperands.zero
  | .ilTag t => .uop Label.ilTag { UopOperands.zero with idx := t }
  | .ilMovebit c => .uop Label.ilMovebit { UopOperands.zero with cls := c }
  | .ilLen => .uop Label.ilLen UopOperands.zero
  | .orcBegin h => .uop Label.orcBegin { UopOperands.zero with hdr := h }
  | .orcSelect => .uop Label.orcSelect UopOperands.zero
  | .orcDone => .uop Label.orcDone UopOperands.zero

/-- A row of the table by its bits: 32 bits are a command word, 8 bits a label whose operands,
which the table gives no bits, are all zero; no row has another width (30_encoding.md R80). -/
def decodeTableWord (nbits w : Nat) : Option Instr :=
  if nbits = 32 then (decodeCommand (BitVec.ofNat 32 w)).toOption
  else if nbits = 8 then (decodeUop (BitVec.ofNat 8 w) UopOperands.zero).toOption
  else none

end Sys2Proof
end

