-- ==== Sys2Proof/Machine/Operands.lean ====
section
/-! DEFINITION. The operands of the micro-operations and the quantities derived from them: the header's modes, the loop bounds (00_scope.md R8), the plane sequence (41_splitter.md R111, 42_context_modeler.md R121) and the context index (30_encoding.md R86, R87). -/

namespace Sys2Proof.Machine

/-- planeMode, header bits 3:2 (30_encoding.md R84). -/
def planeMode (h : BitVec 4) : BitVec 2 := h.extractLsb' 2 2

/-- contextMode, header bits 1:0 (30_encoding.md R84). -/
def contextMode (h : BitVec 4) : BitVec 2 := h.extractLsb' 0 2

/-- PL: the input length, rounded up to even when planeMode is not 3 (00_scope.md R8). -/
def paddedLen (pm : BitVec 2) (l : Word) : Word :=
  if pm ≠ 3 ∧ l.getLsbD 0 then l + 1 else l

/-- NB = 8 PL: how many bits the modeler replays (00_scope.md R8). -/
def bitCount (h : BitVec 4) (l : Word) : Word := 8 * paddedLen (planeMode h) l

/-- OUT_LIMIT = min(OUT_MAX, P_OUT_CAP) (10_state.md R25, 60_exceptions.md R188). -/
def outLimitOf (outMax outCap : Word) : Word := if outMax ≤ outCap then outMax else outCap

/-- The start value of SPLIT_SEL and MODEL_SEL by planeMode (41_splitter.md R110, 42_context_modeler.md R120). -/
def selStart (pm : BitVec 2) : BitVec 3 := #v[1, 7, 3, 0][pm.toNat]

/-- Toggle plane bit 0, then, where the pair advances, add 2 or flip bit 1 (41_splitter.md R111). -/
def toggleAdvance (pm : BitVec 2) (sel : BitVec 3) (advance : Bool) : BitVec 3 :=
  let s1 := sel ^^^ 1
  if advance then
    if pm = 1 then s1 + 2 else if pm = 2 then s1 ^^^ 2 else s1
  else s1

/-- NextSel(pm, s, k), the splitter's update per byte: the pair advances at every 16th byte, byte 0
included (41_splitter.md R111). -/
def nextSel (pm : BitVec 2) (sel : BitVec 3) (k : Word) : BitVec 3 :=
  toggleAdvance pm sel (k.extractLsb' 0 4 == 0)

/-- SelectPlane(n), the modeler's update per bit: the pair advances at every 128th bit, bit 0 included;
answers the plane and the new MODEL_SEL (42_context_modeler.md R121). -/
def selectPlane (pm : BitVec 2) (sel : BitVec 3) (n : Word) : BitVec 3 × BitVec 3 :=
  if pm = 3 then (n.extractLsb' 0 3, sel)
  else
    let s1 := toggleAdvance pm sel (n.extractLsb' 0 7 == 0)
    (s1, s1)

/-- HIMASK (30_encoding.md R87). -/
def hiMask (cm : BitVec 2) : BitVec 16 := #v[0b1110, 0b1100, 0b0110, 0b1100][cm.toNat]

/-- LOMASK (30_encoding.md R87). -/
def loMask (cm : BitVec 2) : BitVec 16 := #v[0b0001, 0b0001, 0b0001, 0b0011][cm.toNat]

/-- Sel(cm, hst): the low four context bits from the history (30_encoding.md R87). -/
def histSelect (cm : BitVec 2) (hst : BitVec 16) : BitVec 4 :=
  (((hst >>> 5) &&& hiMask cm) ||| (hst &&& loMask cm)).setWidth 4

/-- CONTEXT: the plane's parity above the selected history bits (30_encoding.md R86, 42_context_modeler.md R123). -/
def contextOf (p : BitVec 3) (cm : BitVec 2) (hst : BitVec 16) : BitVec 5 :=
  p.extractLsb' 0 1 ++ histSelect cm hst

/-- HIST after one more bit: shift left, the new bit lowest, the old bit 15 lost (42_context_modeler.md R127). -/
def histNext (hst : BitVec 16) (b : Bit) : BitVec 16 := (hst <<< 1) ||| b.setWidth 16

/-- The bits of a byte, most significant first (41_splitter.md R112). -/
def byteBits (b : Byte) : List Bit :=
  [b.extractLsb' 7 1, b.extractLsb' 6 1, b.extractLsb' 5 1, b.extractLsb' 4 1,
    b.extractLsb' 3 1, b.extractLsb' 2 1, b.extractLsb' 1 1, b.extractLsb' 0 1]

/-- `a < b` on lengths: INF is greater than every byte count and not less than INF (10_state.md R45, 46_orchestrator.md R170). -/
def lenLt : AttLen → AttLen → Bool
  | .bytes a, .bytes b => decide (a < b)
  | .bytes _, .inf => true
  | .inf, _ => false

/-- A length as ATTEMPT_LEN shows it (46_orchestrator.md R170). -/
def lenWord : AttLen → Word
  | .bytes n => n
  | .inf => infWord

/-- What ATTEMPT_LEN's value means as a length (10_state.md R30). -/
def lenOfWord (w : Word) : AttLen := if w = infWord then .inf else .bytes w

/-- ceil(pos / 8): whole bytes, and one more for a partial byte (45_interleaver.md R158). -/
def byteLen (pos : Word) : Word := (pos >>> 3) + (if pos &&& 7 = 0 then 0 else 1)

/-- A length cut by the limit: above it, INF (45_interleaver.md R159). -/
def limitLen (limit len : Word) : AttLen := if limit < len then .inf else .bytes len

/-- TAG_LEN (10_state.md R43; log 16). -/
def State.tagLen (s : State) : Word := BitVec.ofNat 32 s.tags.length

/-- The operands the sequencer hands a micro-operation: the loop index and the header from SEQ, the
others from the wires (10_state.md R32, 30_encoding.md R94; log 8, log 19). -/
def State.operands (s : State) : UopOperands :=
  { idx := s.seq.idx
    hdr := s.seq.hcur
    ctx := s.wires.ctx
    bit := s.wires.bit
    cls := s.wires.cls
    sym := s.wires.sym }

end Sys2Proof.Machine
end

