-- ==== Sys2Proof/Machine/Ops.lean ====
section
/-! DEFINITION. The operations the meanings share: byte memories and bit buffers (00_scope.md R11, R12, 20_memory.md R61, R62), the numbered registers, the sequencer's moves (46_orchestrator.md R168), both error entries (60_exceptions.md R190, R193), command acceptance (46_orchestrator.md R165), and the operations one micro-operation issues inside another (30_encoding.md R94). -/

namespace Sys2Proof.Machine

/-! ### Byte memories -/

/-- What a byte no entry lists reads as: 0. The spec states it for the cleared internal buffers
(20_memory.md R62, 10_state.md R48); for IN, OUT and BEST it is a DESIGN CHOICE (log 4). -/
def Memory.unlisted : Byte := 0

/-- MemRead of one byte (00_scope.md R12). -/
def Memory.read : Memory → Nat → Byte
  | [], _ => Memory.unlisted
  | (a, v) :: rest, k => if k = a then v else Memory.read rest k

/-- MemWrite of one byte (00_scope.md R12), keeping the canonical form. -/
def Memory.write : Memory → Nat → Byte → Memory
  | [], k, v => if v = Memory.unlisted then [] else [(k, v)]
  | (a, w) :: rest, k, v =>
    if k < a then
      if v = Memory.unlisted then (a, w) :: rest else (k, v) :: (a, w) :: rest
    else if k = a then
      if v = Memory.unlisted then rest else (k, v) :: rest
    else (a, w) :: Memory.write rest k v

/-- The canonical form: offsets strictly rising, and no byte that an unlisted offset would read as. -/
abbrev Memory.wf (m : Memory) : Prop :=
  m.Pairwise (fun c d => c.1 < d.1) ∧ ∀ c ∈ m, c.2 ≠ Memory.unlisted

/-- Bytes 0 .. n-1 of one memory written over those of another (46_orchestrator.md R170, R171). -/
def Memory.copy (src : Memory) : Nat → Memory → Memory
  | 0, dst => dst
  | n + 1, dst => Memory.write (Memory.copy src n dst) n (Memory.read src n)

/-! ### Bits packed MSB-first (00_scope.md R11) -/

/-- Bit `i` of a byte replaced. -/
def byteSetBit (b : Byte) (i : Nat) (v : Bit) : Byte :=
  (b &&& ~~~(1#8 <<< i)) ||| (v.setWidth 8 <<< i)

/-- BitRead(buf, pos) (00_scope.md R12). -/
def Memory.bitRead (m : Memory) (pos : Nat) : Bit :=
  (Memory.read m (pos / 8)).extractLsb' (7 - pos % 8) 1

/-- buf[pos >> 3][7 - (pos & 7)] <- v (00_scope.md R12). -/
def Memory.bitWrite (m : Memory) (pos : Nat) (v : Bit) : Memory :=
  Memory.write m (pos / 8) (byteSetBit (Memory.read m (pos / 8)) (7 - pos % 8) v)

/-- BitAppend(buf, wpos, v) (00_scope.md R12). -/
def BitBuf.append (b : BitBuf) (v : Bit) : BitBuf :=
  { b with mem := Memory.bitWrite b.mem b.wpos.toNat v, wpos := b.wpos + 1 }

/-- BitAppend of several bits, the first first. -/
def BitBuf.appendAll (b : BitBuf) (vs : List Bit) : BitBuf := vs.foldl BitBuf.append b

/-- The bit at the read cursor (42_context_modeler.md R125, 45_interleaver.md R156). -/
def BitBuf.peek (b : BitBuf) : Bit := Memory.bitRead b.mem b.rpos.toNat

/-- The read cursor one bit on. -/
def BitBuf.advance (b : BitBuf) : BitBuf := { b with rpos := b.rpos + 1 }

/-- Every bit before the write cursor has been read (10_state.md R38). -/
def BitBuf.exhausted (b : BitBuf) : Bool := decide (b.wpos ≤ b.rpos)

/-- The bits before the write cursor, in order. -/
def BitBuf.bits (b : BitBuf) : List Bit := (List.range b.wpos.toNat).map (Memory.bitRead b.mem)

/-! ### The numbered registers -/

/-- Eight registers by their number. -/
def vec8 {α : Type} (f : BitVec 3 → α) : Vector α 8 := #v[f 0, f 1, f 2, f 3, f 4, f 5, f 6, f 7]

def State.plane (s : State) (p : BitVec 3) : BitBuf := s.planes[p.toNat]
def State.chan (s : State) (c : BitVec 3) : BitBuf := s.chans[c.toNat]
def State.history (s : State) (p : BitVec 3) : BitVec 16 := s.hist[p.toNat]
def State.count (s : State) (c : BitVec 3) : BitVec 8 := s.runcnt[c.toNat]
def State.slot (s : State) (x : BitVec 5) : Slot := s.slots[x.toNat]
def State.attempt (s : State) (h : BitVec 4) : Word := s.attemptLen[h.toNat]

def State.setPlane (s : State) (p : BitVec 3) (b : BitBuf) : State :=
  { s with planes := s.planes.set p.toNat b }
def State.setChan (s : State) (c : BitVec 3) (b : BitBuf) : State :=
  { s with chans := s.chans.set c.toNat b }
def State.setHistory (s : State) (p : BitVec 3) (h : BitVec 16) : State :=
  { s with hist := s.hist.set p.toNat h }
def State.setCount (s : State) (c : BitVec 3) (n : BitVec 8) : State :=
  { s with runcnt := s.runcnt.set c.toNat n }
def State.setSlot (s : State) (x : BitVec 5) (v : Slot) : State :=
  { s with slots := s.slots.set x.toNat v }
def State.setAttempt (s : State) (h : BitVec 4) (w : Word) : State :=
  { s with attemptLen := s.attemptLen.set h.toNat w }

def State.pm (s : State) : BitVec 2 := planeMode s.hdr
def State.cm (s : State) : BitVec 2 := contextMode s.hdr
/-- NB of the current attempt (00_scope.md R8). -/
def State.nb (s : State) : Word := bitCount s.hdr s.lenSnap

/-! ### The sequencer (46_orchestrator.md R168) -/

/-- `seq <- next`: the label and loop index to issue next. 10_state.md R32 gives SEQ.idx as a loop index only (byte `k`, bit `n`,
tag `t`), so at a micro-operation that is in no loop of R168 it is open. DESIGN CHOICE (log 28): the callers hold 0 there. -/
def State.goto (s : State) (label : BitVec 8) (idx : Word) : State :=
  { s with seq := { s.seq with uop := label, idx := idx } }

/-- The splitter loop at index `k`: SPL_BYTE or SPL_BITS by planeMode, CM_INIT when it is over, with
SEQ.idx 0 (R168, 41_splitter.md R116; log 28). -/
def State.splLoop (s : State) (k : Word) : State :=
  if k < s.lenSnap then
    s.goto (if s.pm = 3 then Label.splBits else Label.splByte) k
  else s.goto Label.cmInit 0

/-- The modelling loop at bit `n`: CM_BIT, or GCE_FINISH when it is over, with SEQ.idx 0 (R168; log 28). -/
def State.bitLoop (s : State) (n : Word) : State :=
  if n < s.nb then s.goto Label.cmBit n else s.goto Label.gceFinish 0

/-- The output so far already exceeds OUT_LIMIT (45_interleaver.md R159). -/
def State.overLimit (s : State) : Bool := decide (s.outLimit < byteLen s.opos)

/-- The interleaver loop at tag `t`: IL_TAG, or IL_LEN when it is over; the attempt is stopped early, as
45_interleaver.md R159 permits, once its output exceeds OUT_LIMIT with tags still to move (log 11). IL_LEN and ORC_SELECT are in
no loop: SEQ.idx is 0 there (log 28). -/
def State.tagLoop (s : State) (t : Word) : State :=
  if t.toNat < s.tags.length then
    if s.overLimit then { s.goto Label.orcSelect 0 with alen := .inf }
    else s.goto Label.ilTag t
  else s.goto Label.ilLen 0

/-- This is the command's first attempt: the only one of ENCODE, header 0 of COMPRESS (46_orchestrator.md R166, R167; log 14). -/
def State.firstAttempt (s : State) : Bool := s.seq.kind == .encode || s.seq.hcur == 0

/-- After an attempt: the next header of COMPRESS, or ORC_DONE (46_orchestrator.md R166, R167), in no loop of R168: SEQ.idx is 0
there (log 28). -/
def State.nextAttempt (s : State) : State :=
  if s.seq.kind = .compress ∧ s.seq.hcur ≠ 15 then
    { s with seq := { s.seq with hcur := s.seq.hcur + 1, uop := Label.orcBegin, idx := 0 } }
  else s.goto Label.orcDone 0

/-- BEST has room for the attempt: no more than P_OUT_CAP bytes are copied (10_state.md R46, 60_exceptions.md R190; log 21). -/
def State.bestRoom (s : State) : Bool :=
  match s.alen with
  | .bytes n => decide (n ≤ s.cfg.outCap)
  | .inf => true

/-! ### Error entries -/

/-- `raise INTERNAL_FAULT` inside an attempt: the attempt's remaining micro-operations are abandoned, its
length is INF, and the sequencer goes on at ORC_SELECT (60_exceptions.md R190). DESIGN CHOICE (log 28): SEQ.idx, of which R190
says nothing and which is no loop index at ORC_SELECT (10_state.md R32), becomes 0. -/
def State.internalFault (s : State) : State :=
  { s.goto Label.orcSelect 0 with faulted := true, alen := .inf }

/-- Command-level error entry: `raise E(info)` (60_exceptions.md R193). SEQ's fields other
than `phase` keep what they held (log 27). -/
def State.failCommand (s : State) (e : CommandError) : State :=
  { s with
    outLen := 0
    resultHdr := 0
    status := statusFailed e s.status
    seq := { s.seq with phase := .idle } }

/-- The return from an error, or from any completion: CLEAR's effect (46_orchestrator.md R172, 60_exceptions.md R195). -/
def State.acknowledge (s : State) : State := { s with status := statusCleared s.status }

/-- A write to CMD, IN_LEN or OUT_MAX while BUSY = 1: ignored, and OVR is set (46_orchestrator.md R173, R174, 60_exceptions.md R204). -/
def State.overrun (s : State) : State := { s with status := statusOverrun s.status }

/-! ### Commands -/

/-- The effects of accepting COMPRESS or ENCODE that come before the input check (46_orchestrator.md R165).
DESIGN CHOICE (log 28): SEQ.idx is 0 at ORC_BEGIN, which is in no loop.
DESIGN CHOICE (log 27): SEQ.hcur, SEQ.uop and SEQ.idx are loaded before the check, and stay so when it fails and
no attempt runs. -/
def State.snapshot (s : State) (kind : CmdKind) (h : BitVec 4) : State :=
  { s with
    status := statusAccepted s.status
    attemptLen := Vector.replicate 16 infWord
    lenSnap := s.inLen
    outLimit := outLimitOf s.outMax s.cfg.outCap
    seq := { phase := .run, kind := kind, hcur := h, uop := Label.orcBegin, idx := 0 } }

/-- Acceptance of COMPRESS (from header 0) or ENCODE h while BUSY = 0 (46_orchestrator.md R165, 60_exceptions.md R187). -/
def State.accept (s : State) (kind : CmdKind) (h : BitVec 4) : State :=
  let s1 := s.snapshot kind h
  if s.cfg.inCap < s.inLen then s1.failCommand .bufferTooSmallIn
  else { s1 with bestLen := .inf, bestHdr := 0, faulted := false }

/-- A write of an illegal word to CMD: ILLEGAL_COMMAND while idle, an overrun while BUSY
(46_orchestrator.md R165, R173, 60_exceptions.md R191). BUSY stays 0 and the sequencer stays IDLE. -/
def State.illegalCommand (s : State) : State :=
  if s.status.busy then s.overrun
  else
    { s with
      outLen := 0
      resultHdr := 0
      status := statusFailed .illegalCommand s.status }

/-- The device reset input: the state after reset, whatever was running; the parameters and the host's own
fields stay (70_reset_and_hazards.md R205, R207; log 12). -/
def State.deviceReset (s : State) : State :=
  { State.reset with cfg := s.cfg, host := s.host, reads := s.reads, draws := s.draws }

/-! ### Estimator -/

/-- PEM_PREDICT: the predicted bit of a context; it writes no state (43_probability_estimator.md R137). -/
def State.predict (s : State) (ctx : BitVec 5) : Bit := (s.slot ctx).mps

/-- A slot after the run its bit ended: on a mismatch the MPS flips in an adaptive state and the state
goes to nextIfMismatch, on a match to nextIfMatch; both use the state read before (43_probability_estimator.md R138, R139). -/
def slotAfter (row : StRow) (sl : Slot) (sym : Bit) : Slot :=
  if sym = 1 then
    { state := row.nextIfMismatch, mps := if adaptive sl.state then sl.mps ^^^ 1 else sl.mps }
  else { sl with state := row.nextIfMatch }

/-! ### Golomb encoder -/

/-- The mismatch codeword: `1`, then the complement of the count's digits, least significant first
(44_golomb_encoder.md R148, 30_encoding.md R90). -/
def mismatchWord (c : BitVec 3) (cnt : BitVec 8) : List Bit :=
  1 :: (List.range c.toNat).map fun i => if cnt &&& (1#8 <<< i) = 0 then 1 else 0

/-- The bits a symbol makes channel `c` emit (44_golomb_encoder.md R148). -/
def emitted (c : BitVec 3) (sym : Bit) (cnt : BitVec 8) : List Bit :=
  if sym = 1 then mismatchWord c cnt
  else if cnt + 1 = 1#8 <<< c.toNat then [0] else []

/-- RUNCNT[c] after a symbol (44_golomb_encoder.md R148). -/
def countAfter (c : BitVec 3) (sym : Bit) (cnt : BitVec 8) : BitVec 8 :=
  if endOfRun c sym cnt = 1 then 0 else cnt + 1

/-- TagPut(c) (44_golomb_encoder.md R147). -/
def State.tagPut (s : State) (c : BitVec 3) : State := { s with tags := s.tags ++ [c] }

/-- ChanPut(c, b) for several bits (44_golomb_encoder.md R146). -/
def State.chanPut (s : State) (c : BitVec 3) (bs : List Bit) : State :=
  s.setChan c ((s.chan c).appendAll bs)

/-- The tag and the bits a symbol adds, where it adds any, fit the tag memory and the channel buffer (00_scope.md R7,
60_exceptions.md R190; log 21). -/
def State.gceRoom (s : State) (c : BitVec 3) (sym : Bit) : Bool :=
  (s.count c != 0 || decide (s.tags.length < s.cfg.tagCap)) &&
    ((emitted c sym (s.count c)).isEmpty ||
      decide ((s.chan c).wpos.toNat + (emitted c sym (s.count c)).length ≤ s.cfg.chanCap))

/-- GCE_PUTBIT c, sym: the state after and `eor`, or the state INTERNAL_FAULT leaves (44_golomb_encoder.md R148). -/
def State.putBit (s : State) (c : BitVec 3) (sym : Bit) : Except State (State × Bit) :=
  if s.gceRoom c sym then
    let cnt := s.count c
    let s1 := if cnt = 0 then s.tagPut c else s
    .ok ((s1.chanPut c (emitted c sym cnt)).setCount c (countAfter c sym cnt), endOfRun c sym cnt)
  else .error s.internalFault

/-! ### Interleaver -/

/-- IL_MOVEBIT c: the state after and the bit moved, or the state INTERNAL_FAULT leaves when the channel has
no bit left or ATT no room (45_interleaver.md R156, 60_exceptions.md R190). -/
def State.moveBit (s : State) (c : BitVec 3) : Except State (State × Bit) :=
  if (s.chan c).rpos < (s.chan c).wpos ∧ s.opos.toNat / 8 ≤ s.cfg.outCap.toNat then
    let b := (s.chan c).peek
    .ok ({ s.setChan c (s.chan c).advance with
            att := Memory.bitWrite s.att s.opos.toNat b, opos := s.opos + 1 }, b)
  else .error s.internalFault

/-- IL_MOVEBIT c, `n` times (45_interleaver.md R157). -/
def State.moveBits (s : State) (c : BitVec 3) : Nat → Except State State
  | 0 => .ok s
  | n + 1 =>
    match s.moveBit c with
    | .ok (u, _) => u.moveBits c n
    | .error u => .error u

/-- IL_TAG t: one whole codeword, 1 bit when its first bit is 0 and c + 1 bits when it is 1
(45_interleaver.md R157); a tag index no tag has is INTERNAL_FAULT (log 20). -/
def State.moveTag (s : State) (t : Word) : Except State State :=
  match s.tags[t.toNat]? with
  | none => .error s.internalFault
  | some c =>
    match s.moveBit c with
    | .error u => .error u
    | .ok (u, b) => if b = 1 then u.moveBits c c.toNat else .ok u

/-! ### The invariants of an attempt -/

/-- Invariants (a), (c), (d), (e) of 10_state.md R51; (b) holds by the width of a context. -/
def State.invariantsHold (s : State) : Bool :=
  s.slots.toList.all (fun sl => decide (sl.state.toNat ≤ 32)) &&
    (List.range 8).all (fun c => decide ((s.count (BitVec.ofNat 3 c)).toNat < 2 ^ c)) &&
    decide (s.nbit ≤ s.nb) &&
    s.planes.toList.all (fun b => decide (b.rpos ≤ b.wpos))

/-- The micro-operations before which every register R51 speaks of has been set by its INIT in this
attempt, so that the invariants can be checked (10_state.md R48, R51; log 10). -/
def attemptLive : Instr → Bool
  | .cmBit _ => true
  | .pemPredict _ => true
  | .pemStep _ _ => true
  | .gcePutbit _ _ => true
  | .gceFinish => true
  | .ilInit => true
  | .ilTag _ => true
  | .ilMovebit _ => true
  | .ilLen => true
  | .compress => false
  | .encode _ => false
  | .clear => false
  | .splInit => false
  | .splByte _ => false
  | .splBits _ => false
  | .cmInit => false
  | .pemInit => false
  | .gceInit => false
  | .orcBegin _ => false
  | .orcSelect => false
  | .orcDone => false

end Sys2Proof.Machine
end

