-- ==== Sys2Proof/Machine/Commands.lean ====
section
/-! DEFINITION. The host commands (46_orchestrator.md R165, R166, R167, R172, R173). A command's attempts run in the micro-operations that follow its acceptance. -/

namespace Sys2Proof.Machine

/-- COMPRESS written to CMD: accepted while idle, the search starting at header 0; an overrun while BUSY (R165, R166, R173). -/
def execCompress (s : State) : Host.Outcome State Fault Refusal :=
  .next (if s.status.busy then s.overrun else s.accept .compress 0)

/-- ENCODE h written to CMD: accepted while idle, one attempt with header h; an overrun while BUSY (R165, R167, R173). -/
def execEncode (h : BitVec 4) (s : State) : Host.Outcome State Fault Refusal :=
  .next (if s.status.busy then s.overrun else s.accept .encode h)

/-- CLEAR written to CMD: acknowledges a completion while idle; an overrun while BUSY (R172, R173). -/
def execClear (s : State) : Host.Outcome State Fault Refusal :=
  .next (if s.status.busy then s.overrun else s.acknowledge)

end Sys2Proof.Machine
end

