-- ==== Sys2Proof/Machine/Estimator.lean ====
section
/-! DEFINITION. The Probability Estimator (43_probability_estimator.md). -/

namespace Sys2Proof.Machine

/-- PEM_INIT: every context slot at state 0, MPS 0 (R136). -/
def execPemInit (s : State) : Host.Outcome State Fault Refusal :=
  .next (({ s with slots := Vector.replicate 32 { state := 0, mps := 0 } } : State).goto Label.gceInit 0)

/-- PEM_PREDICT ctx: returns the slot's MPS and writes no state (R137); the return stands on the wires (log 8).
CM_BIT issues it inside itself; issued alone it leaves the sequencer where it is (log 9). -/
def execPemPredict (ctx : BitVec 5) (s : State) : Host.Outcome State Fault Refusal :=
  .next { s with wires := { s.wires with bit := s.predict ctx } }

/-- PEM_STEP bit, ctx: the symbol goes to the run class of the slot's state, and when that ends a run the slot
moves on (R138, R139). A state above 32 is INTERNAL_FAULT (R140). -/
def execPemStep (bit : Bit) (ctx : BitVec 5) (s : State) : Host.Outcome State Fault Refusal :=
  let sl := s.slot ctx
  if h : sl.state.toNat < 33 then
    let row := s.cfg.st[sl.state.toNat]
    let sym := symbolOf bit sl.mps
    match s.putBit row.runClass sym with
    | .error u => .next u
    | .ok (u, eor) =>
      let v : State := { u with wires := { u.wires with cls := row.runClass, sym := sym, eor := eor } }
      .next ((if eor = 1 then v.setSlot ctx (slotAfter row sl sym) else v).bitLoop (s.seq.idx + 1))
  else .next s.internalFault

end Sys2Proof.Machine
end

