-- ==== Sys2Proof/Machine/Golomb.lean ====
section
/-! DEFINITION. The Run-Length (Golomb) Encoder (44_golomb_encoder.md). -/

namespace Sys2Proof.Machine

/-- GCE_INIT: counters, channels and the tag sequence emptied; then the modelling loop (R145). -/
def execGceInit (s : State) : Host.Outcome State Fault Refusal :=
  .next (({ s with
    runcnt := Vector.replicate 8 0
    chans := Vector.replicate 8 BitBuf.empty
    tags := [] } : State).bitLoop 0)

/-- GCE_PUTBIT c, sym: one symbol into channel c; returns eor (R148), which stands on the wires (log 8).
PEM_STEP issues it inside itself; issued alone it leaves the sequencer where it is (log 9). -/
def execGcePutbit (c : BitVec 3) (sym : Bit) (s : State) : Host.Outcome State Fault Refusal :=
  match s.putBit c sym with
  | .error u => .next u
  | .ok (u, eor) => .next { u with wires := { u.wires with eor := eor } }

/-- GCE_FINISH: a trailing 0 bit into every channel whose counter is not zero, which becomes zero; no tag
(R151). A channel with no room is INTERNAL_FAULT (log 21). -/
def execGceFinish (s : State) : Host.Outcome State Fault Refusal :=
  if (List.range 8).all fun c =>
      s.count (BitVec.ofNat 3 c) == 0 ||
        decide ((s.chan (BitVec.ofNat 3 c)).wpos.toNat + 1 ≤ s.cfg.chanCap) then
    .next (({ s with
      chans := vec8 fun c => if s.count c = 0 then s.chan c else (s.chan c).append 0
      runcnt := Vector.replicate 8 0 } : State).goto Label.ilInit 0)
  else .next s.internalFault

end Sys2Proof.Machine
end

