-- ==== Sys2Proof/Machine/Interleaver.lean ====
section
/-! DEFINITION. The Interleaver (45_interleaver.md). -/

namespace Sys2Proof.Machine

/-- IL_INIT: ATT cleared but for the header in the top nibble of its first byte, OPOS 4, every CHAN_RPOS 0;
then the tag loop (R155). -/
def execIlInit (s : State) : Host.Outcome State Fault Refusal :=
  .next (({ s with
    att := Memory.write [] 0 (s.hdr ++ 0#4)
    opos := 4
    chans := vec8 fun c => { s.chan c with rpos := 0 } } : State).tagLoop 0)

/-- IL_TAG t: the codeword of tag t to the output; then the tag loop (R157). -/
def execIlTag (t : Word) (s : State) : Host.Outcome State Fault Refusal :=
  match s.moveTag t with
  | .error u => .next u
  | .ok u => .next (u.tagLoop (t + 1))

/-- IL_MOVEBIT c: one bit of channel c to the output; returns it (R156), on the wires (log 8).
IL_TAG issues it inside itself; issued alone it leaves the sequencer where it is (log 9). -/
def execIlMovebit (c : BitVec 3) (s : State) : Host.Outcome State Fault Refusal :=
  match s.moveBit c with
  | .error u => .next u
  | .ok (u, b) => .next { u with wires := { u.wires with bit := b } }

/-- IL_LEN: ALEN is ceil(OPOS / 8) (R158), or INF when that exceeds OUT_LIMIT (R159). -/
def execIlLen (s : State) : Host.Outcome State Fault Refusal :=
  .next (({ s with alen := limitLen s.outLimit (byteLen s.opos) } : State).goto Label.orcSelect 0)

end Sys2Proof.Machine
end

