-- ==== Sys2Proof/Machine/Modeler.lean ====
section
/-! DEFINITION. The Context Modeler (42_context_modeler.md). -/

namespace Sys2Proof.Machine

/-- CM_INIT: MODEL_SEL at its start value, NBIT, HIST and PLANE_RPOS zero (R120). -/
def execCmInit (s : State) : Host.Outcome State Fault Refusal :=
  .next (({ s with
    modelSel := selStart s.pm
    nbit := 0
    hist := Vector.replicate 8 0
    planes := vec8 fun p => { s.plane p with rpos := 0 } } : State).goto Label.pemInit 0)

/-- CM_BIT n: the plane of bit n, its context, and its bit: the next unread bit of the plane, or, when the
plane is exhausted, the Estimator's prediction for the context (R121, R123 to R127). -/
def execCmBit (n : Word) (s : State) : Host.Outcome State Fault Refusal :=
  let p := (selectPlane s.pm s.modelSel n).1
  let ctx := contextOf p s.cm (s.history p)
  let pad := (s.plane p).exhausted
  let bit := if pad then s.predict ctx else (s.plane p).peek
  .next (((({ s with
    modelSel := (selectPlane s.pm s.modelSel n).2
    nbit := n + 1
    wires := { s.wires with bit := bit, ctx := ctx, pad := BitVec.ofBool pad } } : State).setPlane p
      (if pad then s.plane p else (s.plane p).advance)).setHistory p
      (histNext (s.history p) bit)).goto Label.pemStep n)

end Sys2Proof.Machine
end

