-- ==== Sys2Proof/Machine/Orchestrator.lean ====
section
/-! DEFINITION. The Orchestrator's micro-operations (46_orchestrator.md R169, R170, R171). -/

namespace Sys2Proof.Machine

/-- ORC_BEGIN h: SEQ.hcur and HDR take the header (R169). DESIGN CHOICE (log 26): ALEN, unspecified until IL_LEN
(10_state.md R48, I13), keeps what it held. -/
def execOrcBegin (h : BitVec 4) (s : State) : Host.Outcome State Fault Refusal :=
  .next (({ s with hdr := h, seq := { s.seq with hcur := h } } : State).goto Label.splInit 0)

/-- ORC_SELECT: ATTEMPT_LEN[HDR] takes the attempt's length; the attempt becomes the best if it is the command's
first or strictly shorter; then the next attempt or ORC_DONE (R170, R166, R167). A best attempt that BEST has no room
for is INTERNAL_FAULT, after which ORC_SELECT runs again with ALEN = INF (60_exceptions.md R190; log 21). -/
def execOrcSelect (s : State) : Host.Outcome State Fault Refusal :=
  let keep := s.firstAttempt || lenLt s.alen s.bestLen
  let u := s.setAttempt s.hdr (lenWord s.alen)
  let v : State :=
    if keep then
      { u with
        best := match s.alen with
          | .bytes n => Memory.copy s.att n.toNat s.best
          | .inf => s.best
        bestLen := s.alen
        bestHdr := s.hdr }
    else u
  .next (if keep && !s.bestRoom then s.internalFault else v.nextAttempt)

/-- ORC_DONE: the best attempt to OUT, OUT_LEN and RESULT_HDR, and the completion event; with no finite attempt,
INTERNAL_FAULT when one faulted, else BUFFER_TOO_SMALL_OUT (R171, 60_exceptions.md R188, R190). -/
def execOrcDone (s : State) : Host.Outcome State Fault Refusal :=
  match s.bestLen with
  | .inf => .next (s.failCommand (if s.faulted then .internalFault else .bufferTooSmallOut))
  | .bytes n =>
    .next { s with
      outMem := Memory.copy s.best n.toNat s.outMem
      outLen := n
      resultHdr := s.bestHdr
      status := statusCompleted s.status
      seq := { s.seq with phase := .idle } }

end Sys2Proof.Machine
end

