-- ==== Sys2Proof/Machine/Splitter.lean ====
section
/-! DEFINITION. The Bit-Plane Splitter (41_splitter.md). -/

namespace Sys2Proof.Machine

/-- SPL_INIT: planes cleared, SPLIT_SEL at its start value (R110). -/
def execSplInit (s : State) : Host.Outcome State Fault Refusal :=
  .next (({ s with
    planes := vec8 fun p => { s.plane p with mem := [], wpos := 0 }
    splitSel := selStart s.pm } : State).splLoop 0)

/-- SPL_BYTE k: SPLIT_SEL moves on, and the byte's eight bits are appended to the plane it names, most
significant first (R111, R112). A byte IN does not have, or a plane with no room, is INTERNAL_FAULT (log 20, log 21). -/
def execSplByte (k : Word) (s : State) : Host.Outcome State Fault Refusal :=
  let p := nextSel s.pm s.splitSel k
  if k < s.cfg.inCap ∧ (s.plane p).wpos.toNat + 8 ≤ 8 * s.cfg.planeCap then
    .next ((({ s with splitSel := p } : State).setPlane p
      ((s.plane p).appendAll (byteBits (Memory.read s.inMem k.toNat)))).splLoop (k + 1))
  else .next s.internalFault

/-- SPL_BITS k: bit p of the byte is appended to plane p, for every p (R113). A byte IN does not have, or a
plane with no room, is INTERNAL_FAULT (log 20, log 21). -/
def execSplBits (k : Word) (s : State) : Host.Outcome State Fault Refusal :=
  if k < s.cfg.inCap ∧ ∀ b ∈ s.planes.toList, b.wpos.toNat + 1 ≤ 8 * s.cfg.planeCap then
    .next (({ s with
      planes := vec8 fun p =>
        (s.plane p).append ((Memory.read s.inMem k.toNat).extractLsb' p.toNat 1) } : State).splLoop (k + 1))
  else .next s.internalFault

end Sys2Proof.Machine
end

