-- ==== Sys2Proof/Machine/Dispatch.lean ====
section
/-! DEFINITION. exec: one arm per instruction, each one call of its meaning. -/

namespace Sys2Proof.Machine

def exec (i : Instr) (s : State) : Host.Outcome State Fault Refusal :=
  match i with
  | .compress => Sys2Proof.Machine.execCompress s
  | .encode h => Sys2Proof.Machine.execEncode h s
  | .clear => Sys2Proof.Machine.execClear s
  | .splInit => Sys2Proof.Machine.execSplInit s
  | .splByte k => Sys2Proof.Machine.execSplByte k s
  | .splBits k => Sys2Proof.Machine.execSplBits k s
  | .cmInit => Sys2Proof.Machine.execCmInit s
  | .cmBit n => Sys2Proof.Machine.execCmBit n s
  | .pemInit => Sys2Proof.Machine.execPemInit s
  | .pemPredict ctx => Sys2Proof.Machine.execPemPredict ctx s
  | .pemStep bit ctx => Sys2Proof.Machine.execPemStep bit ctx s
  | .gceInit => Sys2Proof.Machine.execGceInit s
  | .gcePutbit c sym => Sys2Proof.Machine.execGcePutbit c sym s
  | .gceFinish => Sys2Proof.Machine.execGceFinish s
  | .ilInit => Sys2Proof.Machine.execIlInit s
  | .ilTag t => Sys2Proof.Machine.execIlTag t s
  | .ilMovebit c => Sys2Proof.Machine.execIlMovebit c s
  | .ilLen => Sys2Proof.Machine.execIlLen s
  | .orcBegin h => Sys2Proof.Machine.execOrcBegin h s
  | .orcSelect => Sys2Proof.Machine.execOrcSelect s
  | .orcDone => Sys2Proof.Machine.execOrcDone s

end Sys2Proof.Machine
end

