-- ==== Sys2Proof/Machine/HostPort.lean ====
section
/-! DEFINITION. The two agents' turns: the engine's fetch and one micro-operation (10_state.md R32, 30_encoding.md R95), and one host move on REG, IN, OUT or the reset input (10_state.md R21 to R31, 20_memory.md R61 to R63, R69, 46_orchestrator.md R180, 60_exceptions.md R196); the pseudo-instructions of 30_encoding.md R98. -/

namespace Sys2Proof.Machine

/-! ### The register interface -/

/-- The register at an aligned REG offset; `none` for a reserved offset (10_state.md R21, R31). -/
def regAt (off : Nat) : Option RegName :=
  if off = 0x00 then some .cmd
  else if off = 0x04 then some .status
  else if off = 0x08 then some .inLen
  else if off = 0x0C then some .outMax
  else if off = 0x10 then some .outLen
  else if off = 0x14 then some .resultHdr
  else if off = 0x18 then some .irqEn
  else if off = 0x1C then some .caps
  else if 0x40 ≤ off ∧ off ≤ 0x7C ∧ off % 4 = 0 then some (.attemptLen (BitVec.ofNat 4 ((off - 0x40) / 4)))
  else none

/-- A REG access that has a meaning: 32 bits, at a multiple of 4 (20_memory.md R63). -/
def regAccess (width : AccessWidth) (off : Nat) : Bool := width == .w32 && off % 4 == 0

/-- The value a read of a register returns; a read has no side effect (10_state.md R22 to R30, 20_memory.md R68). -/
def State.regValue (s : State) : RegName → Word
  | .cmd => 0
  | .status => statusWord s.status
  | .inLen => s.inLen
  | .outMax => s.outMax
  | .outLen => s.outLen
  | .resultHdr => s.resultHdr.setWidth 32
  | .irqEn => (BitVec.ofBool s.ie).setWidth 32
  | .caps => s.cfg.inCap
  | .attemptLen h => s.attempt h

/-- The value a read at an aligned offset returns; a reserved offset reads 0 (10_state.md R31). -/
def State.regRead (s : State) (off : Nat) : Word :=
  match regAt off with
  | some r => s.regValue r
  | none => 0

/-- A write to a register other than CMD (10_state.md R23 to R31, 46_orchestrator.md R174): IN_LEN and OUT_MAX while idle,
IRQ_EN at any time; read-only registers ignore it. -/
def State.regWrite (s : State) (r : RegName) (v : Word) : State :=
  match r with
  | .inLen => if s.status.busy then s.overrun else { s with inLen := v }
  | .outMax => if s.status.busy then s.overrun else { s with outMax := v }
  | .irqEn => { s with ie := v.getLsbD 0 }
  | .cmd => s
  | .status => s
  | .outLen => s
  | .resultHdr => s
  | .caps => s
  | .attemptLen _ => s

/-- A write to CMD: the decoded command, or what an illegal word does (46_orchestrator.md R165). -/
def State.writeCmd (s : State) (w : Word) : Host.Outcome State Fault Refusal :=
  match decodeCommand w with
  | .ok i => exec i s
  | .error _ => .next s.illegalCommand

/-- What a host read returned is kept in the host's log (log 5). -/
def State.logRead (s : State) (r : HostRead) : State := { s with reads := r :: s.reads }

/-! ### System addresses (20_memory.md R69; log 22) -/

/-- The three spaces the host addresses (20_memory.md R60). -/
inductive HostSpace where
  | reg
  | input
  | output
deriving DecidableEq, Repr

/-- REG takes 0x80 bytes of system addresses (20_memory.md R60). -/
def regSpan : Nat := 0x80

/-- The offset of `addr` in the `span` bytes from `base` on. -/
def offsetIn (base span addr : Nat) : Option Nat :=
  if base ≤ addr ∧ addr < base + span then some (addr - base) else none

/-- The space and offset a system address stands for, REG before IN before OUT where a platform lets them overlap. -/
def locate (cfg : Config) (addr : Nat) : Option (HostSpace × Nat) :=
  match offsetIn cfg.regBase regSpan addr with
  | some off => some (.reg, off)
  | none =>
    match offsetIn cfg.inBase cfg.inCap.toNat addr with
    | some k => some (.input, k)
    | none => (offsetIn cfg.outBase cfg.outCap.toNat addr).map fun k => (.output, k)

/-- The access a system-address access is, by space and offset; one that is none of the block's accesses stays as it
is, and every other move is itself. -/
def HostMove.placed (cfg : Config) (m : HostMove) : HostMove :=
  match m with
  | .busWrite width addr v =>
    match locate cfg addr with
    | some (.reg, off) => .regWrite width off v
    | some (.input, k) => if width = .w8 then .inWrite k (v.setWidth 8) else m
    | some (.output, _) => m
    | none => m
  | .busRead width addr =>
    match locate cfg addr with
    | some (.reg, off) => .regRead width off
    | some (.output, k) => if width = .w8 then .outRead k else m
    | some (.input, _) => m
    | none => m
  | .regWrite _ _ _ => m
  | .regRead _ _ => m
  | .inWrite _ _ => m
  | .outRead _ => m
  | .waitDone => m
  | .waitIrq => m
  | .pause => m
  | .reset => m

/-- What a system-address access that is none of the block's accesses comes to (log 13, log 22). -/
def strayAccess (cfg : Config) (addr : Nat) : Host.Outcome State Fault Refusal :=
  if (locate cfg addr).isSome then .refused .byteAccessShape else .fault (.noSuchAddress addr)

/-! ### The engine's turn -/

/-- The micro-operation the sequencer is at: `none` where its label is unused (30_encoding.md R95) or an invariant
of 10_state.md R51 fails before a micro-operation it is checked at (60_exceptions.md R190; log 10). -/
def State.fetch (s : State) : Option Instr :=
  match decodeUop s.seq.uop s.operands with
  | .error _ => none
  | .ok i => if attemptLive i && !s.invariantsHold then none else some i

/-- The engine's turn: nothing while IDLE (60_exceptions.md R203), else one micro-operation, or INTERNAL_FAULT (R190). -/
def State.engineTurn (s : State) : Host.Outcome State Fault Refusal :=
  match s.seq.phase with
  | .idle => .next s
  | .run =>
    match s.fetch with
    | some i => exec i s
    | none => .next s.internalFault

/-! ### The host's turn -/

/-- One host move, by space and offset, already taken from the list; `s.host` holds the moves after it. -/
def State.hostTurn (s : State) (m : HostMove) : Host.Outcome State Fault Refusal :=
  match m with
  | .regWrite width off v =>
    if regAccess width off then
      match regAt off with
      | some .cmd => s.writeCmd v
      | some r => .next (s.regWrite r v)
      | none => .next s
    else .refused .regAccessShape
  | .regRead width off =>
    if regAccess width off then .next (s.logRead (.reg off (s.regRead off)))
    else .refused .regAccessShape
  | .inWrite k v =>
    if s.status.busy then .refused .inWriteWhileBusy
    else if k < s.cfg.inCap.toNat then .next { s with inMem := Memory.write s.inMem k v }
    else .refused (.inOutOfRange k)
  | .outRead k =>
    if k < s.cfg.outCap.toNat then
      if s.status.busy then
        .next { s.logRead (.out k (Config.outDraw s.draws)) with draws := s.draws + 1 }
      else .next (s.logRead (.out k (Memory.read s.outMem k)))
    else .refused (.outOutOfRange k)
  | .waitDone =>
    if s.status.done then .next (s.logRead (.reg 0x04 (statusWord s.status)))
    else ({ s with host := .waitDone :: s.host } : State).engineTurn
  | .waitIrq =>
    if irq s then .next (s.logRead .irq)
    else ({ s with host := .waitIrq :: s.host } : State).engineTurn
  | .pause => s.engineTurn
  | .reset => .next s.deviceReset
  | .busWrite _ addr _ => strayAccess s.cfg addr
  | .busRead _ addr => strayAccess s.cfg addr

/-- One step of the whole block: the host's next move, or the engine's turn when no move is left (log 5). -/
def State.turn (s : State) : Host.Outcome State Fault Refusal :=
  match s.host with
  | [] => s.engineTurn
  | m :: rest => ({ s with host := rest } : State).hostTurn (m.placed s.cfg)

/-! ### Host programs (30_encoding.md R97, R98) -/

/-- `WR <reg>, v`. -/
def wr (off : Nat) (v : Word) : HostMove := .regWrite .w32 off v

/-- `RD <reg>`. -/
def rd (off : Nat) : HostMove := .regRead .w32 off

/-- The pseudo-instruction COMPRESS. -/
def hostCompress : HostMove := wr 0x00 0x00000010

/-- The pseudo-instruction ENCODE h. -/
def hostEncode (h : BitVec 4) : HostMove := wr 0x00 (0x00000020 ||| h.setWidth 32)

/-- The pseudo-instruction CLEAR. -/
def hostClear : HostMove := wr 0x00 0x00000030

/-- `WRB IN[k], b` for each byte from offset `k` on. -/
def inWrites : Nat → List Byte → List HostMove
  | _, [] => []
  | k, b :: rest => .inWrite k b :: inWrites (k + 1) rest

/-- The pseudo-instruction LOADIN. -/
def loadIn (bs : List Byte) : List HostMove := inWrites 0 bs ++ [wr 0x08 (BitVec.ofNat 32 bs.length)]

end Sys2Proof.Machine
end

