-- ==== Sys2Proof/Machine/Step.lean ====
section
/-! DEFINITION. One step of the machine, and where it fetches its next instruction. -/

namespace Sys2Proof.Machine

/-- One step: the host's next move, or one micro-operation of the engine (00_scope.md R16; log 5). -/
def step (s : State) : Host.Outcome State Fault Refusal := s.turn

/-- `s` about to run the instruction whose table bits are `w` (log 6). A 32-bit row: the host's next move writes the word
to CMD. An 8-bit row: the sequencer runs (so BUSY = 1 and DONE = 0) at the label `w` with every operand zero
(SEQ.idx too, also at a label in no loop, log 28), and the next move leaves the engine the turn. -/
def State.withFetchWord (s : State) (nbits w : Nat) : State :=
  if nbits = 32 then
    { s with host := .regWrite .w32 0x00 (BitVec.ofNat 32 w) :: s.host }
  else if nbits = 8 then
    { s with
      host := .pause :: s.host
      status := { s.status with busy := true, done := false }
      seq := { s.seq with phase := .run, hcur := 0, uop := BitVec.ofNat 8 w, idx := 0 }
      wires := { s.wires with bit := 0, ctx := 0, cls := 0, sym := 0 } }
  else s

end Sys2Proof.Machine
end

