-- ==== Sys2Proof/Safety.lean ====
section
/-! DEFINITION. What counts as a sound state and a run of the block, in the terms the statements use: the canonical memories, the agreement of the status bits (10_state.md R23, 60_exceptions.md R193), the sizes of the memories (20_memory.md R60), the invariants of an attempt (10_state.md R51), the plane sequences (41_splitter.md R114, 42_context_modeler.md R121), and the reachable states. -/

namespace Sys2Proof.Machine

/-- Every memory of the block is in its canonical form. -/
def State.canonical (s : State) : Prop :=
  Memory.wf s.inMem ∧ Memory.wf s.outMem ∧ Memory.wf s.att ∧ Memory.wf s.best ∧
    (∀ p, Memory.wf (s.plane p).mem) ∧ ∀ c, Memory.wf (s.chan c).mem

/-- The status bits agree with each other, with the sequencer and with the result registers: BUSY is 1
exactly while the sequencer runs, BUSY excludes DONE and ERR (10_state.md R23), an error is reported with DONE, with
a code of 60_exceptions.md R186 and with no result (R193), and ERRCODE is 0 without ERR (10_state.md R23). -/
def State.statusLawful (s : State) : Prop :=
  (s.status.busy = true ↔ s.seq.phase = .run) ∧
    (s.status.busy = true → s.status.done = false ∧ s.status.err = false) ∧
    (s.status.err = true → s.status.done = true ∧ s.outLen = 0 ∧ s.resultHdr = 0 ∧
      1 ≤ s.status.errcode.toNat ∧ s.status.errcode.toNat ≤ 4) ∧
    (s.status.err = false → s.status.errcode = 0)

/-- A length fits a memory of `cap` bytes. -/
def lenWithin (l : AttLen) (cap : Word) : Prop := ∀ n, l = .bytes n → n ≤ cap

/-- Nothing stands outside the memories' sizes: IN, OUT, BEST (20_memory.md R60, 10_state.md R46), ATT with its one byte
more (R44), the planes and channels (R35, R42), the tags (R43, 00_scope.md R7), and every length that a copy is made by is at
most P_OUT_CAP. -/
def State.withinSizes (s : State) : Prop :=
  (∀ c ∈ s.inMem, c.1 < s.cfg.inCap.toNat) ∧
    (∀ c ∈ s.outMem, c.1 < s.cfg.outCap.toNat) ∧
    (∀ c ∈ s.best, c.1 < s.cfg.outCap.toNat) ∧
    (∀ c ∈ s.att, c.1 ≤ s.cfg.outCap.toNat) ∧
    (∀ p, ∀ c ∈ (s.plane p).mem, c.1 < s.cfg.planeCap) ∧
    (∀ k, ∀ c ∈ (s.chan k).mem, 8 * c.1 < s.cfg.chanCap) ∧
    s.tags.length ≤ s.cfg.tagCap ∧
    s.outLimit ≤ s.cfg.outCap ∧ s.outLen ≤ s.cfg.outCap ∧
    lenWithin s.alen s.cfg.outCap ∧ lenWithin s.bestLen s.cfg.outCap

/-- Invariants (a) and (c) of 10_state.md R51: SLOT states in 0..32, RUNCNT[c] at most 2^c - 1. -/
def State.unitsLawful (s : State) : Prop :=
  (∀ x, (s.slot x).state.toNat ≤ 32) ∧ ∀ c : BitVec 3, (s.count c).toNat + 1 ≤ 2 ^ c.toNat

/-- PlaneOfByte(pm, k), the closed form of 41_splitter.md R114, for pm other than 3. -/
def planeOfByte (pm : BitVec 2) (k : Nat) : Nat :=
  if pm = 0 then k % 2
  else if pm = 1 then (2 * (k / 16) + k % 2) % 8
  else 2 * (k / 16 % 2) + k % 2

/-- SPLIT_SEL after the splitter has taken bytes 0 .. k-1 (41_splitter.md R110, R111). -/
def splitSelAfter (pm : BitVec 2) : Nat → BitVec 3
  | 0 => selStart pm
  | k + 1 => nextSel pm (splitSelAfter pm k) (BitVec.ofNat 32 k)

/-- MODEL_SEL after the modeler has replayed bits 0 .. n-1 (42_context_modeler.md R120, R121). -/
def modelSelAfter (pm : BitVec 2) : Nat → BitVec 3
  | 0 => selStart pm
  | n + 1 => (selectPlane pm (modelSelAfter pm n) (BitVec.ofNat 32 n)).2

/-- The plane the modeler takes bit `n` from (42_context_modeler.md R121). -/
def modelPlane (pm : BitVec 2) (n : Nat) : BitVec 3 :=
  (selectPlane pm (modelSelAfter pm n) (BitVec.ofNat 32 n)).1

/-- The host's next move is `m`, by space and offset, and `rest` are the moves after it: it stands in the list as itself, or as
the access at the system address that places it there (20_memory.md R69; log 5, log 22). -/
def State.hostMakes (s : State) (m : HostMove) (rest : List HostMove) : Prop :=
  ∃ h, s.host = h :: rest ∧ h.placed s.cfg = m

/-- The platform places REG, IN and OUT at system addresses that do not overlap (20_memory.md R69; log 22). -/
abbrev disjointSpaces (cfg : Config) : Prop :=
  (cfg.regBase + regSpan ≤ cfg.inBase ∨ cfg.inBase + cfg.inCap.toNat ≤ cfg.regBase) ∧
    (cfg.regBase + regSpan ≤ cfg.outBase ∨ cfg.outBase + cfg.outCap.toNat ≤ cfg.regBase) ∧
    (cfg.inBase + cfg.inCap.toNat ≤ cfg.outBase ∨ cfg.outBase + cfg.outCap.toNat ≤ cfg.inBase)

/-- A machine right after reset, with any legal parameters, and a host about to make the moves of `prog`. -/
def State.start (cfg : Config) (prog : List HostMove) : State :=
  { State.reset with cfg := cfg, host := prog }

/-- The states a block with legal parameters can come to, whatever its host does. -/
inductive Reachable : State → Prop where
  | start (cfg : Config) (prog : List HostMove) (h : legalConfig cfg) : Reachable (State.start cfg prog)
  | step (s t : State) (h : Reachable s) (hs : Machine.step s = .next t) : Reachable t

/-- Two states agree on everything a command may depend on: the parameters, IN_LEN, OUT_MAX and the input bytes
(46_orchestrator.md R178). -/
def sameInputs (s t : State) : Prop :=
  s.cfg = t.cfg ∧ s.inLen = t.inLen ∧ s.outMax = t.outMax ∧
    ∀ k, k < s.inLen.toNat → Memory.read s.inMem k = Memory.read t.inMem k

/-- Two states agree on everything a host may take from a completed command: STATUS but for the sticky OVR, OUT_LEN,
RESULT_HDR, every ATTEMPT_LEN and the output bytes (46_orchestrator.md R178). -/
def sameResults (s t : State) : Prop :=
  { s.status with ovr := false } = { t.status with ovr := false } ∧ s.outLen = t.outLen ∧
    s.resultHdr = t.resultHdr ∧ s.attemptLen = t.attemptLen ∧
    ∀ k, k < s.outLen.toNat → Memory.read s.outMem k = Memory.read t.outMem k

end Sys2Proof.Machine
end

