-- ==== Sys2Proof/Certificates/Slice0/Obligations.lean ====
section
/-! DEFINITION. The statements for the provers, file by file of spec/: encodings, the two agents' turns, reset, commands, the host port, the six units, the error entries, and the invariants and whole-machine rules. A frame is written `t = { s with f := t.f, … }`: every field not named is unchanged. `s.hostMakes m rest` says that the host's next move is `m`, by space and offset, whether it stands so in the list or as an access at a system address. -/

open Sys2Proof Sys2Proof.Machine

/-! ## Encodings (30_encoding.md) -/

/-- Words written out from R82 and R94 decode to the instructions they stand for. -/
def Obligations.TableWordsDecode : Prop :=
  decodeTableWord 32 0x00000010 = some .compress ∧
  decodeTableWord 32 0x00000020 = some (.encode 0) ∧
  decodeTableWord 32 0x0000002F = some (.encode 15) ∧
  decodeTableWord 32 0x00000030 = some .clear ∧
  decodeTableWord 32 0x00000011 = none ∧
  decodeTableWord 8 0x11 = some (.splByte 0) ∧
  decodeTableWord 8 0x21 = some (.cmBit 0) ∧
  decodeTableWord 8 0x32 = some (.pemStep 0 0) ∧
  decodeTableWord 8 0x41 = some (.gcePutbit 0 0) ∧
  decodeTableWord 8 0x53 = some .ilLen ∧
  decodeTableWord 8 0x62 = some .orcDone ∧
  decodeTableWord 8 0x13 = none

/-- Decode and encode agree in both directions: for every instruction with every operand, for every command word the
decoder accepts, and for every label it accepts (R81, R82, R94). -/
def Obligations.DecodeAndEncodeAgree : Prop :=
  (∀ i, decode (encode i) = .ok i) ∧
  (∀ w i, decodeCommand w = .ok i → encode i = .cmdWord w) ∧
  ∀ label ops i, decodeUop label ops = .ok i →
    ∃ ops', encode i = .uop label ops' ∧ decodeUop label ops' = .ok i

/-- The words the decoder rejects are exactly the illegal command words R83 lists; written while idle such a word
completes at once with ERR = 1 and ERRCODE = 3, written while BUSY it is ignored and sets OVR (R83, 60_exceptions.md R191). -/
def Obligations.IllegalCommandWords : Prop :=
  (∀ w : BitVec 32,
    decodeCommand w = .error (.illegalCommand w) ↔
      (w.extractLsb' 8 24 ≠ 0 ∨
        w.extractLsb' 4 4 = 0 ∨ 4 ≤ (w.extractLsb' 4 4).toNat ∨
        ((w.extractLsb' 4 4 = 1 ∨ w.extractLsb' 4 4 = 3) ∧ w.extractLsb' 0 4 ≠ 0))) ∧
  ∀ (s : State) (w : BitVec 32) (rest : List HostMove),
    s.hostMakes (.regWrite .w32 0 w) rest → decodeCommand w = .error (.illegalCommand w) →
    (s.status.busy = false →
      step s = .next { s with
        host := rest, outLen := 0, resultHdr := 0
        status := { s.status with done := true, err := true, errcode := 3 } }) ∧
    (s.status.busy = true →
      step s = .next { s with host := rest, status := { s.status with ovr := true } })

/-- A label R94 does not assign, met by a running engine, is INTERNAL_FAULT: FAULTED set, ALEN INF, on at ORC_SELECT; so is an
invariant of 10_state.md R51 that fails before a micro-operation it is checked at (R95, 60_exceptions.md R190; log 10). It is so in
every form of the engine's turn: no host move left, a pause, a poll that does not see DONE, a wait for an interrupt not raised.
The model's choice, not the spec's: SEQ.idx is 0 at ORC_SELECT, which is in no loop (log 28). -/
def Obligations.BadLabelOrInvariantIsInternalFault : Prop :=
  ∀ (s : State) (rest : List HostMove), s.seq.phase = .run →
    s.seq.uop.toNat ∉ [0x10, 0x11, 0x12, 0x20, 0x21, 0x30, 0x31, 0x32, 0x40, 0x41, 0x42, 0x50, 0x51, 0x52,
      0x53, 0x60, 0x61, 0x62] ∨
      (s.seq.uop.toNat ∈ [0x21, 0x31, 0x32, 0x41, 0x42, 0x50, 0x51, 0x52, 0x53] ∧
        ((∃ x, 32 < (s.slot x).state.toNat) ∨ (∃ c : BitVec 3, 2 ^ c.toNat ≤ (s.count c).toNat) ∨
          s.nb < s.nbit ∨ ∃ p, (s.plane p).wpos < (s.plane p).rpos)) →
    let t : State := { s with
      faulted := true, alen := .inf, seq := { s.seq with uop := 0x61, idx := 0 } }
    (s.host = [] → step s = .next t) ∧
    (s.hostMakes .pause rest → step s = .next { t with host := rest }) ∧
    (s.hostMakes .waitDone rest → s.status.done = false → step s = .next t) ∧
    (s.hostMakes .waitIrq rest → irq s = false → step s = .next t)

/-! ## The two agents' turns (00_scope.md R16, 46_orchestrator.md R165, R168) -/

/-- A step whose host move writes a command word to CMD is exec of the command the word decodes to, on the state with that
move taken. -/
def Obligations.StepRunsWrittenCommand : Prop :=
  ∀ (s : State) (w : BitVec 32) (i : Instr) (rest : List HostMove),
    s.hostMakes (.regWrite .w32 0 w) rest → decodeCommand w = .ok i →
    step s = exec i { s with host := rest }

/-- A step that is the engine's turn (no host move left, a pause, a poll that does not see DONE, or a wait for an interrupt that
is not raised) is exec of the micro-operation the sequencer is at: the pause is taken, the waits stay. The premise on `attemptLive` is the check of
10_state.md R51 (log 10). -/
def Obligations.StepRunsMicroOperation : Prop :=
  ∀ (s : State) (i : Instr) (rest : List HostMove),
    s.seq.phase = .run → decodeUop s.seq.uop s.operands = .ok i →
    (attemptLive i = true → s.invariantsHold = true) →
    (s.host = [] → step s = exec i s) ∧
    (s.hostMakes .pause rest → step s = exec i { s with host := rest }) ∧
    (s.hostMakes .waitDone rest → s.status.done = false → step s = exec i s) ∧
    (s.hostMakes .waitIrq rest → irq s = false → step s = exec i s)

/-- While the sequencer is IDLE the engine's turn changes nothing, in every form of it (60_exceptions.md R203; log 5, log 23, log 24). -/
def Obligations.IdleEngineChangesNothing : Prop :=
  ∀ (s : State) (rest : List HostMove), s.seq.phase = .idle →
    (s.host = [] → step s = .next s) ∧
    (s.hostMakes .pause rest → step s = .next { s with host := rest }) ∧
    (s.hostMakes .waitDone rest → s.status.done = false → step s = .next s) ∧
    (s.hostMakes .waitIrq rest → irq s = false → step s = .next s)

/-! ## Reset (70_reset_and_hazards.md) -/

/-- After power-on, and after the reset input at any time, the engine is idle and the registers hold R205's values; a
command that was running is abandoned with DONE = 0 and IRQ low (R205, R207). -/
def Obligations.ResetValues : Prop :=
  (∀ t : State, (t = State.reset ∨ ∃ (s : State) (rest : List HostMove),
      s.hostMakes .reset rest ∧ step s = .next t) →
    t.seq.phase = .idle ∧ statusWord t.status = 0 ∧ t.ie = false ∧ t.inLen = 0 ∧ t.outMax = 0 ∧
      t.outLen = 0 ∧ t.resultHdr = 0 ∧ (∀ h, t.attempt h = 0xFFFFFFFF) ∧ irq t = false ∧
      t.bestLen = .inf ∧ t.bestHdr = 0 ∧ t.faulted = false) ∧
  ∀ (s : State) (rest : List HostMove), s.hostMakes .reset rest →
    ∃ t, step s = .next t ∧ t.cfg = s.cfg ∧ t.host = rest

/-! ## Commands (46_orchestrator.md, 60_exceptions.md) -/

/-- COMPRESS and ENCODE h written while idle with a legal IN_LEN are accepted: STATUS, ATTEMPT_LEN, the snapshots and the
sequencer as R165 says, the search at its first header (R165, R166, R167).
The model's choice, not the spec's: SEQ.idx is 0 at ORC_BEGIN, which is in no loop (log 28). -/
def Obligations.CommandsAreAccepted : Prop :=
  ∀ s : State, s.status.busy = false → s.inLen ≤ s.cfg.inCap →
    ∀ (i : Instr) (kind : CmdKind) (h : BitVec 4),
      (i = .compress ∧ kind = .compress ∧ h = 0) ∨ (i = .encode h ∧ kind = .encode) →
      ∃ t, exec i s = .next t ∧
        t.status = { busy := true, done := false, err := false, ovr := s.status.ovr, errcode := 0 } ∧
        (∀ j, t.attempt j = 0xFFFFFFFF) ∧
        t.lenSnap = s.inLen ∧ t.outLimit.toNat = min s.outMax.toNat s.cfg.outCap.toNat ∧
        t.seq = { phase := .run, kind := kind, hcur := h, uop := 0x60, idx := 0 } ∧
        t.bestLen = .inf ∧ t.bestHdr = 0 ∧ t.faulted = false ∧
        t = { s with
          status := t.status, attemptLen := t.attemptLen, lenSnap := t.lenSnap
          outLimit := t.outLimit, seq := t.seq, bestLen := t.bestLen, bestHdr := t.bestHdr
          faulted := t.faulted }

/-- With IN_LEN above P_IN_CAP, COMPRESS and ENCODE end at once with BUFFER_TOO_SMALL_IN: the command-level error entry, no
attempt, every ATTEMPT_LEN 0xFFFFFFFF (60_exceptions.md R187, R193). -/
def Obligations.OversizedInputFails : Prop :=
  ∀ s : State, s.status.busy = false → s.cfg.inCap < s.inLen →
    ∀ i : Instr, (i = .compress ∨ ∃ h, i = .encode h) →
      ∃ t, exec i s = .next t ∧
        t.status = { busy := false, done := true, err := true, ovr := s.status.ovr, errcode := 2 } ∧
        t.outLen = 0 ∧ t.resultHdr = 0 ∧ (∀ j, t.attempt j = 0xFFFFFFFF) ∧ t.seq.phase = .idle ∧
        t = { s with
          status := t.status, outLen := 0, resultHdr := 0, attemptLen := t.attemptLen
          lenSnap := t.lenSnap, outLimit := t.outLimit, seq := t.seq }

/-- CLEAR while idle zeroes DONE, ERR, ERRCODE and OVR and changes nothing else (R172). -/
def Obligations.ClearAcknowledges : Prop :=
  ∀ s : State, s.status.busy = false →
    exec .clear s = .next { s with
      status := { busy := false, done := false, err := false, ovr := false, errcode := 0 } }

/-- Any word written to CMD while BUSY = 1, and any write to IN_LEN or OUT_MAX, has no effect but OVR (R173, R174). -/
def Obligations.BusyWritesOnlyOverrun : Prop :=
  ∀ (s : State) (off : Nat) (w : BitVec 32) (rest : List HostMove),
    s.status.busy = true → (off = 0x00 ∨ off = 0x08 ∨ off = 0x0C) →
    s.hostMakes (.regWrite .w32 off w) rest →
    step s = .next { s with host := rest, status := { s.status with ovr := true } }

/-- OVR is sticky: only CLEAR and the device reset clear it (60_exceptions.md R204). -/
def Obligations.OverrunIsSticky : Prop :=
  ∀ s t : State, step s = .next t → s.status.ovr = true →
    t.status.ovr = true ∨ (∃ rest, s.hostMakes .reset rest) ∨
      ∃ rest, s.hostMakes (.regWrite .w32 0 0x00000030) rest ∧ s.status.busy = false

/-- No command cancels a running command: BUSY falls only by ORC_DONE, which sets DONE, or by the device reset
(R173, R199). -/
def Obligations.OnlyCompletionOrResetEndsACommand : Prop :=
  ∀ s t : State, step s = .next t → s.status.busy = true → t.status.busy = false →
    (∃ rest, s.hostMakes .reset rest) ∨
      (s.seq.phase = .run ∧ s.seq.uop = 0x62 ∧ t.status.done = true ∧ t.seq.phase = .idle)

/-! ## The host port (10_state.md R22 to R31, 20_memory.md R61, R63, R74, R75) -/

/-- Register writes: IN_LEN and OUT_MAX while idle, IRQ_EN bit 0 at any time; read-only and reserved offsets ignore
them (46_orchestrator.md R174). -/
def Obligations.RegisterWrites : Prop :=
  ∀ (s : State) (off : Nat) (v : BitVec 32) (rest : List HostMove),
    s.hostMakes (.regWrite .w32 off v) rest → off % 4 = 0 →
    (off = 0x08 → s.status.busy = false → step s = .next { s with host := rest, inLen := v }) ∧
    (off = 0x0C → s.status.busy = false → step s = .next { s with host := rest, outMax := v }) ∧
    (off = 0x18 → step s = .next { s with host := rest, ie := v.getLsbD 0 }) ∧
    ((off = 0x04 ∨ 0x10 ≤ off ∧ off ≤ 0x14 ∨ 0x1C ≤ off) →
      step s = .next { s with host := rest }) ∧
    (off = 0x08 ∨ off = 0x0C → s.status.busy = true →
      step s = .next { s with host := rest, status := { s.status with ovr := true } })

/-- A register read returns the register's value and has no side effect: only the host's own log changes. CMD and the reserved
offsets read 0, CAPS reads P_IN_CAP (10_state.md R22 to R31, 20_memory.md R68). -/
def Obligations.RegisterReads : Prop :=
  ∀ (s : State) (off : Nat) (rest : List HostMove),
    s.hostMakes (.regRead .w32 off) rest → off % 4 = 0 →
    ∃ v : BitVec 32, step s = .next { s with host := rest, reads := .reg off v :: s.reads } ∧
      (off = 0x00 → v = 0) ∧
      (off = 0x04 → v.getLsbD 0 = s.status.busy ∧ v.getLsbD 1 = s.status.done ∧
        v.getLsbD 2 = s.status.err ∧ v.getLsbD 3 = s.status.ovr ∧
        v.extractLsb' 4 4 = s.status.errcode ∧ v.extractLsb' 8 24 = 0) ∧
      (off = 0x08 → v = s.inLen) ∧ (off = 0x0C → v = s.outMax) ∧ (off = 0x10 → v = s.outLen) ∧
      (off = 0x14 → v.extractLsb' 0 4 = s.resultHdr ∧ v.extractLsb' 4 28 = 0) ∧
      (off = 0x18 → v.getLsbD 0 = s.ie ∧ v.extractLsb' 1 31 = 0) ∧
      (off = 0x1C → v = s.cfg.inCap) ∧
      (∀ h : BitVec 4, off = 0x40 + 4 * h.toNat → v = s.attempt h) ∧
      ((0x20 ≤ off ∧ off ≤ 0x3C) ∨ 0x80 ≤ off → v = 0)

/-- A host access lands in its space or stops. A system address at or above a base stands for the offset from it, when the
platform keeps the spaces apart (20_memory.md R69). A REG access that is not an aligned 32-bit word is refused (R63, I19); so is an
access at an address of IN or OUT that is not a byte write to IN or a byte read of OUT (R60, R68; log 13); an address in no space is
none of the block's (log 22). -/
def Obligations.HostAccessesLandOrStop : Prop :=
  ∀ (s : State) (width : AccessWidth) (off : Nat) (v : BitVec 32) (rest : List HostMove),
    (width ≠ .w32 ∨ off % 4 ≠ 0 →
      (s.hostMakes (.regWrite width off v) rest ∨ s.hostMakes (.regRead width off) rest) →
      step s = .refused .regAccessShape) ∧
    (disjointSpaces s.cfg →
      (off < 0x80 → s.host = .busWrite width (s.cfg.regBase + off) v :: rest →
        s.hostMakes (.regWrite width off v) rest) ∧
      (off < 0x80 → s.host = .busRead width (s.cfg.regBase + off) :: rest →
        s.hostMakes (.regRead width off) rest) ∧
      (off < s.cfg.inCap.toNat → s.host = .busWrite .w8 (s.cfg.inBase + off) v :: rest →
        s.hostMakes (.inWrite off (v.extractLsb' 0 8)) rest) ∧
      (off < s.cfg.outCap.toNat → s.host = .busRead .w8 (s.cfg.outBase + off) :: rest →
        s.hostMakes (.outRead off) rest) ∧
      (off < s.cfg.inCap.toNat →
        (s.host = .busRead width (s.cfg.inBase + off) :: rest ∨
          width ≠ .w8 ∧ s.host = .busWrite width (s.cfg.inBase + off) v :: rest) →
        step s = .refused .byteAccessShape) ∧
      (off < s.cfg.outCap.toNat →
        (s.host = .busWrite width (s.cfg.outBase + off) v :: rest ∨
          width ≠ .w8 ∧ s.host = .busRead width (s.cfg.outBase + off) :: rest) →
        step s = .refused .byteAccessShape)) ∧
    ∀ addr : Nat, (addr < s.cfg.regBase ∨ s.cfg.regBase + 0x80 ≤ addr) →
      (addr < s.cfg.inBase ∨ s.cfg.inBase + s.cfg.inCap.toNat ≤ addr) →
      (addr < s.cfg.outBase ∨ s.cfg.outBase + s.cfg.outCap.toNat ≤ addr) →
      (s.host = .busWrite width addr v :: rest ∨ s.host = .busRead width addr :: rest) →
      step s = .fault (.noSuchAddress addr)

/-- A host write to IN while idle changes that one byte; while BUSY it has no move; outside IN there is no byte,
and it is refused (20_memory.md R60, R61, R74, I20). -/
def Obligations.InputWrites : Prop :=
  ∀ (s : State) (k : Nat) (v : BitVec 8) (rest : List HostMove), s.hostMakes (.inWrite k v) rest →
    (s.status.busy = true → step s = .refused .inWriteWhileBusy) ∧
    (s.status.busy = false → s.cfg.inCap.toNat ≤ k → step s = .refused (.inOutOfRange k)) ∧
    (s.status.busy = false → k < s.cfg.inCap.toNat → Memory.wf s.inMem →
      ∃ t, step s = .next t ∧ Memory.read t.inMem k = v ∧
        (∀ j, j ≠ k → Memory.read t.inMem j = Memory.read s.inMem j) ∧
        t = { s with host := rest, inMem := t.inMem })

/-- A host read of OUT while idle returns the byte and changes nothing but the host's log; while BUSY it returns some byte, of
which nothing is said (a free value, log 7), and changes nothing but the host's log and the count of such reads; outside OUT
there is no byte, and it is refused (20_memory.md R60, R75, I2, I20). -/
def Obligations.OutputReads : Prop :=
  ∀ (s : State) (k : Nat) (rest : List HostMove), s.hostMakes (.outRead k) rest →
    (s.cfg.outCap.toNat ≤ k → step s = .refused (.outOutOfRange k)) ∧
    (k < s.cfg.outCap.toNat → s.status.busy = false →
      step s = .next { s with host := rest, reads := .out k (Memory.read s.outMem k) :: s.reads }) ∧
    (k < s.cfg.outCap.toNat → s.status.busy = true →
      ∃ b, step s = .next { s with host := rest, reads := .out k b :: s.reads, draws := s.draws + 1 })

/-- IRQ follows DONE and IE: setting IE while DONE = 1 raises it at once, clearing IE lowers it without changing DONE, CLEAR and
the acceptance of a command, COMPRESS or ENCODE, lower it. A host that waits for it takes it as soon as it is raised, and a host in
WAIT_DONE goes on as soon as it reads DONE = 1: neither changes anything but the host's moves and its log (60_exceptions.md R196, R197,
46_orchestrator.md R180, 30_encoding.md R98; log 23). -/
def Obligations.InterruptFollowsDoneAndEnable : Prop :=
  (∀ (s : State) (v : BitVec 32) (rest : List HostMove), s.hostMakes (.regWrite .w32 0x18 v) rest →
    ∃ t, step s = .next t ∧ t.status = s.status ∧
      (irq t = true ↔ s.status.done = true ∧ v.getLsbD 0 = true) ∧
      (s.status.busy = false → ∃ u, exec .clear t = .next u ∧ irq u = false) ∧
      (s.status.busy = false → s.inLen ≤ s.cfg.inCap →
        ∀ i : Instr, (i = .compress ∨ ∃ h, i = .encode h) → ∃ u, exec i t = .next u ∧ irq u = false)) ∧
  ∀ (s : State) (rest : List HostMove), s.status.done = true →
    (s.hostMakes .waitIrq rest → s.ie = true →
      step s = .next { s with host := rest, reads := .irq :: s.reads }) ∧
    (s.hostMakes .waitDone rest →
      ∃ v : BitVec 32, step s = .next { s with host := rest, reads := .reg 0x04 v :: s.reads } ∧
        v.getLsbD 0 = s.status.busy ∧ v.getLsbD 1 = true ∧ v.getLsbD 2 = s.status.err ∧
        v.getLsbD 3 = s.status.ovr ∧ v.extractLsb' 4 4 = s.status.errcode ∧ v.extractLsb' 8 24 = 0)

/-! ## Bit-Plane Splitter (41_splitter.md) -/

/-- SPL_INIT clears every plane and its write count and loads SPLIT_SEL (R110); the splitter loop starts (R168).
The model's choice, not the spec's: SEQ.idx is 0 at CM_INIT when L = 0, which is in no loop (log 28). -/
def Obligations.SplInitClearsThePlanes : Prop :=
  ∀ s : State, ∃ t, exec .splInit s = .next t ∧
    (∀ p, (t.plane p).wpos = 0 ∧ (t.plane p).rpos = (s.plane p).rpos ∧
      ∀ pos, Memory.bitRead (t.plane p).mem pos = 0) ∧
    (s.hdr.extractLsb' 2 2 = 0 → t.splitSel = 1) ∧ (s.hdr.extractLsb' 2 2 = 1 → t.splitSel = 7) ∧
    (s.hdr.extractLsb' 2 2 = 2 → t.splitSel = 3) ∧ (s.hdr.extractLsb' 2 2 = 3 → t.splitSel = 0) ∧
    t.seq = { s.seq with
      uop := if s.lenSnap = 0 then 0x20 else if s.hdr.extractLsb' 2 2 = 3 then 0x12 else 0x11
      idx := 0 } ∧
    t = { s with planes := t.planes, splitSel := t.splitSel, seq := t.seq }

/-- SPL_BYTE k routes one whole byte, most significant bit first, to the plane NextSel names; no other plane and no
earlier bit changes (R111, R112). -/
def Obligations.SplByteRoutesOneByte : Prop :=
  ∀ (s : State) (k : BitVec 32),
    let pm := s.hdr.extractLsb' 2 2
    let s1 := s.splitSel ^^^ 1
    let p : BitVec 3 :=
      if k.toNat % 16 = 0 then (if pm = 1 then s1 + 2 else if pm = 2 then s1 ^^^ 2 else s1) else s1
    k < s.cfg.inCap → Memory.wf (s.plane p).mem → 8 * s.cfg.planeCap < 2 ^ 32 →
    (s.plane p).wpos.toNat + 8 ≤ 8 * s.cfg.planeCap →
    ∃ t, exec (.splByte k) s = .next t ∧ t.splitSel = p ∧
      (t.plane p).wpos.toNat = (s.plane p).wpos.toNat + 8 ∧ (t.plane p).rpos = (s.plane p).rpos ∧
      (∀ i, i < 8 → Memory.bitRead (t.plane p).mem ((s.plane p).wpos.toNat + i) =
        (Memory.read s.inMem k.toNat).extractLsb' (7 - i) 1) ∧
      (∀ pos, pos < (s.plane p).wpos.toNat ∨ (s.plane p).wpos.toNat + 8 ≤ pos →
        Memory.bitRead (t.plane p).mem pos = Memory.bitRead (s.plane p).mem pos) ∧
      (∀ q, q ≠ p → t.plane q = s.plane q) ∧
      t = { s with planes := t.planes, splitSel := t.splitSel, seq := t.seq }

/-- SPL_BITS k appends bit p of the byte to plane p, for every plane (R113). -/
def Obligations.SplBitsSpreadsOneByte : Prop :=
  ∀ (s : State) (k : BitVec 32),
    k < s.cfg.inCap → 8 * s.cfg.planeCap < 2 ^ 32 →
    (∀ p, Memory.wf (s.plane p).mem ∧ (s.plane p).wpos.toNat + 1 ≤ 8 * s.cfg.planeCap) →
    ∃ t, exec (.splBits k) s = .next t ∧
      (∀ p : BitVec 3, (t.plane p).wpos.toNat = (s.plane p).wpos.toNat + 1 ∧
        (t.plane p).rpos = (s.plane p).rpos ∧
        ∀ pos, Memory.bitRead (t.plane p).mem pos =
          if pos = (s.plane p).wpos.toNat then (Memory.read s.inMem k.toNat).extractLsb' p.toNat 1
          else Memory.bitRead (s.plane p).mem pos) ∧
      t = { s with planes := t.planes, seq := t.seq }

/-- The splitter loop: after SPL_BYTE or SPL_BITS of byte k comes byte k + 1 while it is below L, then CM_INIT
(R116, 46_orchestrator.md R168). A byte IN does not have, or a plane with no room, is INTERNAL_FAULT (60_exceptions.md R190;
log 20, log 21).
The model's choice, not the spec's: SEQ.idx is 0 at CM_INIT and ORC_SELECT, which are in no loop (log 28). -/
def Obligations.SplitterLoopAndItsFault : Prop :=
  ∀ (s : State) (k : BitVec 32) (i : Instr), (i = .splByte k ∨ i = .splBits k) →
    ∃ t, exec i s = .next t ∧
      ((t.seq = { s.seq with
            uop := if k + 1 < s.lenSnap then (if s.hdr.extractLsb' 2 2 = 3 then 0x12 else 0x11) else 0x20
            idx := if k + 1 < s.lenSnap then k + 1 else 0 } ∧ t.faulted = s.faulted ∧ t.alen = s.alen) ∨
        t = { s with
          faulted := true, alen := .inf, seq := { s.seq with uop := 0x61, idx := 0 } }) ∧
      (s.cfg.inCap ≤ k → t = { s with
          faulted := true, alen := .inf, seq := { s.seq with uop := 0x61, idx := 0 } })

/-- The plane of input byte k has R114's closed form, for every planeMode below 3. -/
def Obligations.SplitterFollowsPlaneOfByte : Prop :=
  ∀ (pm : BitVec 2) (k : Nat), pm ≠ 3 → (splitSelAfter pm (k + 1)).toNat = planeOfByte pm k

/-! ## Context Modeler (42_context_modeler.md) -/

/-- CM_INIT loads MODEL_SEL and zeroes NBIT, every HIST and every PLANE_RPOS (R120).
The model's choice, not the spec's: SEQ.idx is 0 at PEM_INIT, which is in no loop (log 28). -/
def Obligations.CmInitResetsTheModeler : Prop :=
  ∀ s : State, ∃ t, exec .cmInit s = .next t ∧
    (s.hdr.extractLsb' 2 2 = 0 → t.modelSel = 1) ∧ (s.hdr.extractLsb' 2 2 = 1 → t.modelSel = 7) ∧
    (s.hdr.extractLsb' 2 2 = 2 → t.modelSel = 3) ∧ (s.hdr.extractLsb' 2 2 = 3 → t.modelSel = 0) ∧
    t.nbit = 0 ∧ (∀ p, t.history p = 0 ∧ t.plane p = { s.plane p with rpos := 0 }) ∧
    t.seq = { s.seq with uop := 0x30, idx := 0 } ∧
    t = { s with
      modelSel := t.modelSel, nbit := t.nbit, hist := t.hist, planes := t.planes, seq := t.seq }

/-- The context index bit by bit: the plane's parity above the history bits each context mode selects (30_encoding.md R86, R87). -/
def Obligations.ContextIndexBits : Prop :=
  ∀ (p : BitVec 3) (cm : BitVec 2) (h : BitVec 16),
    (contextOf p cm h).getLsbD 4 = p.getLsbD 0 ∧ (contextOf p cm h).getLsbD 0 = h.getLsbD 0 ∧
    (cm = 0 → (contextOf p cm h).getLsbD 3 = h.getLsbD 8 ∧ (contextOf p cm h).getLsbD 2 = h.getLsbD 7 ∧
      (contextOf p cm h).getLsbD 1 = h.getLsbD 6) ∧
    (cm = 1 → (contextOf p cm h).getLsbD 3 = h.getLsbD 8 ∧ (contextOf p cm h).getLsbD 2 = h.getLsbD 7 ∧
      (contextOf p cm h).getLsbD 1 = false) ∧
    (cm = 2 → (contextOf p cm h).getLsbD 3 = false ∧ (contextOf p cm h).getLsbD 2 = h.getLsbD 7 ∧
      (contextOf p cm h).getLsbD 1 = h.getLsbD 6) ∧
    (cm = 3 → (contextOf p cm h).getLsbD 3 = h.getLsbD 8 ∧ (contextOf p cm h).getLsbD 2 = h.getLsbD 7 ∧
      (contextOf p cm h).getLsbD 1 = h.getLsbD 1)

/-- CM_BIT n: the plane of R121, the context before the history update, the next unread bit of the plane or, when it is
exhausted, the predicted bit, and the history shifted (R121, R123 to R127); PEM_STEP follows (46_orchestrator.md R168). -/
def Obligations.CmBitReplaysOneBit : Prop :=
  ∀ (s : State) (n : BitVec 32),
    let pm := s.hdr.extractLsb' 2 2
    let s1 := s.modelSel ^^^ 1
    let p : BitVec 3 :=
      if pm = 3 then n.extractLsb' 0 3
      else if n.toNat % 128 = 0 then (if pm = 1 then s1 + 2 else if pm = 2 then s1 ^^^ 2 else s1)
      else s1
    let ctx := contextOf p (s.hdr.extractLsb' 0 2) (s.history p)
    ∃ t bit, exec (.cmBit n) s = .next t ∧
      ((s.plane p).rpos < (s.plane p).wpos →
        bit = Memory.bitRead (s.plane p).mem (s.plane p).rpos.toNat ∧
        t.plane p = { s.plane p with rpos := (s.plane p).rpos + 1 } ∧
        t.wires = { s.wires with bit := bit, ctx := ctx, pad := 0 }) ∧
      ((s.plane p).wpos ≤ (s.plane p).rpos →
        bit = (s.slot ctx).mps ∧ t.plane p = s.plane p ∧
        t.wires = { s.wires with bit := bit, ctx := ctx, pad := 1 }) ∧
      (∀ q, q ≠ p → t.plane q = s.plane q ∧ t.history q = s.history q) ∧
      t.history p = (s.history p <<< 1) ||| bit.setWidth 16 ∧
      t.modelSel = (if pm = 3 then s.modelSel else p) ∧ t.nbit = n + 1 ∧
      t.seq = { s.seq with uop := 0x32, idx := n } ∧
      t = { s with
        planes := t.planes, hist := t.hist, modelSel := t.modelSel, nbit := t.nbit
        wires := t.wires, seq := t.seq }

/-- The modeler's plane sequence agrees with the splitter's, and takes n & 7 in planeMode 3 (R122, R121). -/
def Obligations.ModelerFollowsSplitter : Prop :=
  ∀ (pm : BitVec 2) (n : Nat),
    (pm ≠ 3 → (modelPlane pm n).toNat = planeOfByte pm (2 * (n / 16) + n % 2)) ∧
    (pm = 3 → (modelPlane pm n).toNat = n % 8)

/-- Consecutive bits never share a context slot, whatever the histories (70_reset_and_hazards.md R213). -/
def Obligations.ConsecutiveBitsDifferInContext : Prop :=
  ∀ (pm cm : BitVec 2) (n : Nat) (h h' : BitVec 16),
    contextOf (modelPlane pm n) cm h ≠ contextOf (modelPlane pm (n + 1)) cm h'

/-- A padding bit is always a match: after CM_BIT at an exhausted plane, PEM_STEP on the bit and context it returned has symbol
0, unless it faults (43_probability_estimator.md R141). -/
def Obligations.PaddingBitIsAMatch : Prop :=
  ∀ (s t u : State) (n : BitVec 32),
    exec (.cmBit n) s = .next t → t.wires.pad = 1 →
    exec (.pemStep t.wires.bit t.wires.ctx) t = .next u →
    u.wires.sym = 0 ∨ (u.faulted = true ∧ u.seq.uop = 0x61)

/-! ## Probability Estimator (43_probability_estimator.md) -/

/-- PEM_INIT sets every slot to state 0, MPS 0 (R136).
The model's choice, not the spec's: SEQ.idx is 0 at GCE_INIT, which is in no loop (log 28). -/
def Obligations.PemInitResetsTheSlots : Prop :=
  ∀ s : State, ∃ t, exec .pemInit s = .next t ∧ (∀ x, t.slot x = { state := 0, mps := 0 }) ∧
    t.seq = { s.seq with uop := 0x40, idx := 0 } ∧ t = { s with slots := t.slots, seq := t.seq }

/-- PEM_PREDICT returns the slot's MPS and writes no state: only the wire it returns on changes (R137; log 8). -/
def Obligations.PemPredictReturnsTheMps : Prop :=
  ∀ (s : State) (ctx : BitVec 5),
    exec (.pemPredict ctx) s = .next { s with wires := { s.wires with bit := (s.slot ctx).mps } }

/-- PEM_STEP: the symbol goes through GCE_PUTBIT of the slot's run class; when that ends the run, the slot takes the row's next
state, and the MPS flips on a mismatch in state 0 or 1; when it does not, no slot changes. A slot state above 32 is INTERNAL_FAULT:
FAULTED set, ALEN INF, on at ORC_SELECT, nothing else changed (R138, R139, R140, 60_exceptions.md R190).
The model's choice, not the spec's: SEQ.idx is 0 at GCE_FINISH and ORC_SELECT, which are in no loop (log 28). -/
def Obligations.PemStepUpdatesTheSlot : Prop :=
  ∀ (s : State) (bit : BitVec 1) (ctx : BitVec 5),
    (32 < (s.slot ctx).state.toNat → exec (.pemStep bit ctx) s = .next { s with
      faulted := true, alen := .inf, seq := { s.seq with uop := 0x61, idx := 0 } }) ∧
    ∀ h : (s.slot ctx).state.toNat < 33,
      let row := s.cfg.st[(s.slot ctx).state.toNat]
      let sym := bit ^^^ (s.slot ctx).mps
      let w := (s.chan row.runClass).wpos.toNat
      (s.count row.runClass = 0 → s.tags.length < s.cfg.tagCap) →
      (sym = 1 → w + (row.runClass.toNat + 1) ≤ s.cfg.chanCap) →
      ((s.count row.runClass).toNat + 1 = 2 ^ row.runClass.toNat → w + 1 ≤ s.cfg.chanCap) →
      ∃ t u, exec (.gcePutbit row.runClass sym) s = .next u ∧ exec (.pemStep bit ctx) s = .next t ∧
        t.wires = { u.wires with cls := row.runClass, sym := sym } ∧
        t.slot ctx =
          (if u.wires.eor = 0 then s.slot ctx
           else if sym = 0 then { state := row.nextIfMatch, mps := (s.slot ctx).mps }
           else
             { state := row.nextIfMismatch
               mps := if (s.slot ctx).state.toNat ≤ 1 then (s.slot ctx).mps ^^^ 1 else (s.slot ctx).mps }) ∧
        (∀ x, x ≠ ctx → t.slot x = s.slot x) ∧
        t.seq = { s.seq with
          uop := if s.seq.idx + 1 < s.nb then 0x21 else 0x42
          idx := if s.seq.idx + 1 < s.nb then s.seq.idx + 1 else 0 } ∧
        t = { u with slots := t.slots, wires := t.wires, seq := t.seq }

/-! ## Run-Length (Golomb) Encoder (44_golomb_encoder.md) -/

/-- GCE_INIT zeroes every counter, empties every channel and the tag sequence (R145).
The model's choice, not the spec's: SEQ.idx is 0 at GCE_FINISH when NB = 0, which is in no loop (log 28). -/
def Obligations.GceInitEmptiesTheChannels : Prop :=
  ∀ s : State, ∃ t, exec .gceInit s = .next t ∧
    (∀ c, t.count c = 0 ∧ (t.chan c).wpos = 0 ∧ (t.chan c).rpos = 0 ∧
      ∀ pos, Memory.bitRead (t.chan c).mem pos = 0) ∧
    t.tags = [] ∧
    t.seq = { s.seq with uop := if s.nb = 0 then 0x42 else 0x21, idx := 0 } ∧
    t = { s with runcnt := t.runcnt, chans := t.chans, tags := t.tags, seq := t.seq }

/-- GCE_PUTBIT: a tag when the counter is 0; on a mismatch the codeword `1` and the complemented digits of the count, least
significant first; on a match the count goes up, and at 2^c the codeword `0` is emitted and the count restarts; `eor` is 1 exactly
when a codeword was emitted (R148). -/
def Obligations.GcePutbitFeedsOneSymbol : Prop :=
  ∀ (s : State) (c : BitVec 3) (sym : BitVec 1),
    Memory.wf (s.chan c).mem → (s.count c = 0 → s.tags.length < s.cfg.tagCap) →
    (sym = 1 → (s.chan c).wpos.toNat + (c.toNat + 1) ≤ s.cfg.chanCap) →
    ((s.count c).toNat + 1 = 2 ^ c.toNat → (s.chan c).wpos.toNat + 1 ≤ s.cfg.chanCap) →
    s.cfg.chanCap < 2 ^ 32 → (s.count c).toNat < 2 ^ c.toNat →
    ∃ t, exec (.gcePutbit c sym) s = .next t ∧
      t.tags = (if s.count c = 0 then s.tags ++ [c] else s.tags) ∧
      (let w := (s.chan c).wpos.toNat
       (sym = 1 → t.wires.eor = 1 ∧ t.count c = 0 ∧ (t.chan c).wpos.toNat = w + (c.toNat + 1) ∧
          Memory.bitRead (t.chan c).mem w = 1 ∧
          (∀ i, i < c.toNat → Memory.bitRead (t.chan c).mem (w + 1 + i) =
            (if (s.count c).getLsbD i then 0 else 1)) ∧
          ∀ pos, pos < w ∨ w + (c.toNat + 1) ≤ pos →
            Memory.bitRead (t.chan c).mem pos = Memory.bitRead (s.chan c).mem pos) ∧
       (sym = 0 → (s.count c).toNat + 1 = 2 ^ c.toNat →
          t.wires.eor = 1 ∧ t.count c = 0 ∧ (t.chan c).wpos.toNat = w + 1 ∧
          Memory.bitRead (t.chan c).mem w = 0 ∧
          ∀ pos, pos ≠ w → Memory.bitRead (t.chan c).mem pos = Memory.bitRead (s.chan c).mem pos) ∧
       (sym = 0 → (s.count c).toNat + 1 < 2 ^ c.toNat →
          t.wires.eor = 0 ∧ (t.count c).toNat = (s.count c).toNat + 1 ∧ t.chan c = s.chan c)) ∧
      (t.chan c).rpos = (s.chan c).rpos ∧
      (∀ d, d ≠ c → t.chan d = s.chan d ∧ t.count d = s.count d) ∧
      t.wires = { s.wires with eor := t.wires.eor } ∧
      t = { s with chans := t.chans, runcnt := t.runcnt, tags := t.tags, wires := t.wires }

/-- A buffer with no room for what a micro-operation adds (a tag or a codeword, of GCE_PUTBIT alone or inside PEM_STEP; a flush bit; a
byte of the plane NextSel names; a bit of a plane; a bit of the output), a tag index past the last tag, or a tagged channel with no bit left, is INTERNAL_FAULT, and nothing else changes
(60_exceptions.md R190; log 20, log 21).
The model's choice, not the spec's: SEQ.idx is 0 at ORC_SELECT, which is in no loop (log 28). -/
def Obligations.OverflowIsInternalFault : Prop :=
  ∀ (s : State) (i : Instr),
    (∃ c sym, (i = .gcePutbit c sym ∨
        ∃ bit ctx, ∃ h : (s.slot ctx).state.toNat < 33, i = .pemStep bit ctx ∧
          c = s.cfg.st[(s.slot ctx).state.toNat].runClass ∧ sym = bit ^^^ (s.slot ctx).mps) ∧
      (s.count c = 0 ∧ s.cfg.tagCap ≤ s.tags.length ∨
        sym = 1 ∧ s.cfg.chanCap < (s.chan c).wpos.toNat + (c.toNat + 1) ∨
        (s.count c).toNat + 1 = 2 ^ c.toNat ∧ s.cfg.chanCap < (s.chan c).wpos.toNat + 1)) ∨
    (i = .gceFinish ∧ ∃ c, s.count c ≠ 0 ∧ s.cfg.chanCap < (s.chan c).wpos.toNat + 1) ∨
    (∃ k, i = .splByte k ∧ 8 * s.cfg.planeCap <
      (s.plane (nextSel (s.hdr.extractLsb' 2 2) s.splitSel k)).wpos.toNat + 8) ∨
    (∃ k p, i = .splBits k ∧ 8 * s.cfg.planeCap < (s.plane p).wpos.toNat + 1) ∨
    (∃ c, i = .ilMovebit c ∧ s.cfg.outCap.toNat < s.opos.toNat / 8) ∨
    (∃ t, i = .ilTag t ∧ (s.tags.length ≤ t.toNat ∨ s.cfg.outCap.toNat < s.opos.toNat / 8 ∨
      ∃ c, s.tags[t.toNat]? = some c ∧ (s.chan c).wpos ≤ (s.chan c).rpos)) →
    exec i s = .next { s with
      faulted := true, alen := .inf, seq := { s.seq with uop := 0x61, idx := 0 } }

/-- The count a mismatch codeword carries: complementing its digits and reading them least significant first gives the matches
before the mismatch (R150). -/
def Obligations.MismatchCodewordCarriesTheCount : Prop :=
  ∀ (c : BitVec 3) (k : BitVec 8), k.toNat < 2 ^ c.toNat →
    ∃ m : List (BitVec 1), emitted c 1 k = 1 :: m ∧ m.length = c.toNat ∧
      k.toNat = ((List.range c.toNat).map fun i => (1 - (m.getD i 0).toNat) * 2 ^ i).sum

/-- GCE_FINISH appends one 0 bit to every channel with a pending run, zeroes every counter and records no tag (R151).
The model's choice, not the spec's: SEQ.idx is 0 at IL_INIT, which is in no loop (log 28). -/
def Obligations.GceFinishFlushesPartialRuns : Prop :=
  ∀ s : State, s.cfg.chanCap < 2 ^ 32 →
    (∀ c, s.count c ≠ 0 → Memory.wf (s.chan c).mem ∧ (s.chan c).wpos.toNat + 1 ≤ s.cfg.chanCap) →
    ∃ t, exec .gceFinish s = .next t ∧
      (∀ c, t.count c = 0 ∧ (t.chan c).rpos = (s.chan c).rpos ∧
        (s.count c = 0 → t.chan c = s.chan c) ∧
        (s.count c ≠ 0 → (t.chan c).wpos.toNat = (s.chan c).wpos.toNat + 1 ∧
          ∀ pos, Memory.bitRead (t.chan c).mem pos =
            if pos = (s.chan c).wpos.toNat then 0 else Memory.bitRead (s.chan c).mem pos)) ∧
      t.seq = { s.seq with uop := 0x50, idx := 0 } ∧
      t = { s with chans := t.chans, runcnt := t.runcnt, seq := t.seq }

/-! ## Interleaver (45_interleaver.md) -/

/-- IL_INIT: the output holds the header in the top nibble of its first byte and zeros, OPOS is 4, every channel's read cursor
is 0 (R155); the tag loop starts. -/
def Obligations.IlInitWritesTheHeader : Prop :=
  ∀ s : State, ∃ t, exec .ilInit s = .next t ∧
    (Memory.read t.att 0).extractLsb' 4 4 = s.hdr ∧ (Memory.read t.att 0).extractLsb' 0 4 = 0 ∧
    (∀ k, k ≠ 0 → Memory.read t.att k = 0) ∧ t.opos = 4 ∧
    (∀ c, t.chan c = { s.chan c with rpos := 0 }) ∧
    t = { s with att := t.att, opos := t.opos, chans := t.chans, alen := t.alen, seq := t.seq }

/-- IL_MOVEBIT c moves exactly the next bit of the channel to the output position and returns it, both cursors one on; with no bit
left it is INTERNAL_FAULT (R156).
The model's choice, not the spec's: SEQ.idx is 0 at ORC_SELECT, which is in no loop (log 28). -/
def Obligations.IlMovebitMovesOneBit : Prop :=
  ∀ (s : State) (c : BitVec 3), Memory.wf s.att → s.opos.toNat / 8 ≤ s.cfg.outCap.toNat →
    ((s.chan c).rpos < (s.chan c).wpos →
      ∃ t, exec (.ilMovebit c) s = .next t ∧
        t.wires = { s.wires with bit := Memory.bitRead (s.chan c).mem (s.chan c).rpos.toNat } ∧
        (∀ pos, Memory.bitRead t.att pos =
          if pos = s.opos.toNat then Memory.bitRead (s.chan c).mem (s.chan c).rpos.toNat
          else Memory.bitRead s.att pos) ∧
        t.opos = s.opos + 1 ∧ t.chan c = { s.chan c with rpos := (s.chan c).rpos + 1 } ∧
        (∀ d, d ≠ c → t.chan d = s.chan d) ∧
        t = { s with att := t.att, opos := t.opos, chans := t.chans, wires := t.wires }) ∧
    ((s.chan c).wpos ≤ (s.chan c).rpos →
      exec (.ilMovebit c) s = .next { s with
        faulted := true, alen := .inf, seq := { s.seq with uop := 0x61, idx := 0 } })

/-- IL_TAG t moves one whole codeword of the tag's channel: 1 bit when its first bit is 0, c + 1 bits when it is 1; the bits stand in
order at the output position and no other output bit changes (R157). -/
def Obligations.IlTagMovesOneCodeword : Prop :=
  ∀ (s : State) (t : BitVec 32) (c : BitVec 3),
    let r := (s.chan c).rpos.toNat
    let n := if Memory.bitRead (s.chan c).mem r = 1 then c.toNat + 1 else 1
    s.tags[t.toNat]? = some c → Memory.wf s.att →
    r + n ≤ (s.chan c).wpos.toNat → (s.opos.toNat + n - 1) / 8 ≤ s.cfg.outCap.toNat →
    s.opos.toNat + n < 2 ^ 32 →
    ∃ u, exec (.ilTag t) s = .next u ∧
      (u.chan c).rpos.toNat = r + n ∧ (u.chan c).mem = (s.chan c).mem ∧
      (u.chan c).wpos = (s.chan c).wpos ∧ u.opos.toNat = s.opos.toNat + n ∧
      (∀ i, i < n → Memory.bitRead u.att (s.opos.toNat + i) = Memory.bitRead (s.chan c).mem (r + i)) ∧
      (∀ pos, pos < s.opos.toNat ∨ s.opos.toNat + n ≤ pos →
        Memory.bitRead u.att pos = Memory.bitRead s.att pos) ∧
      (∀ d, d ≠ c → u.chan d = s.chan d) ∧
      u = { s with att := u.att, opos := u.opos, chans := u.chans, alen := u.alen, seq := u.seq }

/-- The tag loop after IL_INIT and after IL_TAG: IL_LEN when no tag is left; the next IL_TAG while the output so far is within
OUT_LIMIT; else the attempt stops early with ALEN INF, as R159 permits. An IL_TAG that lacks a bit is INTERNAL_FAULT instead
(R159, 46_orchestrator.md R168; log 11).
The model's choice, not the spec's: SEQ.idx is 0 at IL_LEN and ORC_SELECT, which are in no loop (log 28). -/
def Obligations.TagLoopAndEarlyStop : Prop :=
  ∀ (s t : State) (i : Instr) (next : BitVec 32),
    (i = .ilInit ∧ next = 0) ∨ (∃ k, i = .ilTag k ∧ next = k + 1) →
    exec i s = .next t →
    ((t.tags.length ≤ next.toNat → t.seq = { s.seq with uop := 0x53, idx := 0 } ∧ t.alen = s.alen) ∧
      (next.toNat < t.tags.length → (t.opos.toNat + 7) / 8 ≤ t.outLimit.toNat →
        t.seq = { s.seq with uop := 0x51, idx := next } ∧ t.alen = s.alen) ∧
      (next.toNat < t.tags.length → t.outLimit.toNat < (t.opos.toNat + 7) / 8 →
        t.seq = { s.seq with uop := 0x61, idx := 0 } ∧ t.alen = .inf) ∧ t.faulted = s.faulted) ∨
    (i ≠ .ilInit ∧ t.faulted = true ∧ t.alen = .inf ∧ t.seq = { s.seq with uop := 0x61, idx := 0 })

/-- IL_LEN: ALEN is ceil(OPOS / 8) bytes, or INF when that exceeds OUT_LIMIT (R158, R159).
The model's choice, not the spec's: SEQ.idx is 0 at ORC_SELECT, which is in no loop (log 28). -/
def Obligations.IlLenComputesTheLength : Prop :=
  ∀ s : State, ∃ t, exec .ilLen s = .next t ∧
    ((s.opos.toNat + 7) / 8 ≤ s.outLimit.toNat →
      t.alen = .bytes (BitVec.ofNat 32 ((s.opos.toNat + 7) / 8))) ∧
    (s.outLimit.toNat < (s.opos.toNat + 7) / 8 → t.alen = .inf) ∧
    t.seq = { s.seq with uop := 0x61, idx := 0 } ∧ t = { s with alen := t.alen, seq := t.seq }

/-! ## Orchestrator (46_orchestrator.md) -/

/-- ORC_BEGIN h loads HDR and SEQ.hcur (R169).
The model's choice, not the spec's: SEQ.idx is 0 at SPL_INIT, which is in no loop (log 28). -/
def Obligations.OrcBeginLoadsTheHeader : Prop :=
  ∀ (s : State) (h : BitVec 4), exec (.orcBegin h) s = .next { s with
    hdr := h, seq := { s.seq with hcur := h, uop := 0x10, idx := 0 } }

/-- ORC_SELECT writes ATTEMPT_LEN[HDR] and keeps the attempt when it is the command's first or strictly shorter than the best;
then COMPRESS goes on with the next header, and the last attempt is followed by ORC_DONE (R170, R166, R167; log 14). An attempt to
keep that BEST has no room for is INTERNAL_FAULT (60_exceptions.md R190; log 21).
The model's choice, not the spec's: SEQ.idx is 0 at ORC_BEGIN, ORC_DONE and ORC_SELECT, which are in no loop (log 28). -/
def Obligations.OrcSelectKeepsTheShorter : Prop :=
  ∀ s : State, Memory.wf s.best →
    let first := s.seq.kind = .encode ∨ s.seq.hcur = 0
    let shorter := ∃ n, s.alen = .bytes n ∧ (s.bestLen = .inf ∨ ∃ m, s.bestLen = .bytes m ∧ n < m)
    ((first ∨ shorter) → (∃ n, s.alen = .bytes n ∧ s.cfg.outCap < n) →
      exec .orcSelect s = .next { s with
        faulted := true, alen := .inf, seq := { s.seq with uop := 0x61, idx := 0 } }) ∧
    (¬ (first ∨ shorter) ∨ (∀ n, s.alen = .bytes n → n ≤ s.cfg.outCap) →
    ∃ t, exec .orcSelect s = .next t ∧
      (s.alen = .inf → t.attempt s.hdr = 0xFFFFFFFF) ∧
      (∀ n, s.alen = .bytes n → t.attempt s.hdr = n) ∧
      (∀ h, h ≠ s.hdr → t.attempt h = s.attempt h) ∧
      (first ∨ shorter → t.bestLen = s.alen ∧ t.bestHdr = s.hdr ∧
        ∀ n, s.alen = .bytes n → ∀ k, Memory.read t.best k =
          if k < n.toNat then Memory.read s.att k else Memory.read s.best k) ∧
      (first ∨ shorter → s.alen = .inf → t.best = s.best) ∧
      (¬ (first ∨ shorter) → t.bestLen = s.bestLen ∧ t.bestHdr = s.bestHdr ∧ t.best = s.best) ∧
      (s.seq.kind = .compress ∧ s.seq.hcur ≠ 15 →
        t.seq = { s.seq with hcur := s.seq.hcur + 1, uop := 0x60, idx := 0 }) ∧
      (¬ (s.seq.kind = .compress ∧ s.seq.hcur ≠ 15) → t.seq = { s.seq with uop := 0x62, idx := 0 }) ∧
      t = { s with
        attemptLen := t.attemptLen, best := t.best, bestLen := t.bestLen, bestHdr := t.bestHdr
        seq := t.seq })

/-- ORC_DONE with a finite best: OUT holds the best bytes, OUT_LEN and RESULT_HDR name it, BUSY falls and DONE rises; OUT's other
bytes are as before (R171). With none, it ends with INTERNAL_FAULT when an attempt faulted, else with BUFFER_TOO_SMALL_OUT, OUT
not written (R171, 60_exceptions.md R188, R193). The model's choices, not the rule's: OUT's bytes from OUT_LEN upward are kept, which
20_memory.md R61 leaves unspecified (I3, log 25), and SEQ's fields other than `phase` are kept, which I12 leaves at any value (log 27). -/
def Obligations.OrcDoneFinishesTheCommand : Prop :=
  ∀ s : State, Memory.wf s.outMem →
    (∀ n, s.bestLen = .bytes n →
      ∃ t, exec .orcDone s = .next t ∧
        (∀ k, Memory.read t.outMem k =
          if k < n.toNat then Memory.read s.best k else Memory.read s.outMem k) ∧
        t = { s with
          outMem := t.outMem, outLen := n, resultHdr := s.bestHdr
          status := { s.status with busy := false, done := true }
          seq := { s.seq with phase := .idle } }) ∧
    (s.bestLen = .inf →
      exec .orcDone s = .next { s with
        outLen := 0, resultHdr := 0
        status := { s.status with
          err := true, errcode := if s.faulted then 4 else 1, busy := false, done := true }
        seq := { s.seq with phase := .idle } })

/-! ## Invariants of every step and whole-machine rules -/

/-- Every step keeps every memory canonical and the status bits lawful (10_state.md R23, 60_exceptions.md R193). -/
def Obligations.StepKeepsCanonicalAndLawful : Prop :=
  ∀ s t : State, s.canonical → s.statusLawful → step s = .next t → t.canonical ∧ t.statusLawful

/-- The reset state is canonical, lawful, within its sizes, its units are lawful, and its parameters are legal. The model's choices,
not the spec's: the zeros and empty buffers of the registers that 10_state.md R49 leaves unspecified (log 3), the empty IN, OUT and
BEST (log 4), and the default parameters (log 1, log 2). -/
def Obligations.ResetIsSound : Prop :=
  State.reset.canonical ∧ State.reset.statusLawful ∧ State.reset.withinSizes ∧ State.reset.unitsLawful ∧
    legalConfig State.reset.cfg

/-- No step ever writes outside a memory: the bounds of IN, OUT, BEST, ATT, the planes, the channels and TAGS are kept, and no parameter
changes (20_memory.md R60, 00_scope.md R7). -/
def Obligations.StepStaysWithinSizes : Prop :=
  ∀ s t : State, s.withinSizes → step s = .next t → t.withinSizes ∧ t.cfg = s.cfg

/-- Every step keeps SLOT states in 0..32 and RUNCNT[c] at most 2^c - 1 (10_state.md R51 (a), (c), 44_golomb_encoder.md R149). -/
def Obligations.StepKeepsUnitsLawful : Prop :=
  ∀ s t : State, (∀ i (h : i < 33), rowLegal s.cfg.st[i]) → s.unitsLawful → step s = .next t → t.unitsLawful

/-- The engine never writes IN, and writes OUT only at ORC_DONE of a successful command, in bytes below BEST_LEN, from BEST
(20_memory.md R61; the bytes kept: I3, log 25). -/
def Obligations.OnlyCompletionWritesOut : Prop :=
  ∀ s t : State, step s = .next t →
    ((t.inMem = s.inMem ∨ (∃ rest, s.hostMakes .reset rest) ∨ ∃ k v rest, s.hostMakes (.inWrite k v) rest) ∧
     (t.outMem = s.outMem ∨ (∃ rest, s.hostMakes .reset rest) ∨
       ∃ n, s.seq.phase = .run ∧ s.seq.uop = 0x62 ∧ s.bestLen = .bytes n ∧ t.outLen = n ∧
         (Memory.wf s.outMem → ∀ k, Memory.read t.outMem k =
           if k < n.toNat then Memory.read s.best k else Memory.read s.outMem k)))

/-- HDR is immutable per attempt: only ORC_BEGIN and the device reset change it (10_state.md R33). -/
def Obligations.HeaderChangesOnlyAtOrcBegin : Prop :=
  ∀ s t : State, step s = .next t → t.hdr ≠ s.hdr →
    (s.seq.phase = .run ∧ s.seq.uop = 0x60 ∧ t.hdr = s.seq.hcur) ∨ ∃ rest, s.hostMakes .reset rest

/-- INTERNAL_FAULT is unreachable: FAULTED is never set, whatever the host does (60_exceptions.md R190, 10_state.md R53). -/
def Obligations.InternalFaultIsUnreachable : Prop :=
  ∀ s : State, Reachable s → s.faulted = false

/-- Exact consumption: when the Interleaver comes to IL_LEN every channel bit has been moved exactly once, OPOS is 4 and the
number of those bits, and R154's bounds hold of tags and channels (45_interleaver.md R160, 44_golomb_encoder.md R154). -/
def Obligations.InterleaverConsumesExactly : Prop :=
  ∀ s : State, Reachable s → s.seq.phase = .run → s.seq.uop = 0x53 →
    let bits := ((List.range 8).map fun c => (s.chan (BitVec.ofNat 3 c)).wpos.toNat).sum
    (∀ c, (s.chan c).rpos = (s.chan c).wpos) ∧ s.opos.toNat = 4 + bits ∧
      s.tags.length ≤ s.nb.toNat ∧ (∀ c, (s.chan c).wpos.toNat ≤ 8 * s.nb.toNat + 1) ∧
      bits ≤ 8 * s.nb.toNat + 8

/-- A limit of NB + 2 bytes discards no attempt: at ORC_SELECT the attempt has a length, of at most NB + 2 bytes
(70_reset_and_hazards.md R209). -/
def Obligations.SufficientLimitDiscardsNothing : Prop :=
  ∀ s : State, Reachable s → s.seq.phase = .run → s.seq.uop = 0x61 →
    s.nb.toNat + 2 ≤ s.outLimit.toNat → ∃ n, s.alen = .bytes n ∧ n.toNat ≤ s.nb.toNat + 2

/-- Minimality: after a successful command OUT_LEN is the least of the sixteen ATTEMPT_LEN values and RESULT_HDR the least header
that reaches it (46_orchestrator.md R177, R170). -/
def Obligations.ResultIsTheShortestAttempt : Prop :=
  ∀ s : State, Reachable s → s.status.done = true → s.status.err = false →
    s.attempt s.resultHdr = s.outLen ∧ (∀ h, s.outLen ≤ s.attempt h) ∧
      ∀ h, h < s.resultHdr → s.outLen < s.attempt h

/-- While a result is present, OUT[0]'s upper nibble is RESULT_HDR (10_state.md R27, 20_memory.md R65). -/
def Obligations.OutputStartsWithItsHeader : Prop :=
  ∀ s : State, Reachable s → s.outLen ≠ 0 → (Memory.read s.outMem 0).extractLsb' 4 4 = s.resultHdr

/-- Every accepted command completes: from any reachable running state, with the host making no move, the engine is idle with
DONE = 1 within the micro-operations R219 allows sixteen attempts and one ORC_DONE (70_reset_and_hazards.md R219). -/
def Obligations.EveryCommandCompletes : Prop :=
  ∀ s : State, Reachable s → s.seq.phase = .run → s.host = [] →
    ∃ n t, n ≤ 16 * (18 + s.lenSnap.toNat + 13 * (8 * (s.lenSnap.toNat + 1))) + 1 ∧
      Host.Core.run Sys2Proof.core n s = .next t ∧ t.seq.phase = .idle ∧ t.status.done = true

/-- Determinism across leftovers: two idle machines with the same parameters, IN_LEN, OUT_MAX and input bytes below IN_LEN, given the
same COMPRESS or ENCODE, are BUSY for the same steps and then show the same STATUS (OVR apart), OUT_LEN, RESULT_HDR, ATTEMPT_LEN
and output bytes, whatever earlier commands left behind (46_orchestrator.md R178, 70_reset_and_hazards.md R208). -/
def Obligations.ResultDependsOnInputsOnly : Prop :=
  ∀ (s t : State) (w : BitVec 32), sameInputs s t → s.canonical → t.canonical →
    s.status.busy = false → t.status.busy = false →
    s.hostMakes (.regWrite .w32 0 w) [] → t.hostMakes (.regWrite .w32 0 w) [] →
    (w = 0x00000010 ∨ w.extractLsb' 4 28 = 2) →
    ∀ n s', Host.Core.run Sys2Proof.core (n + 1) s = .next s' →
      ∃ t', Host.Core.run Sys2Proof.core (n + 1) t = .next t' ∧ s'.status.busy = t'.status.busy ∧
        (s'.status.busy = false → sameResults s' t')
end

