-- ==== Sys2Proof/Laws/Memory.lean ====
section
/-! SUPPORT. Laws of the byte memories and bit buffers: read after write, the canonical form is kept, and where a write can land. -/

namespace Sys2Proof.Machine

/-! ### Byte memories -/

@[simp] theorem Memory.read_nil (k : Nat) : Memory.read [] k = Memory.unlisted := rfl

/-- Below every listed offset a memory reads as unlisted. -/
theorem Memory.read_of_lt (m : Memory) (k : Nat) (h : ∀ c ∈ m, k < c.1) :
    Memory.read m k = Memory.unlisted := by
  induction m with
  | nil => rfl
  | cons c rest ih =>
    have hc := h c (by simp)
    obtain ⟨a, v⟩ := c
    simp only [Memory.read]
    rw [if_neg (by omega)]
    exact ih fun d hd => h d (by simp [hd])

/-- A write leaves every other byte alone. -/
theorem Memory.read_write_other (m : Memory) (k j : Nat) (v : Byte) (h : j ≠ k) :
    Memory.read (Memory.write m k v) j = Memory.read m j := by
  induction m with
  | nil =>
    simp only [Memory.write]
    split <;> simp [Memory.read, h]
  | cons c rest ih =>
    obtain ⟨a, w⟩ := c
    simp only [Memory.write]
    split
    · split <;> simp [Memory.read, h]
    · split
      · rename_i _ hka
        subst hka
        split <;> simp [Memory.read, h]
      · simp [Memory.read, ih]

/-- A read after a write to the same byte gives the byte written. -/
theorem Memory.read_write_same (m : Memory) (k : Nat) (v : Byte) (hm : Memory.wf m) :
    Memory.read (Memory.write m k v) k = v := by
  induction m with
  | nil =>
    simp only [Memory.write]
    split
    · rename_i h; simp [h]
    · simp [Memory.read]
  | cons c rest ih =>
    obtain ⟨a, w⟩ := c
    obtain ⟨hp, hn⟩ := hm
    rw [List.pairwise_cons] at hp
    simp only [Memory.write]
    split
    · rename_i hlt
      split
      · rename_i hv
        rw [hv]
        refine Memory.read_of_lt _ _ fun d hd => ?_
        rcases List.mem_cons.1 hd with rfl | hd
        · exact hlt
        · exact lt_trans hlt (hp.1 d hd)
      · simp [Memory.read]
    · split
      · rename_i _ hka
        subst hka
        split
        · rename_i hv
          rw [hv]
          exact Memory.read_of_lt _ _ fun d hd => hp.1 d hd
        · simp [Memory.read]
      · rename_i hka
        simp only [Memory.read]
        rw [if_neg hka]
        exact ih ⟨hp.2, fun d hd => hn d (by simp [hd])⟩

/-- Every entry after a write is the one written, which is not unlisted, or stood there before. -/
theorem Memory.mem_write (m : Memory) (k : Nat) (v : Byte) (d : Host.Cell)
    (h : d ∈ Memory.write m k v) : (d = (k, v) ∧ v ≠ Memory.unlisted) ∨ d ∈ m := by
  induction m with
  | nil =>
    simp only [Memory.write] at h
    split at h
    · simp at h
    · rename_i hv; simp at h; exact .inl ⟨h, hv⟩
  | cons c rest ih =>
    obtain ⟨a, w⟩ := c
    simp only [Memory.write] at h
    split at h
    · split at h
      · exact .inr h
      · rename_i hv
        rcases List.mem_cons.1 h with h | h
        · exact .inl ⟨h, hv⟩
        · exact .inr h
    · split at h
      · split at h
        · exact .inr (by simp [h])
        · rename_i hv
          rcases List.mem_cons.1 h with h | h
          · exact .inl ⟨h, hv⟩
          · exact .inr (by simp [h])
      · rcases List.mem_cons.1 h with h | h
        · exact .inr (by simp [h])
        · rcases ih h with h | h
          · exact .inl h
          · exact .inr (by simp [h])

/-- A write keeps the canonical form. -/
theorem Memory.write_wf (m : Memory) (k : Nat) (v : Byte) (hm : Memory.wf m) :
    Memory.wf (Memory.write m k v) := by
  refine ⟨?_, fun d hd => ?_⟩
  · induction m with
    | nil =>
      simp only [Memory.write]
      split <;> simp
    | cons c rest ih =>
      obtain ⟨a, w⟩ := c
      obtain ⟨hp, hn⟩ := hm
      have hrest : Memory.wf rest := ⟨(List.pairwise_cons.1 hp).2, fun d hd => hn d (by simp [hd])⟩
      simp only [Memory.write]
      split
      · rename_i hlt
        split
        · exact hp
        · refine List.pairwise_cons.2 ⟨fun d hd => ?_, hp⟩
          rcases List.mem_cons.1 hd with rfl | hd
          · exact hlt
          · exact lt_trans hlt ((List.pairwise_cons.1 hp).1 d hd)
      · split
        · rename_i _ hka
          subst hka
          split
          · exact hrest.1
          · exact List.pairwise_cons.2 ⟨fun d hd => (List.pairwise_cons.1 hp).1 d hd, hrest.1⟩
        · refine List.pairwise_cons.2 ⟨fun d hd => ?_, ih hrest⟩
          rcases Memory.mem_write rest k v d hd with ⟨rfl, _⟩ | hd
          · show a < k; omega
          · exact (List.pairwise_cons.1 hp).1 d hd
  · rcases Memory.mem_write m k v d hd with ⟨rfl, hv⟩ | hd
    · exact hv
    · exact hm.2 d hd

/-- The next position of a cursor. -/
theorem word_succ (w : Word) : (w + 1).toNat = (w.toNat + 1) % 2 ^ 32 := by
  rw [BitVec.toNat_add]; rfl

theorem Memory.nil_wf : Memory.wf [] := ⟨List.Pairwise.nil, fun _ h => by cases h⟩

/-- A copy of `n` bytes keeps the canonical form. -/
theorem Memory.copy_wf (src : Memory) (n : Nat) (dst : Memory) (h : Memory.wf dst) :
    Memory.wf (Memory.copy src n dst) := by
  induction n with
  | zero => exact h
  | succ n ih => exact Memory.write_wf _ _ _ ih

/-- After a copy of `n` bytes the first `n` read as the source, the others as before. -/
theorem Memory.read_copy (src : Memory) (n : Nat) (dst : Memory) (h : Memory.wf dst) (k : Nat) :
    Memory.read (Memory.copy src n dst) k = if k < n then Memory.read src k else Memory.read dst k := by
  induction n with
  | zero => simp [Memory.copy]
  | succ n ih =>
    simp only [Memory.copy]
    by_cases hk : k = n
    · subst hk
      rw [Memory.read_write_same _ _ _ (Memory.copy_wf _ _ _ h)]; simp
    · rw [Memory.read_write_other _ _ _ _ hk, ih]
      by_cases h1 : k < n
      · simp [h1, Nat.lt_succ_of_lt h1]
      · have : ¬ k < n + 1 := by omega
        simp [h1, this]

/-- Every entry after a copy of `n` bytes lies below `n` or stood there before. -/
theorem Memory.mem_copy (src : Memory) (n : Nat) (dst : Memory) (d : Host.Cell)
    (h : d ∈ Memory.copy src n dst) : d.1 < n ∨ d ∈ dst := by
  induction n with
  | zero => exact .inr h
  | succ n ih =>
    rcases Memory.mem_write _ _ _ _ h with ⟨rfl, _⟩ | h
    · exact .inl (Nat.lt_succ_self n)
    · rcases ih h with h | h
      · exact .inl (Nat.lt_succ_of_lt h)
      · exact .inr h

/-! ### Bits -/

/-- The bit put at position `i` of a byte is read there, the others as before. -/
theorem byteSetBit_get (b : Byte) (i j : Nat) (v : Bit) (hi : i < 8) (hj : j < 8) :
    (byteSetBit b i v).extractLsb' j 1 = if j = i then v else b.extractLsb' j 1 := by
  have key : ∀ (b : Byte) (v : Bit) (i j : Fin 8),
      (byteSetBit b i v).extractLsb' j 1 = if (j : Nat) = i then v else b.extractLsb' j 1 := by
    intro b v i j
    apply BitVec.eq_of_getLsbD_eq
    intro k hk
    have hk0 : k = 0 := by omega
    subst hk0
    have hi := i.2
    have hj := j.2
    simp only [byteSetBit, BitVec.getLsbD_extractLsb', BitVec.getLsbD_or, BitVec.getLsbD_and,
      BitVec.getLsbD_not, BitVec.getLsbD_shiftLeft, BitVec.getLsbD_setWidth, Nat.add_zero,
      Nat.zero_lt_one, decide_true, Bool.true_and, hj]
    by_cases e : (j : Nat) = i
    · rw [if_pos e, e]; simp
    · rw [if_neg e]
      simp only [BitVec.getLsbD_extractLsb', Nat.add_zero, Nat.zero_lt_one, decide_true, Bool.true_and]
      by_cases hlt : (j : Nat) < i
      · simp [hlt]
      · have h1 : (j : Nat) - i ≠ 0 := by omega
        have h2 : 1 ≤ (j : Nat) - i := by omega
        simp [hlt, BitVec.getLsbD_one, h1, BitVec.getLsbD_of_ge v _ h2]
  exact key b v ⟨i, hi⟩ ⟨j, hj⟩

@[simp] theorem Memory.bitRead_nil (pos : Nat) : Memory.bitRead [] pos = 0 := by
  simp [Memory.bitRead, Memory.unlisted]

theorem Memory.bitWrite_wf (m : Memory) (pos : Nat) (v : Bit) (h : Memory.wf m) :
    Memory.wf (Memory.bitWrite m pos v) := Memory.write_wf _ _ _ h

/-- Reading a bit after writing one: the bit written there, every other bit as before. -/
theorem Memory.bitRead_bitWrite (m : Memory) (p q : Nat) (v : Bit) (h : Memory.wf m) :
    Memory.bitRead (Memory.bitWrite m p v) q = if q = p then v else Memory.bitRead m q := by
  simp only [Memory.bitRead, Memory.bitWrite]
  by_cases hb : q / 8 = p / 8
  · rw [hb, Memory.read_write_same _ _ _ h, byteSetBit_get _ _ _ _ (by omega) (by omega)]
    by_cases e : q = p
    · subst e; simp
    · have : ¬ (7 - q % 8 = 7 - p % 8) := by omega
      rw [if_neg this, if_neg e]
  · rw [Memory.read_write_other _ _ _ _ hb]
    have : q ≠ p := fun e => hb (by rw [e])
    rw [if_neg this]

/-- Every entry after a bit is written lies in the bit's byte or stood there before. -/
theorem Memory.mem_bitWrite (m : Memory) (pos : Nat) (v : Bit) (d : Host.Cell)
    (h : d ∈ Memory.bitWrite m pos v) : d.1 = pos / 8 ∨ d ∈ m := by
  rcases Memory.mem_write _ _ _ _ h with ⟨rfl, _⟩ | h
  · exact .inl rfl
  · exact .inr h

/-! ### Bit buffers -/

@[simp] theorem BitBuf.append_wpos (b : BitBuf) (v : Bit) : (b.append v).wpos = b.wpos + 1 := rfl
@[simp] theorem BitBuf.append_rpos (b : BitBuf) (v : Bit) : (b.append v).rpos = b.rpos := rfl
@[simp] theorem BitBuf.append_mem (b : BitBuf) (v : Bit) :
    (b.append v).mem = Memory.bitWrite b.mem b.wpos.toNat v := rfl
@[simp] theorem BitBuf.advance_mem (b : BitBuf) : b.advance.mem = b.mem := rfl
@[simp] theorem BitBuf.advance_wpos (b : BitBuf) : b.advance.wpos = b.wpos := rfl
@[simp] theorem BitBuf.advance_rpos (b : BitBuf) : b.advance.rpos = b.rpos + 1 := rfl
@[simp] theorem BitBuf.appendAll_nil (b : BitBuf) : b.appendAll [] = b := rfl
@[simp] theorem BitBuf.appendAll_cons (b : BitBuf) (v : Bit) (vs : List Bit) :
    b.appendAll (v :: vs) = (b.append v).appendAll vs := rfl

theorem BitBuf.appendAll_rpos (b : BitBuf) (vs : List Bit) : (b.appendAll vs).rpos = b.rpos := by
  induction vs generalizing b with
  | nil => rfl
  | cons v vs ih => rw [BitBuf.appendAll_cons, ih, BitBuf.append_rpos]

theorem BitBuf.appendAll_wpos (b : BitBuf) (vs : List Bit) :
    (b.appendAll vs).wpos = b.wpos + BitVec.ofNat 32 vs.length := by
  induction vs generalizing b with
  | nil => simp
  | cons v vs ih =>
    rw [BitBuf.appendAll_cons, ih, BitBuf.append_wpos, List.length_cons, BitVec.add_assoc,
      Nat.add_comm vs.length 1, BitVec.ofNat_add]; rfl

theorem BitBuf.appendAll_wf (b : BitBuf) (vs : List Bit) (h : Memory.wf b.mem) :
    Memory.wf (b.appendAll vs).mem := by
  induction vs generalizing b with
  | nil => exact h
  | cons v vs ih => exact ih _ (Memory.bitWrite_wf _ _ _ h)

/-- After bits are appended with no wrap of the write cursor, they stand from the old cursor on, and every
other bit is as before (20_memory.md R62). -/
theorem BitBuf.bitRead_appendAll (b : BitBuf) (vs : List Bit) (h : Memory.wf b.mem)
    (hroom : b.wpos.toNat + vs.length ≤ 2 ^ 32) (q : Nat) :
    Memory.bitRead (b.appendAll vs).mem q =
      if hq : b.wpos.toNat ≤ q ∧ q < b.wpos.toNat + vs.length then
        vs[q - b.wpos.toNat]'(by omega)
      else Memory.bitRead b.mem q := by
  induction vs generalizing b with
  | nil =>
    rw [dif_neg (by simp)]; rfl
  | cons v vs ih =>
    rw [BitBuf.appendAll_cons]
    by_cases hz : vs = []
    · subst hz
      simp only [BitBuf.appendAll_nil, BitBuf.append_mem, Memory.bitRead_bitWrite _ _ _ _ h]
      by_cases e : q = b.wpos.toNat
      · subst e; simp
      · rw [if_neg e, dif_neg (by simp; omega)]
    · have hlen : 0 < vs.length := List.length_pos_iff.2 hz
      simp only [List.length_cons] at hroom
      have hw : (b.append v).wpos.toNat = b.wpos.toNat + 1 := by
        rw [BitBuf.append_wpos, word_succ]; omega
      rw [ih (b.append v) (Memory.bitWrite_wf _ _ _ h) (by rw [hw]; omega)]
      by_cases e : q = b.wpos.toNat
      · subst e
        rw [dif_neg (by rw [hw]; omega), BitBuf.append_mem, Memory.bitRead_bitWrite _ _ _ _ h, if_pos rfl,
          dif_pos (by simp)]
        simp
      · by_cases hin : b.wpos.toNat ≤ q ∧ q < b.wpos.toNat + (vs.length + 1)
        · rw [dif_pos (by rw [hw]; omega), dif_pos (by simpa using hin)]
          have hidx : q - b.wpos.toNat = (q - (b.append v).wpos.toNat) + 1 := by rw [hw]; omega
          simp only [hidx, List.getElem_cons_succ]
        · rw [dif_neg (by rw [hw]; omega), dif_neg (by simpa using hin), BitBuf.append_mem,
            Memory.bitRead_bitWrite _ _ _ _ h, if_neg e]

/-- Every byte of a buffer after bits are appended below `cap` bits lies below the cap or stood there before. -/
theorem BitBuf.mem_appendAll (b : BitBuf) (vs : List Bit) (cap : Nat)
    (hroom : b.wpos.toNat + vs.length ≤ cap) (d : Host.Cell) (h : d ∈ (b.appendAll vs).mem) :
    8 * d.1 < cap ∨ d ∈ b.mem := by
  induction vs generalizing b with
  | nil => exact .inr h
  | cons v vs ih =>
    simp only [List.length_cons] at hroom
    have hw : (b.append v).wpos.toNat ≤ b.wpos.toNat + 1 := by
      rw [BitBuf.append_wpos, word_succ]; omega
    rcases ih (b.append v) (by omega) h with h | h
    · exact .inl h
    · rcases Memory.mem_bitWrite _ _ _ _ h with h | h
      · left; omega
      · exact .inr h

end Sys2Proof.Machine
end

