-- ==== Sys2Proof/Laws/PerInstr.lean ====
section
/-! SUPPORT. The per-instruction family TableRow: the encoder's fixed bits are those of the instruction's row of spec/opcode_table.json (its match under its mask). -/

namespace Sys2Proof.Laws

/-- The width, match and mask of an instruction's row of spec/opcode_table.json. -/
def tableRow : Instr → Nat × Nat × Nat
  | .compress => (32, 0x00000010, 0xFFFFFFFF)
  | .encode _ => (32, 0x00000020, 0xFFFFFFF0)
  | .clear => (32, 0x00000030, 0xFFFFFFFF)
  | .splInit => (8, 0x10, 0xFF)
  | .splByte _ => (8, 0x11, 0xFF)
  | .splBits _ => (8, 0x12, 0xFF)
  | .cmInit => (8, 0x20, 0xFF)
  | .cmBit _ => (8, 0x21, 0xFF)
  | .pemInit => (8, 0x30, 0xFF)
  | .pemPredict _ => (8, 0x31, 0xFF)
  | .pemStep _ _ => (8, 0x32, 0xFF)
  | .gceInit => (8, 0x40, 0xFF)
  | .gcePutbit _ _ => (8, 0x41, 0xFF)
  | .gceFinish => (8, 0x42, 0xFF)
  | .ilInit => (8, 0x50, 0xFF)
  | .ilTag _ => (8, 0x51, 0xFF)
  | .ilMovebit _ => (8, 0x52, 0xFF)
  | .ilLen => (8, 0x53, 0xFF)
  | .orcBegin _ => (8, 0x60, 0xFF)
  | .orcSelect => (8, 0x61, 0xFF)
  | .orcDone => (8, 0x62, 0xFF)

/-- The bits of an encoding that the table numbers, with their width. -/
def tableBits : Encoding → Nat × Nat
  | .cmdWord w => (32, w.toNat)
  | .uop label _ => (8, label.toNat)

/-- The instruction's encoding has its row's width, and its row's match under its row's mask. -/
def TableRow.Statement (i : Instr) : Prop :=
  (tableBits (encode i)).1 = (tableRow i).1 ∧
    (tableBits (encode i)).2 &&& (tableRow i).2.2 = (tableRow i).2.1

theorem TableRow.compress : TableRow.Statement .compress := ⟨rfl, by decide⟩
theorem TableRow.encode (h : BitVec 4) : TableRow.Statement (.encode h) := ⟨rfl, by revert h; decide⟩
theorem TableRow.clear : TableRow.Statement .clear := ⟨rfl, by decide⟩
theorem TableRow.splInit : TableRow.Statement .splInit :=
  ⟨rfl, (by decide : Label.splInit.toNat &&& 0xFF = (tableRow (.splInit)).2.1)⟩
theorem TableRow.splByte (k : Word) : TableRow.Statement (.splByte k) :=
  ⟨rfl, (by decide : Label.splByte.toNat &&& 0xFF = (tableRow (.splByte 0)).2.1)⟩
theorem TableRow.splBits (k : Word) : TableRow.Statement (.splBits k) :=
  ⟨rfl, (by decide : Label.splBits.toNat &&& 0xFF = (tableRow (.splBits 0)).2.1)⟩
theorem TableRow.cmInit : TableRow.Statement .cmInit :=
  ⟨rfl, (by decide : Label.cmInit.toNat &&& 0xFF = (tableRow (.cmInit)).2.1)⟩
theorem TableRow.cmBit (n : Word) : TableRow.Statement (.cmBit n) :=
  ⟨rfl, (by decide : Label.cmBit.toNat &&& 0xFF = (tableRow (.cmBit 0)).2.1)⟩
theorem TableRow.pemInit : TableRow.Statement .pemInit :=
  ⟨rfl, (by decide : Label.pemInit.toNat &&& 0xFF = (tableRow (.pemInit)).2.1)⟩
theorem TableRow.pemPredict (ctx : BitVec 5) : TableRow.Statement (.pemPredict ctx) :=
  ⟨rfl, (by decide : Label.pemPredict.toNat &&& 0xFF = (tableRow (.pemPredict 0)).2.1)⟩
theorem TableRow.pemStep (bit : Bit) (ctx : BitVec 5) : TableRow.Statement (.pemStep bit ctx) :=
  ⟨rfl, (by decide : Label.pemStep.toNat &&& 0xFF = (tableRow (.pemStep 0 0)).2.1)⟩
theorem TableRow.gceInit : TableRow.Statement .gceInit :=
  ⟨rfl, (by decide : Label.gceInit.toNat &&& 0xFF = (tableRow (.gceInit)).2.1)⟩
theorem TableRow.gcePutbit (c : BitVec 3) (sym : Bit) : TableRow.Statement (.gcePutbit c sym) :=
  ⟨rfl, (by decide : Label.gcePutbit.toNat &&& 0xFF = (tableRow (.gcePutbit 0 0)).2.1)⟩
theorem TableRow.gceFinish : TableRow.Statement .gceFinish :=
  ⟨rfl, (by decide : Label.gceFinish.toNat &&& 0xFF = (tableRow (.gceFinish)).2.1)⟩
theorem TableRow.ilInit : TableRow.Statement .ilInit :=
  ⟨rfl, (by decide : Label.ilInit.toNat &&& 0xFF = (tableRow (.ilInit)).2.1)⟩
theorem TableRow.ilTag (t : Word) : TableRow.Statement (.ilTag t) :=
  ⟨rfl, (by decide : Label.ilTag.toNat &&& 0xFF = (tableRow (.ilTag 0)).2.1)⟩
theorem TableRow.ilMovebit (c : BitVec 3) : TableRow.Statement (.ilMovebit c) :=
  ⟨rfl, (by decide : Label.ilMovebit.toNat &&& 0xFF = (tableRow (.ilMovebit 0)).2.1)⟩
theorem TableRow.ilLen : TableRow.Statement .ilLen :=
  ⟨rfl, (by decide : Label.ilLen.toNat &&& 0xFF = (tableRow (.ilLen)).2.1)⟩
theorem TableRow.orcBegin (h : BitVec 4) : TableRow.Statement (.orcBegin h) :=
  ⟨rfl, (by decide : Label.orcBegin.toNat &&& 0xFF = (tableRow (.orcBegin 0)).2.1)⟩
theorem TableRow.orcSelect : TableRow.Statement .orcSelect :=
  ⟨rfl, (by decide : Label.orcSelect.toNat &&& 0xFF = (tableRow (.orcSelect)).2.1)⟩
theorem TableRow.orcDone : TableRow.Statement .orcDone :=
  ⟨rfl, (by decide : Label.orcDone.toNat &&& 0xFF = (tableRow (.orcDone)).2.1)⟩

end Sys2Proof.Laws
end

