-- ==== Sys2Proof/Laws/State.lean ====
section
/-! SUPPORT. One lemma per field and per register accessor for each named update of the state, so that no later proof unfolds a record update. -/

namespace Sys2Proof.Machine

variable (s : State)


/-! ### setPlane -/

@[simp] theorem State.setPlane_cfg (p : BitVec 3) (b : BitBuf) : (s.setPlane p b).cfg = s.cfg := rfl
@[simp] theorem State.setPlane_status (p : BitVec 3) (b : BitBuf) : (s.setPlane p b).status = s.status := rfl
@[simp] theorem State.setPlane_inLen (p : BitVec 3) (b : BitBuf) : (s.setPlane p b).inLen = s.inLen := rfl
@[simp] theorem State.setPlane_outMax (p : BitVec 3) (b : BitBuf) : (s.setPlane p b).outMax = s.outMax := rfl
@[simp] theorem State.setPlane_outLen (p : BitVec 3) (b : BitBuf) : (s.setPlane p b).outLen = s.outLen := rfl
@[simp] theorem State.setPlane_resultHdr (p : BitVec 3) (b : BitBuf) : (s.setPlane p b).resultHdr = s.resultHdr := rfl
@[simp] theorem State.setPlane_ie (p : BitVec 3) (b : BitBuf) : (s.setPlane p b).ie = s.ie := rfl
@[simp] theorem State.setPlane_attemptLen (p : BitVec 3) (b : BitBuf) : (s.setPlane p b).attemptLen = s.attemptLen := rfl
@[simp] theorem State.setPlane_inMem (p : BitVec 3) (b : BitBuf) : (s.setPlane p b).inMem = s.inMem := rfl
@[simp] theorem State.setPlane_outMem (p : BitVec 3) (b : BitBuf) : (s.setPlane p b).outMem = s.outMem := rfl
@[simp] theorem State.setPlane_seq (p : BitVec 3) (b : BitBuf) : (s.setPlane p b).seq = s.seq := rfl
@[simp] theorem State.setPlane_lenSnap (p : BitVec 3) (b : BitBuf) : (s.setPlane p b).lenSnap = s.lenSnap := rfl
@[simp] theorem State.setPlane_outLimit (p : BitVec 3) (b : BitBuf) : (s.setPlane p b).outLimit = s.outLimit := rfl
@[simp] theorem State.setPlane_hdr (p : BitVec 3) (b : BitBuf) : (s.setPlane p b).hdr = s.hdr := rfl
@[simp] theorem State.setPlane_splitSel (p : BitVec 3) (b : BitBuf) : (s.setPlane p b).splitSel = s.splitSel := rfl
@[simp] theorem State.setPlane_planes (p : BitVec 3) (b : BitBuf) : (s.setPlane p b).planes = s.planes.set p.toNat b := rfl
@[simp] theorem State.setPlane_modelSel (p : BitVec 3) (b : BitBuf) : (s.setPlane p b).modelSel = s.modelSel := rfl
@[simp] theorem State.setPlane_nbit (p : BitVec 3) (b : BitBuf) : (s.setPlane p b).nbit = s.nbit := rfl
@[simp] theorem State.setPlane_hist (p : BitVec 3) (b : BitBuf) : (s.setPlane p b).hist = s.hist := rfl
@[simp] theorem State.setPlane_slots (p : BitVec 3) (b : BitBuf) : (s.setPlane p b).slots = s.slots := rfl
@[simp] theorem State.setPlane_runcnt (p : BitVec 3) (b : BitBuf) : (s.setPlane p b).runcnt = s.runcnt := rfl
@[simp] theorem State.setPlane_chans (p : BitVec 3) (b : BitBuf) : (s.setPlane p b).chans = s.chans := rfl
@[simp] theorem State.setPlane_tags (p : BitVec 3) (b : BitBuf) : (s.setPlane p b).tags = s.tags := rfl
@[simp] theorem State.setPlane_att (p : BitVec 3) (b : BitBuf) : (s.setPlane p b).att = s.att := rfl
@[simp] theorem State.setPlane_opos (p : BitVec 3) (b : BitBuf) : (s.setPlane p b).opos = s.opos := rfl
@[simp] theorem State.setPlane_alen (p : BitVec 3) (b : BitBuf) : (s.setPlane p b).alen = s.alen := rfl
@[simp] theorem State.setPlane_best (p : BitVec 3) (b : BitBuf) : (s.setPlane p b).best = s.best := rfl
@[simp] theorem State.setPlane_bestLen (p : BitVec 3) (b : BitBuf) : (s.setPlane p b).bestLen = s.bestLen := rfl
@[simp] theorem State.setPlane_bestHdr (p : BitVec 3) (b : BitBuf) : (s.setPlane p b).bestHdr = s.bestHdr := rfl
@[simp] theorem State.setPlane_faulted (p : BitVec 3) (b : BitBuf) : (s.setPlane p b).faulted = s.faulted := rfl
@[simp] theorem State.setPlane_wires (p : BitVec 3) (b : BitBuf) : (s.setPlane p b).wires = s.wires := rfl
@[simp] theorem State.setPlane_host (p : BitVec 3) (b : BitBuf) : (s.setPlane p b).host = s.host := rfl
@[simp] theorem State.setPlane_reads (p : BitVec 3) (b : BitBuf) : (s.setPlane p b).reads = s.reads := rfl
@[simp] theorem State.setPlane_draws (p : BitVec 3) (b : BitBuf) : (s.setPlane p b).draws = s.draws := rfl
@[simp] theorem State.setPlane_chan (p : BitVec 3) (b : BitBuf) (q : BitVec 3) : (s.setPlane p b).chan q = s.chan q := rfl
@[simp] theorem State.setPlane_history (p : BitVec 3) (b : BitBuf) (q : BitVec 3) : (s.setPlane p b).history q = s.history q := rfl
@[simp] theorem State.setPlane_count (p : BitVec 3) (b : BitBuf) (q : BitVec 3) : (s.setPlane p b).count q = s.count q := rfl
@[simp] theorem State.setPlane_slot (p : BitVec 3) (b : BitBuf) (q : BitVec 5) : (s.setPlane p b).slot q = s.slot q := rfl
@[simp] theorem State.setPlane_attempt (p : BitVec 3) (b : BitBuf) (q : BitVec 4) : (s.setPlane p b).attempt q = s.attempt q := rfl

/-! ### setChan -/

@[simp] theorem State.setChan_cfg (c : BitVec 3) (b : BitBuf) : (s.setChan c b).cfg = s.cfg := rfl
@[simp] theorem State.setChan_status (c : BitVec 3) (b : BitBuf) : (s.setChan c b).status = s.status := rfl
@[simp] theorem State.setChan_inLen (c : BitVec 3) (b : BitBuf) : (s.setChan c b).inLen = s.inLen := rfl
@[simp] theorem State.setChan_outMax (c : BitVec 3) (b : BitBuf) : (s.setChan c b).outMax = s.outMax := rfl
@[simp] theorem State.setChan_outLen (c : BitVec 3) (b : BitBuf) : (s.setChan c b).outLen = s.outLen := rfl
@[simp] theorem State.setChan_resultHdr (c : BitVec 3) (b : BitBuf) : (s.setChan c b).resultHdr = s.resultHdr := rfl
@[simp] theorem State.setChan_ie (c : BitVec 3) (b : BitBuf) : (s.setChan c b).ie = s.ie := rfl
@[simp] theorem State.setChan_attemptLen (c : BitVec 3) (b : BitBuf) : (s.setChan c b).attemptLen = s.attemptLen := rfl
@[simp] theorem State.setChan_inMem (c : BitVec 3) (b : BitBuf) : (s.setChan c b).inMem = s.inMem := rfl
@[simp] theorem State.setChan_outMem (c : BitVec 3) (b : BitBuf) : (s.setChan c b).outMem = s.outMem := rfl
@[simp] theorem State.setChan_seq (c : BitVec 3) (b : BitBuf) : (s.setChan c b).seq = s.seq := rfl
@[simp] theorem State.setChan_lenSnap (c : BitVec 3) (b : BitBuf) : (s.setChan c b).lenSnap = s.lenSnap := rfl
@[simp] theorem State.setChan_outLimit (c : BitVec 3) (b : BitBuf) : (s.setChan c b).outLimit = s.outLimit := rfl
@[simp] theorem State.setChan_hdr (c : BitVec 3) (b : BitBuf) : (s.setChan c b).hdr = s.hdr := rfl
@[simp] theorem State.setChan_splitSel (c : BitVec 3) (b : BitBuf) : (s.setChan c b).splitSel = s.splitSel := rfl
@[simp] theorem State.setChan_planes (c : BitVec 3) (b : BitBuf) : (s.setChan c b).planes = s.planes := rfl
@[simp] theorem State.setChan_modelSel (c : BitVec 3) (b : BitBuf) : (s.setChan c b).modelSel = s.modelSel := rfl
@[simp] theorem State.setChan_nbit (c : BitVec 3) (b : BitBuf) : (s.setChan c b).nbit = s.nbit := rfl
@[simp] theorem State.setChan_hist (c : BitVec 3) (b : BitBuf) : (s.setChan c b).hist = s.hist := rfl
@[simp] theorem State.setChan_slots (c : BitVec 3) (b : BitBuf) : (s.setChan c b).slots = s.slots := rfl
@[simp] theorem State.setChan_runcnt (c : BitVec 3) (b : BitBuf) : (s.setChan c b).runcnt = s.runcnt := rfl
@[simp] theorem State.setChan_chans (c : BitVec 3) (b : BitBuf) : (s.setChan c b).chans = s.chans.set c.toNat b := rfl
@[simp] theorem State.setChan_tags (c : BitVec 3) (b : BitBuf) : (s.setChan c b).tags = s.tags := rfl
@[simp] theorem State.setChan_att (c : BitVec 3) (b : BitBuf) : (s.setChan c b).att = s.att := rfl
@[simp] theorem State.setChan_opos (c : BitVec 3) (b : BitBuf) : (s.setChan c b).opos = s.opos := rfl
@[simp] theorem State.setChan_alen (c : BitVec 3) (b : BitBuf) : (s.setChan c b).alen = s.alen := rfl
@[simp] theorem State.setChan_best (c : BitVec 3) (b : BitBuf) : (s.setChan c b).best = s.best := rfl
@[simp] theorem State.setChan_bestLen (c : BitVec 3) (b : BitBuf) : (s.setChan c b).bestLen = s.bestLen := rfl
@[simp] theorem State.setChan_bestHdr (c : BitVec 3) (b : BitBuf) : (s.setChan c b).bestHdr = s.bestHdr := rfl
@[simp] theorem State.setChan_faulted (c : BitVec 3) (b : BitBuf) : (s.setChan c b).faulted = s.faulted := rfl
@[simp] theorem State.setChan_wires (c : BitVec 3) (b : BitBuf) : (s.setChan c b).wires = s.wires := rfl
@[simp] theorem State.setChan_host (c : BitVec 3) (b : BitBuf) : (s.setChan c b).host = s.host := rfl
@[simp] theorem State.setChan_reads (c : BitVec 3) (b : BitBuf) : (s.setChan c b).reads = s.reads := rfl
@[simp] theorem State.setChan_draws (c : BitVec 3) (b : BitBuf) : (s.setChan c b).draws = s.draws := rfl
@[simp] theorem State.setChan_plane (c : BitVec 3) (b : BitBuf) (q : BitVec 3) : (s.setChan c b).plane q = s.plane q := rfl
@[simp] theorem State.setChan_history (c : BitVec 3) (b : BitBuf) (q : BitVec 3) : (s.setChan c b).history q = s.history q := rfl
@[simp] theorem State.setChan_count (c : BitVec 3) (b : BitBuf) (q : BitVec 3) : (s.setChan c b).count q = s.count q := rfl
@[simp] theorem State.setChan_slot (c : BitVec 3) (b : BitBuf) (q : BitVec 5) : (s.setChan c b).slot q = s.slot q := rfl
@[simp] theorem State.setChan_attempt (c : BitVec 3) (b : BitBuf) (q : BitVec 4) : (s.setChan c b).attempt q = s.attempt q := rfl

/-! ### setHistory -/

@[simp] theorem State.setHistory_cfg (p : BitVec 3) (v : BitVec 16) : (s.setHistory p v).cfg = s.cfg := rfl
@[simp] theorem State.setHistory_status (p : BitVec 3) (v : BitVec 16) : (s.setHistory p v).status = s.status := rfl
@[simp] theorem State.setHistory_inLen (p : BitVec 3) (v : BitVec 16) : (s.setHistory p v).inLen = s.inLen := rfl
@[simp] theorem State.setHistory_outMax (p : BitVec 3) (v : BitVec 16) : (s.setHistory p v).outMax = s.outMax := rfl
@[simp] theorem State.setHistory_outLen (p : BitVec 3) (v : BitVec 16) : (s.setHistory p v).outLen = s.outLen := rfl
@[simp] theorem State.setHistory_resultHdr (p : BitVec 3) (v : BitVec 16) : (s.setHistory p v).resultHdr = s.resultHdr := rfl
@[simp] theorem State.setHistory_ie (p : BitVec 3) (v : BitVec 16) : (s.setHistory p v).ie = s.ie := rfl
@[simp] theorem State.setHistory_attemptLen (p : BitVec 3) (v : BitVec 16) : (s.setHistory p v).attemptLen = s.attemptLen := rfl
@[simp] theorem State.setHistory_inMem (p : BitVec 3) (v : BitVec 16) : (s.setHistory p v).inMem = s.inMem := rfl
@[simp] theorem State.setHistory_outMem (p : BitVec 3) (v : BitVec 16) : (s.setHistory p v).outMem = s.outMem := rfl
@[simp] theorem State.setHistory_seq (p : BitVec 3) (v : BitVec 16) : (s.setHistory p v).seq = s.seq := rfl
@[simp] theorem State.setHistory_lenSnap (p : BitVec 3) (v : BitVec 16) : (s.setHistory p v).lenSnap = s.lenSnap := rfl
@[simp] theorem State.setHistory_outLimit (p : BitVec 3) (v : BitVec 16) : (s.setHistory p v).outLimit = s.outLimit := rfl
@[simp] theorem State.setHistory_hdr (p : BitVec 3) (v : BitVec 16) : (s.setHistory p v).hdr = s.hdr := rfl
@[simp] theorem State.setHistory_splitSel (p : BitVec 3) (v : BitVec 16) : (s.setHistory p v).splitSel = s.splitSel := rfl
@[simp] theorem State.setHistory_planes (p : BitVec 3) (v : BitVec 16) : (s.setHistory p v).planes = s.planes := rfl
@[simp] theorem State.setHistory_modelSel (p : BitVec 3) (v : BitVec 16) : (s.setHistory p v).modelSel = s.modelSel := rfl
@[simp] theorem State.setHistory_nbit (p : BitVec 3) (v : BitVec 16) : (s.setHistory p v).nbit = s.nbit := rfl
@[simp] theorem State.setHistory_hist (p : BitVec 3) (v : BitVec 16) : (s.setHistory p v).hist = s.hist.set p.toNat v := rfl
@[simp] theorem State.setHistory_slots (p : BitVec 3) (v : BitVec 16) : (s.setHistory p v).slots = s.slots := rfl
@[simp] theorem State.setHistory_runcnt (p : BitVec 3) (v : BitVec 16) : (s.setHistory p v).runcnt = s.runcnt := rfl
@[simp] theorem State.setHistory_chans (p : BitVec 3) (v : BitVec 16) : (s.setHistory p v).chans = s.chans := rfl
@[simp] theorem State.setHistory_tags (p : BitVec 3) (v : BitVec 16) : (s.setHistory p v).tags = s.tags := rfl
@[simp] theorem State.setHistory_att (p : BitVec 3) (v : BitVec 16) : (s.setHistory p v).att = s.att := rfl
@[simp] theorem State.setHistory_opos (p : BitVec 3) (v : BitVec 16) : (s.setHistory p v).opos = s.opos := rfl
@[simp] theorem State.setHistory_alen (p : BitVec 3) (v : BitVec 16) : (s.setHistory p v).alen = s.alen := rfl
@[simp] theorem State.setHistory_best (p : BitVec 3) (v : BitVec 16) : (s.setHistory p v).best = s.best := rfl
@[simp] theorem State.setHistory_bestLen (p : BitVec 3) (v : BitVec 16) : (s.setHistory p v).bestLen = s.bestLen := rfl
@[simp] theorem State.setHistory_bestHdr (p : BitVec 3) (v : BitVec 16) : (s.setHistory p v).bestHdr = s.bestHdr := rfl
@[simp] theorem State.setHistory_faulted (p : BitVec 3) (v : BitVec 16) : (s.setHistory p v).faulted = s.faulted := rfl
@[simp] theorem State.setHistory_wires (p : BitVec 3) (v : BitVec 16) : (s.setHistory p v).wires = s.wires := rfl
@[simp] theorem State.setHistory_host (p : BitVec 3) (v : BitVec 16) : (s.setHistory p v).host = s.host := rfl
@[simp] theorem State.setHistory_reads (p : BitVec 3) (v : BitVec 16) : (s.setHistory p v).reads = s.reads := rfl
@[simp] theorem State.setHistory_draws (p : BitVec 3) (v : BitVec 16) : (s.setHistory p v).draws = s.draws := rfl
@[simp] theorem State.setHistory_plane (p : BitVec 3) (v : BitVec 16) (q : BitVec 3) : (s.setHistory p v).plane q = s.plane q := rfl
@[simp] theorem State.setHistory_chan (p : BitVec 3) (v : BitVec 16) (q : BitVec 3) : (s.setHistory p v).chan q = s.chan q := rfl
@[simp] theorem State.setHistory_count (p : BitVec 3) (v : BitVec 16) (q : BitVec 3) : (s.setHistory p v).count q = s.count q := rfl
@[simp] theorem State.setHistory_slot (p : BitVec 3) (v : BitVec 16) (q : BitVec 5) : (s.setHistory p v).slot q = s.slot q := rfl
@[simp] theorem State.setHistory_attempt (p : BitVec 3) (v : BitVec 16) (q : BitVec 4) : (s.setHistory p v).attempt q = s.attempt q := rfl

/-! ### setCount -/

@[simp] theorem State.setCount_cfg (c : BitVec 3) (n : BitVec 8) : (s.setCount c n).cfg = s.cfg := rfl
@[simp] theorem State.setCount_status (c : BitVec 3) (n : BitVec 8) : (s.setCount c n).status = s.status := rfl
@[simp] theorem State.setCount_inLen (c : BitVec 3) (n : BitVec 8) : (s.setCount c n).inLen = s.inLen := rfl
@[simp] theorem State.setCount_outMax (c : BitVec 3) (n : BitVec 8) : (s.setCount c n).outMax = s.outMax := rfl
@[simp] theorem State.setCount_outLen (c : BitVec 3) (n : BitVec 8) : (s.setCount c n).outLen = s.outLen := rfl
@[simp] theorem State.setCount_resultHdr (c : BitVec 3) (n : BitVec 8) : (s.setCount c n).resultHdr = s.resultHdr := rfl
@[simp] theorem State.setCount_ie (c : BitVec 3) (n : BitVec 8) : (s.setCount c n).ie = s.ie := rfl
@[simp] theorem State.setCount_attemptLen (c : BitVec 3) (n : BitVec 8) : (s.setCount c n).attemptLen = s.attemptLen := rfl
@[simp] theorem State.setCount_inMem (c : BitVec 3) (n : BitVec 8) : (s.setCount c n).inMem = s.inMem := rfl
@[simp] theorem State.setCount_outMem (c : BitVec 3) (n : BitVec 8) : (s.setCount c n).outMem = s.outMem := rfl
@[simp] theorem State.setCount_seq (c : BitVec 3) (n : BitVec 8) : (s.setCount c n).seq = s.seq := rfl
@[simp] theorem State.setCount_lenSnap (c : BitVec 3) (n : BitVec 8) : (s.setCount c n).lenSnap = s.lenSnap := rfl
@[simp] theorem State.setCount_outLimit (c : BitVec 3) (n : BitVec 8) : (s.setCount c n).outLimit = s.outLimit := rfl
@[simp] theorem State.setCount_hdr (c : BitVec 3) (n : BitVec 8) : (s.setCount c n).hdr = s.hdr := rfl
@[simp] theorem State.setCount_splitSel (c : BitVec 3) (n : BitVec 8) : (s.setCount c n).splitSel = s.splitSel := rfl
@[simp] theorem State.setCount_planes (c : BitVec 3) (n : BitVec 8) : (s.setCount c n).planes = s.planes := rfl
@[simp] theorem State.setCount_modelSel (c : BitVec 3) (n : BitVec 8) : (s.setCount c n).modelSel = s.modelSel := rfl
@[simp] theorem State.setCount_nbit (c : BitVec 3) (n : BitVec 8) : (s.setCount c n).nbit = s.nbit := rfl
@[simp] theorem State.setCount_hist (c : BitVec 3) (n : BitVec 8) : (s.setCount c n).hist = s.hist := rfl
@[simp] theorem State.setCount_slots (c : BitVec 3) (n : BitVec 8) : (s.setCount c n).slots = s.slots := rfl
@[simp] theorem State.setCount_runcnt (c : BitVec 3) (n : BitVec 8) : (s.setCount c n).runcnt = s.runcnt.set c.toNat n := rfl
@[simp] theorem State.setCount_chans (c : BitVec 3) (n : BitVec 8) : (s.setCount c n).chans = s.chans := rfl
@[simp] theorem State.setCount_tags (c : BitVec 3) (n : BitVec 8) : (s.setCount c n).tags = s.tags := rfl
@[simp] theorem State.setCount_att (c : BitVec 3) (n : BitVec 8) : (s.setCount c n).att = s.att := rfl
@[simp] theorem State.setCount_opos (c : BitVec 3) (n : BitVec 8) : (s.setCount c n).opos = s.opos := rfl
@[simp] theorem State.setCount_alen (c : BitVec 3) (n : BitVec 8) : (s.setCount c n).alen = s.alen := rfl
@[simp] theorem State.setCount_best (c : BitVec 3) (n : BitVec 8) : (s.setCount c n).best = s.best := rfl
@[simp] theorem State.setCount_bestLen (c : BitVec 3) (n : BitVec 8) : (s.setCount c n).bestLen = s.bestLen := rfl
@[simp] theorem State.setCount_bestHdr (c : BitVec 3) (n : BitVec 8) : (s.setCount c n).bestHdr = s.bestHdr := rfl
@[simp] theorem State.setCount_faulted (c : BitVec 3) (n : BitVec 8) : (s.setCount c n).faulted = s.faulted := rfl
@[simp] theorem State.setCount_wires (c : BitVec 3) (n : BitVec 8) : (s.setCount c n).wires = s.wires := rfl
@[simp] theorem State.setCount_host (c : BitVec 3) (n : BitVec 8) : (s.setCount c n).host = s.host := rfl
@[simp] theorem State.setCount_reads (c : BitVec 3) (n : BitVec 8) : (s.setCount c n).reads = s.reads := rfl
@[simp] theorem State.setCount_draws (c : BitVec 3) (n : BitVec 8) : (s.setCount c n).draws = s.draws := rfl
@[simp] theorem State.setCount_plane (c : BitVec 3) (n : BitVec 8) (q : BitVec 3) : (s.setCount c n).plane q = s.plane q := rfl
@[simp] theorem State.setCount_chan (c : BitVec 3) (n : BitVec 8) (q : BitVec 3) : (s.setCount c n).chan q = s.chan q := rfl
@[simp] theorem State.setCount_history (c : BitVec 3) (n : BitVec 8) (q : BitVec 3) : (s.setCount c n).history q = s.history q := rfl
@[simp] theorem State.setCount_slot (c : BitVec 3) (n : BitVec 8) (q : BitVec 5) : (s.setCount c n).slot q = s.slot q := rfl
@[simp] theorem State.setCount_attempt (c : BitVec 3) (n : BitVec 8) (q : BitVec 4) : (s.setCount c n).attempt q = s.attempt q := rfl

/-! ### setSlot -/

@[simp] theorem State.setSlot_cfg (x : BitVec 5) (v : Slot) : (s.setSlot x v).cfg = s.cfg := rfl
@[simp] theorem State.setSlot_status (x : BitVec 5) (v : Slot) : (s.setSlot x v).status = s.status := rfl
@[simp] theorem State.setSlot_inLen (x : BitVec 5) (v : Slot) : (s.setSlot x v).inLen = s.inLen := rfl
@[simp] theorem State.setSlot_outMax (x : BitVec 5) (v : Slot) : (s.setSlot x v).outMax = s.outMax := rfl
@[simp] theorem State.setSlot_outLen (x : BitVec 5) (v : Slot) : (s.setSlot x v).outLen = s.outLen := rfl
@[simp] theorem State.setSlot_resultHdr (x : BitVec 5) (v : Slot) : (s.setSlot x v).resultHdr = s.resultHdr := rfl
@[simp] theorem State.setSlot_ie (x : BitVec 5) (v : Slot) : (s.setSlot x v).ie = s.ie := rfl
@[simp] theorem State.setSlot_attemptLen (x : BitVec 5) (v : Slot) : (s.setSlot x v).attemptLen = s.attemptLen := rfl
@[simp] theorem State.setSlot_inMem (x : BitVec 5) (v : Slot) : (s.setSlot x v).inMem = s.inMem := rfl
@[simp] theorem State.setSlot_outMem (x : BitVec 5) (v : Slot) : (s.setSlot x v).outMem = s.outMem := rfl
@[simp] theorem State.setSlot_seq (x : BitVec 5) (v : Slot) : (s.setSlot x v).seq = s.seq := rfl
@[simp] theorem State.setSlot_lenSnap (x : BitVec 5) (v : Slot) : (s.setSlot x v).lenSnap = s.lenSnap := rfl
@[simp] theorem State.setSlot_outLimit (x : BitVec 5) (v : Slot) : (s.setSlot x v).outLimit = s.outLimit := rfl
@[simp] theorem State.setSlot_hdr (x : BitVec 5) (v : Slot) : (s.setSlot x v).hdr = s.hdr := rfl
@[simp] theorem State.setSlot_splitSel (x : BitVec 5) (v : Slot) : (s.setSlot x v).splitSel = s.splitSel := rfl
@[simp] theorem State.setSlot_planes (x : BitVec 5) (v : Slot) : (s.setSlot x v).planes = s.planes := rfl
@[simp] theorem State.setSlot_modelSel (x : BitVec 5) (v : Slot) : (s.setSlot x v).modelSel = s.modelSel := rfl
@[simp] theorem State.setSlot_nbit (x : BitVec 5) (v : Slot) : (s.setSlot x v).nbit = s.nbit := rfl
@[simp] theorem State.setSlot_hist (x : BitVec 5) (v : Slot) : (s.setSlot x v).hist = s.hist := rfl
@[simp] theorem State.setSlot_slots (x : BitVec 5) (v : Slot) : (s.setSlot x v).slots = s.slots.set x.toNat v := rfl
@[simp] theorem State.setSlot_runcnt (x : BitVec 5) (v : Slot) : (s.setSlot x v).runcnt = s.runcnt := rfl
@[simp] theorem State.setSlot_chans (x : BitVec 5) (v : Slot) : (s.setSlot x v).chans = s.chans := rfl
@[simp] theorem State.setSlot_tags (x : BitVec 5) (v : Slot) : (s.setSlot x v).tags = s.tags := rfl
@[simp] theorem State.setSlot_att (x : BitVec 5) (v : Slot) : (s.setSlot x v).att = s.att := rfl
@[simp] theorem State.setSlot_opos (x : BitVec 5) (v : Slot) : (s.setSlot x v).opos = s.opos := rfl
@[simp] theorem State.setSlot_alen (x : BitVec 5) (v : Slot) : (s.setSlot x v).alen = s.alen := rfl
@[simp] theorem State.setSlot_best (x : BitVec 5) (v : Slot) : (s.setSlot x v).best = s.best := rfl
@[simp] theorem State.setSlot_bestLen (x : BitVec 5) (v : Slot) : (s.setSlot x v).bestLen = s.bestLen := rfl
@[simp] theorem State.setSlot_bestHdr (x : BitVec 5) (v : Slot) : (s.setSlot x v).bestHdr = s.bestHdr := rfl
@[simp] theorem State.setSlot_faulted (x : BitVec 5) (v : Slot) : (s.setSlot x v).faulted = s.faulted := rfl
@[simp] theorem State.setSlot_wires (x : BitVec 5) (v : Slot) : (s.setSlot x v).wires = s.wires := rfl
@[simp] theorem State.setSlot_host (x : BitVec 5) (v : Slot) : (s.setSlot x v).host = s.host := rfl
@[simp] theorem State.setSlot_reads (x : BitVec 5) (v : Slot) : (s.setSlot x v).reads = s.reads := rfl
@[simp] theorem State.setSlot_draws (x : BitVec 5) (v : Slot) : (s.setSlot x v).draws = s.draws := rfl
@[simp] theorem State.setSlot_plane (x : BitVec 5) (v : Slot) (q : BitVec 3) : (s.setSlot x v).plane q = s.plane q := rfl
@[simp] theorem State.setSlot_chan (x : BitVec 5) (v : Slot) (q : BitVec 3) : (s.setSlot x v).chan q = s.chan q := rfl
@[simp] theorem State.setSlot_history (x : BitVec 5) (v : Slot) (q : BitVec 3) : (s.setSlot x v).history q = s.history q := rfl
@[simp] theorem State.setSlot_count (x : BitVec 5) (v : Slot) (q : BitVec 3) : (s.setSlot x v).count q = s.count q := rfl
@[simp] theorem State.setSlot_attempt (x : BitVec 5) (v : Slot) (q : BitVec 4) : (s.setSlot x v).attempt q = s.attempt q := rfl

/-! ### setAttempt -/

@[simp] theorem State.setAttempt_cfg (h : BitVec 4) (w : Word) : (s.setAttempt h w).cfg = s.cfg := rfl
@[simp] theorem State.setAttempt_status (h : BitVec 4) (w : Word) : (s.setAttempt h w).status = s.status := rfl
@[simp] theorem State.setAttempt_inLen (h : BitVec 4) (w : Word) : (s.setAttempt h w).inLen = s.inLen := rfl
@[simp] theorem State.setAttempt_outMax (h : BitVec 4) (w : Word) : (s.setAttempt h w).outMax = s.outMax := rfl
@[simp] theorem State.setAttempt_outLen (h : BitVec 4) (w : Word) : (s.setAttempt h w).outLen = s.outLen := rfl
@[simp] theorem State.setAttempt_resultHdr (h : BitVec 4) (w : Word) : (s.setAttempt h w).resultHdr = s.resultHdr := rfl
@[simp] theorem State.setAttempt_ie (h : BitVec 4) (w : Word) : (s.setAttempt h w).ie = s.ie := rfl
@[simp] theorem State.setAttempt_attemptLen (h : BitVec 4) (w : Word) : (s.setAttempt h w).attemptLen = s.attemptLen.set h.toNat w := rfl
@[simp] theorem State.setAttempt_inMem (h : BitVec 4) (w : Word) : (s.setAttempt h w).inMem = s.inMem := rfl
@[simp] theorem State.setAttempt_outMem (h : BitVec 4) (w : Word) : (s.setAttempt h w).outMem = s.outMem := rfl
@[simp] theorem State.setAttempt_seq (h : BitVec 4) (w : Word) : (s.setAttempt h w).seq = s.seq := rfl
@[simp] theorem State.setAttempt_lenSnap (h : BitVec 4) (w : Word) : (s.setAttempt h w).lenSnap = s.lenSnap := rfl
@[simp] theorem State.setAttempt_outLimit (h : BitVec 4) (w : Word) : (s.setAttempt h w).outLimit = s.outLimit := rfl
@[simp] theorem State.setAttempt_hdr (h : BitVec 4) (w : Word) : (s.setAttempt h w).hdr = s.hdr := rfl
@[simp] theorem State.setAttempt_splitSel (h : BitVec 4) (w : Word) : (s.setAttempt h w).splitSel = s.splitSel := rfl
@[simp] theorem State.setAttempt_planes (h : BitVec 4) (w : Word) : (s.setAttempt h w).planes = s.planes := rfl
@[simp] theorem State.setAttempt_modelSel (h : BitVec 4) (w : Word) : (s.setAttempt h w).modelSel = s.modelSel := rfl
@[simp] theorem State.setAttempt_nbit (h : BitVec 4) (w : Word) : (s.setAttempt h w).nbit = s.nbit := rfl
@[simp] theorem State.setAttempt_hist (h : BitVec 4) (w : Word) : (s.setAttempt h w).hist = s.hist := rfl
@[simp] theorem State.setAttempt_slots (h : BitVec 4) (w : Word) : (s.setAttempt h w).slots = s.slots := rfl
@[simp] theorem State.setAttempt_runcnt (h : BitVec 4) (w : Word) : (s.setAttempt h w).runcnt = s.runcnt := rfl
@[simp] theorem State.setAttempt_chans (h : BitVec 4) (w : Word) : (s.setAttempt h w).chans = s.chans := rfl
@[simp] theorem State.setAttempt_tags (h : BitVec 4) (w : Word) : (s.setAttempt h w).tags = s.tags := rfl
@[simp] theorem State.setAttempt_att (h : BitVec 4) (w : Word) : (s.setAttempt h w).att = s.att := rfl
@[simp] theorem State.setAttempt_opos (h : BitVec 4) (w : Word) : (s.setAttempt h w).opos = s.opos := rfl
@[simp] theorem State.setAttempt_alen (h : BitVec 4) (w : Word) : (s.setAttempt h w).alen = s.alen := rfl
@[simp] theorem State.setAttempt_best (h : BitVec 4) (w : Word) : (s.setAttempt h w).best = s.best := rfl
@[simp] theorem State.setAttempt_bestLen (h : BitVec 4) (w : Word) : (s.setAttempt h w).bestLen = s.bestLen := rfl
@[simp] theorem State.setAttempt_bestHdr (h : BitVec 4) (w : Word) : (s.setAttempt h w).bestHdr = s.bestHdr := rfl
@[simp] theorem State.setAttempt_faulted (h : BitVec 4) (w : Word) : (s.setAttempt h w).faulted = s.faulted := rfl
@[simp] theorem State.setAttempt_wires (h : BitVec 4) (w : Word) : (s.setAttempt h w).wires = s.wires := rfl
@[simp] theorem State.setAttempt_host (h : BitVec 4) (w : Word) : (s.setAttempt h w).host = s.host := rfl
@[simp] theorem State.setAttempt_reads (h : BitVec 4) (w : Word) : (s.setAttempt h w).reads = s.reads := rfl
@[simp] theorem State.setAttempt_draws (h : BitVec 4) (w : Word) : (s.setAttempt h w).draws = s.draws := rfl
@[simp] theorem State.setAttempt_plane (h : BitVec 4) (w : Word) (q : BitVec 3) : (s.setAttempt h w).plane q = s.plane q := rfl
@[simp] theorem State.setAttempt_chan (h : BitVec 4) (w : Word) (q : BitVec 3) : (s.setAttempt h w).chan q = s.chan q := rfl
@[simp] theorem State.setAttempt_history (h : BitVec 4) (w : Word) (q : BitVec 3) : (s.setAttempt h w).history q = s.history q := rfl
@[simp] theorem State.setAttempt_count (h : BitVec 4) (w : Word) (q : BitVec 3) : (s.setAttempt h w).count q = s.count q := rfl
@[simp] theorem State.setAttempt_slot (h : BitVec 4) (w : Word) (q : BitVec 5) : (s.setAttempt h w).slot q = s.slot q := rfl

/-! ### goto -/

@[simp] theorem State.goto_cfg (l : BitVec 8) (i : Word) : (s.goto l i).cfg = s.cfg := rfl
@[simp] theorem State.goto_status (l : BitVec 8) (i : Word) : (s.goto l i).status = s.status := rfl
@[simp] theorem State.goto_inLen (l : BitVec 8) (i : Word) : (s.goto l i).inLen = s.inLen := rfl
@[simp] theorem State.goto_outMax (l : BitVec 8) (i : Word) : (s.goto l i).outMax = s.outMax := rfl
@[simp] theorem State.goto_outLen (l : BitVec 8) (i : Word) : (s.goto l i).outLen = s.outLen := rfl
@[simp] theorem State.goto_resultHdr (l : BitVec 8) (i : Word) : (s.goto l i).resultHdr = s.resultHdr := rfl
@[simp] theorem State.goto_ie (l : BitVec 8) (i : Word) : (s.goto l i).ie = s.ie := rfl
@[simp] theorem State.goto_attemptLen (l : BitVec 8) (i : Word) : (s.goto l i).attemptLen = s.attemptLen := rfl
@[simp] theorem State.goto_inMem (l : BitVec 8) (i : Word) : (s.goto l i).inMem = s.inMem := rfl
@[simp] theorem State.goto_outMem (l : BitVec 8) (i : Word) : (s.goto l i).outMem = s.outMem := rfl
@[simp] theorem State.goto_seq (l : BitVec 8) (i : Word) : (s.goto l i).seq = { s.seq with uop := l, idx := i } := rfl
@[simp] theorem State.goto_lenSnap (l : BitVec 8) (i : Word) : (s.goto l i).lenSnap = s.lenSnap := rfl
@[simp] theorem State.goto_outLimit (l : BitVec 8) (i : Word) : (s.goto l i).outLimit = s.outLimit := rfl
@[simp] theorem State.goto_hdr (l : BitVec 8) (i : Word) : (s.goto l i).hdr = s.hdr := rfl
@[simp] theorem State.goto_splitSel (l : BitVec 8) (i : Word) : (s.goto l i).splitSel = s.splitSel := rfl
@[simp] theorem State.goto_planes (l : BitVec 8) (i : Word) : (s.goto l i).planes = s.planes := rfl
@[simp] theorem State.goto_modelSel (l : BitVec 8) (i : Word) : (s.goto l i).modelSel = s.modelSel := rfl
@[simp] theorem State.goto_nbit (l : BitVec 8) (i : Word) : (s.goto l i).nbit = s.nbit := rfl
@[simp] theorem State.goto_hist (l : BitVec 8) (i : Word) : (s.goto l i).hist = s.hist := rfl
@[simp] theorem State.goto_slots (l : BitVec 8) (i : Word) : (s.goto l i).slots = s.slots := rfl
@[simp] theorem State.goto_runcnt (l : BitVec 8) (i : Word) : (s.goto l i).runcnt = s.runcnt := rfl
@[simp] theorem State.goto_chans (l : BitVec 8) (i : Word) : (s.goto l i).chans = s.chans := rfl
@[simp] theorem State.goto_tags (l : BitVec 8) (i : Word) : (s.goto l i).tags = s.tags := rfl
@[simp] theorem State.goto_att (l : BitVec 8) (i : Word) : (s.goto l i).att = s.att := rfl
@[simp] theorem State.goto_opos (l : BitVec 8) (i : Word) : (s.goto l i).opos = s.opos := rfl
@[simp] theorem State.goto_alen (l : BitVec 8) (i : Word) : (s.goto l i).alen = s.alen := rfl
@[simp] theorem State.goto_best (l : BitVec 8) (i : Word) : (s.goto l i).best = s.best := rfl
@[simp] theorem State.goto_bestLen (l : BitVec 8) (i : Word) : (s.goto l i).bestLen = s.bestLen := rfl
@[simp] theorem State.goto_bestHdr (l : BitVec 8) (i : Word) : (s.goto l i).bestHdr = s.bestHdr := rfl
@[simp] theorem State.goto_faulted (l : BitVec 8) (i : Word) : (s.goto l i).faulted = s.faulted := rfl
@[simp] theorem State.goto_wires (l : BitVec 8) (i : Word) : (s.goto l i).wires = s.wires := rfl
@[simp] theorem State.goto_host (l : BitVec 8) (i : Word) : (s.goto l i).host = s.host := rfl
@[simp] theorem State.goto_reads (l : BitVec 8) (i : Word) : (s.goto l i).reads = s.reads := rfl
@[simp] theorem State.goto_draws (l : BitVec 8) (i : Word) : (s.goto l i).draws = s.draws := rfl
@[simp] theorem State.goto_plane (l : BitVec 8) (i : Word) (q : BitVec 3) : (s.goto l i).plane q = s.plane q := rfl
@[simp] theorem State.goto_chan (l : BitVec 8) (i : Word) (q : BitVec 3) : (s.goto l i).chan q = s.chan q := rfl
@[simp] theorem State.goto_history (l : BitVec 8) (i : Word) (q : BitVec 3) : (s.goto l i).history q = s.history q := rfl
@[simp] theorem State.goto_count (l : BitVec 8) (i : Word) (q : BitVec 3) : (s.goto l i).count q = s.count q := rfl
@[simp] theorem State.goto_slot (l : BitVec 8) (i : Word) (q : BitVec 5) : (s.goto l i).slot q = s.slot q := rfl
@[simp] theorem State.goto_attempt (l : BitVec 8) (i : Word) (q : BitVec 4) : (s.goto l i).attempt q = s.attempt q := rfl

/-! ### internalFault -/

@[simp] theorem State.internalFault_cfg : (s.internalFault).cfg = s.cfg := rfl
@[simp] theorem State.internalFault_status : (s.internalFault).status = s.status := rfl
@[simp] theorem State.internalFault_inLen : (s.internalFault).inLen = s.inLen := rfl
@[simp] theorem State.internalFault_outMax : (s.internalFault).outMax = s.outMax := rfl
@[simp] theorem State.internalFault_outLen : (s.internalFault).outLen = s.outLen := rfl
@[simp] theorem State.internalFault_resultHdr : (s.internalFault).resultHdr = s.resultHdr := rfl
@[simp] theorem State.internalFault_ie : (s.internalFault).ie = s.ie := rfl
@[simp] theorem State.internalFault_attemptLen : (s.internalFault).attemptLen = s.attemptLen := rfl
@[simp] theorem State.internalFault_inMem : (s.internalFault).inMem = s.inMem := rfl
@[simp] theorem State.internalFault_outMem : (s.internalFault).outMem = s.outMem := rfl
@[simp] theorem State.internalFault_seq : (s.internalFault).seq = { s.seq with uop := Label.orcSelect, idx := 0 } := rfl
@[simp] theorem State.internalFault_lenSnap : (s.internalFault).lenSnap = s.lenSnap := rfl
@[simp] theorem State.internalFault_outLimit : (s.internalFault).outLimit = s.outLimit := rfl
@[simp] theorem State.internalFault_hdr : (s.internalFault).hdr = s.hdr := rfl
@[simp] theorem State.internalFault_splitSel : (s.internalFault).splitSel = s.splitSel := rfl
@[simp] theorem State.internalFault_planes : (s.internalFault).planes = s.planes := rfl
@[simp] theorem State.internalFault_modelSel : (s.internalFault).modelSel = s.modelSel := rfl
@[simp] theorem State.internalFault_nbit : (s.internalFault).nbit = s.nbit := rfl
@[simp] theorem State.internalFault_hist : (s.internalFault).hist = s.hist := rfl
@[simp] theorem State.internalFault_slots : (s.internalFault).slots = s.slots := rfl
@[simp] theorem State.internalFault_runcnt : (s.internalFault).runcnt = s.runcnt := rfl
@[simp] theorem State.internalFault_chans : (s.internalFault).chans = s.chans := rfl
@[simp] theorem State.internalFault_tags : (s.internalFault).tags = s.tags := rfl
@[simp] theorem State.internalFault_att : (s.internalFault).att = s.att := rfl
@[simp] theorem State.internalFault_opos : (s.internalFault).opos = s.opos := rfl
@[simp] theorem State.internalFault_alen : (s.internalFault).alen = .inf := rfl
@[simp] theorem State.internalFault_best : (s.internalFault).best = s.best := rfl
@[simp] theorem State.internalFault_bestLen : (s.internalFault).bestLen = s.bestLen := rfl
@[simp] theorem State.internalFault_bestHdr : (s.internalFault).bestHdr = s.bestHdr := rfl
@[simp] theorem State.internalFault_faulted : (s.internalFault).faulted = true := rfl
@[simp] theorem State.internalFault_wires : (s.internalFault).wires = s.wires := rfl
@[simp] theorem State.internalFault_host : (s.internalFault).host = s.host := rfl
@[simp] theorem State.internalFault_reads : (s.internalFault).reads = s.reads := rfl
@[simp] theorem State.internalFault_draws : (s.internalFault).draws = s.draws := rfl
@[simp] theorem State.internalFault_plane (q : BitVec 3) : (s.internalFault).plane q = s.plane q := rfl
@[simp] theorem State.internalFault_chan (q : BitVec 3) : (s.internalFault).chan q = s.chan q := rfl
@[simp] theorem State.internalFault_history (q : BitVec 3) : (s.internalFault).history q = s.history q := rfl
@[simp] theorem State.internalFault_count (q : BitVec 3) : (s.internalFault).count q = s.count q := rfl
@[simp] theorem State.internalFault_slot (q : BitVec 5) : (s.internalFault).slot q = s.slot q := rfl
@[simp] theorem State.internalFault_attempt (q : BitVec 4) : (s.internalFault).attempt q = s.attempt q := rfl

/-! ### failCommand -/

@[simp] theorem State.failCommand_cfg (e : CommandError) : (s.failCommand e).cfg = s.cfg := rfl
@[simp] theorem State.failCommand_status (e : CommandError) : (s.failCommand e).status = statusFailed e s.status := rfl
@[simp] theorem State.failCommand_inLen (e : CommandError) : (s.failCommand e).inLen = s.inLen := rfl
@[simp] theorem State.failCommand_outMax (e : CommandError) : (s.failCommand e).outMax = s.outMax := rfl
@[simp] theorem State.failCommand_outLen (e : CommandError) : (s.failCommand e).outLen = 0 := rfl
@[simp] theorem State.failCommand_resultHdr (e : CommandError) : (s.failCommand e).resultHdr = 0 := rfl
@[simp] theorem State.failCommand_ie (e : CommandError) : (s.failCommand e).ie = s.ie := rfl
@[simp] theorem State.failCommand_attemptLen (e : CommandError) : (s.failCommand e).attemptLen = s.attemptLen := rfl
@[simp] theorem State.failCommand_inMem (e : CommandError) : (s.failCommand e).inMem = s.inMem := rfl
@[simp] theorem State.failCommand_outMem (e : CommandError) : (s.failCommand e).outMem = s.outMem := rfl
@[simp] theorem State.failCommand_seq (e : CommandError) : (s.failCommand e).seq = { s.seq with phase := .idle } := rfl
@[simp] theorem State.failCommand_lenSnap (e : CommandError) : (s.failCommand e).lenSnap = s.lenSnap := rfl
@[simp] theorem State.failCommand_outLimit (e : CommandError) : (s.failCommand e).outLimit = s.outLimit := rfl
@[simp] theorem State.failCommand_hdr (e : CommandError) : (s.failCommand e).hdr = s.hdr := rfl
@[simp] theorem State.failCommand_splitSel (e : CommandError) : (s.failCommand e).splitSel = s.splitSel := rfl
@[simp] theorem State.failCommand_planes (e : CommandError) : (s.failCommand e).planes = s.planes := rfl
@[simp] theorem State.failCommand_modelSel (e : CommandError) : (s.failCommand e).modelSel = s.modelSel := rfl
@[simp] theorem State.failCommand_nbit (e : CommandError) : (s.failCommand e).nbit = s.nbit := rfl
@[simp] theorem State.failCommand_hist (e : CommandError) : (s.failCommand e).hist = s.hist := rfl
@[simp] theorem State.failCommand_slots (e : CommandError) : (s.failCommand e).slots = s.slots := rfl
@[simp] theorem State.failCommand_runcnt (e : CommandError) : (s.failCommand e).runcnt = s.runcnt := rfl
@[simp] theorem State.failCommand_chans (e : CommandError) : (s.failCommand e).chans = s.chans := rfl
@[simp] theorem State.failCommand_tags (e : CommandError) : (s.failCommand e).tags = s.tags := rfl
@[simp] theorem State.failCommand_att (e : CommandError) : (s.failCommand e).att = s.att := rfl
@[simp] theorem State.failCommand_opos (e : CommandError) : (s.failCommand e).opos = s.opos := rfl
@[simp] theorem State.failCommand_alen (e : CommandError) : (s.failCommand e).alen = s.alen := rfl
@[simp] theorem State.failCommand_best (e : CommandError) : (s.failCommand e).best = s.best := rfl
@[simp] theorem State.failCommand_bestLen (e : CommandError) : (s.failCommand e).bestLen = s.bestLen := rfl
@[simp] theorem State.failCommand_bestHdr (e : CommandError) : (s.failCommand e).bestHdr = s.bestHdr := rfl
@[simp] theorem State.failCommand_faulted (e : CommandError) : (s.failCommand e).faulted = s.faulted := rfl
@[simp] theorem State.failCommand_wires (e : CommandError) : (s.failCommand e).wires = s.wires := rfl
@[simp] theorem State.failCommand_host (e : CommandError) : (s.failCommand e).host = s.host := rfl
@[simp] theorem State.failCommand_reads (e : CommandError) : (s.failCommand e).reads = s.reads := rfl
@[simp] theorem State.failCommand_draws (e : CommandError) : (s.failCommand e).draws = s.draws := rfl
@[simp] theorem State.failCommand_plane (e : CommandError) (q : BitVec 3) : (s.failCommand e).plane q = s.plane q := rfl
@[simp] theorem State.failCommand_chan (e : CommandError) (q : BitVec 3) : (s.failCommand e).chan q = s.chan q := rfl
@[simp] theorem State.failCommand_history (e : CommandError) (q : BitVec 3) : (s.failCommand e).history q = s.history q := rfl
@[simp] theorem State.failCommand_count (e : CommandError) (q : BitVec 3) : (s.failCommand e).count q = s.count q := rfl
@[simp] theorem State.failCommand_slot (e : CommandError) (q : BitVec 5) : (s.failCommand e).slot q = s.slot q := rfl
@[simp] theorem State.failCommand_attempt (e : CommandError) (q : BitVec 4) : (s.failCommand e).attempt q = s.attempt q := rfl

/-! ### acknowledge -/

@[simp] theorem State.acknowledge_cfg : (s.acknowledge).cfg = s.cfg := rfl
@[simp] theorem State.acknowledge_status : (s.acknowledge).status = statusCleared s.status := rfl
@[simp] theorem State.acknowledge_inLen : (s.acknowledge).inLen = s.inLen := rfl
@[simp] theorem State.acknowledge_outMax : (s.acknowledge).outMax = s.outMax := rfl
@[simp] theorem State.acknowledge_outLen : (s.acknowledge).outLen = s.outLen := rfl
@[simp] theorem State.acknowledge_resultHdr : (s.acknowledge).resultHdr = s.resultHdr := rfl
@[simp] theorem State.acknowledge_ie : (s.acknowledge).ie = s.ie := rfl
@[simp] theorem State.acknowledge_attemptLen : (s.acknowledge).attemptLen = s.attemptLen := rfl
@[simp] theorem State.acknowledge_inMem : (s.acknowledge).inMem = s.inMem := rfl
@[simp] theorem State.acknowledge_outMem : (s.acknowledge).outMem = s.outMem := rfl
@[simp] theorem State.acknowledge_seq : (s.acknowledge).seq = s.seq := rfl
@[simp] theorem State.acknowledge_lenSnap : (s.acknowledge).lenSnap = s.lenSnap := rfl
@[simp] theorem State.acknowledge_outLimit : (s.acknowledge).outLimit = s.outLimit := rfl
@[simp] theorem State.acknowledge_hdr : (s.acknowledge).hdr = s.hdr := rfl
@[simp] theorem State.acknowledge_splitSel : (s.acknowledge).splitSel = s.splitSel := rfl
@[simp] theorem State.acknowledge_planes : (s.acknowledge).planes = s.planes := rfl
@[simp] theorem State.acknowledge_modelSel : (s.acknowledge).modelSel = s.modelSel := rfl
@[simp] theorem State.acknowledge_nbit : (s.acknowledge).nbit = s.nbit := rfl
@[simp] theorem State.acknowledge_hist : (s.acknowledge).hist = s.hist := rfl
@[simp] theorem State.acknowledge_slots : (s.acknowledge).slots = s.slots := rfl
@[simp] theorem State.acknowledge_runcnt : (s.acknowledge).runcnt = s.runcnt := rfl
@[simp] theorem State.acknowledge_chans : (s.acknowledge).chans = s.chans := rfl
@[simp] theorem State.acknowledge_tags : (s.acknowledge).tags = s.tags := rfl
@[simp] theorem State.acknowledge_att : (s.acknowledge).att = s.att := rfl
@[simp] theorem State.acknowledge_opos : (s.acknowledge).opos = s.opos := rfl
@[simp] theorem State.acknowledge_alen : (s.acknowledge).alen = s.alen := rfl
@[simp] theorem State.acknowledge_best : (s.acknowledge).best = s.best := rfl
@[simp] theorem State.acknowledge_bestLen : (s.acknowledge).bestLen = s.bestLen := rfl
@[simp] theorem State.acknowledge_bestHdr : (s.acknowledge).bestHdr = s.bestHdr := rfl
@[simp] theorem State.acknowledge_faulted : (s.acknowledge).faulted = s.faulted := rfl
@[simp] theorem State.acknowledge_wires : (s.acknowledge).wires = s.wires := rfl
@[simp] theorem State.acknowledge_host : (s.acknowledge).host = s.host := rfl
@[simp] theorem State.acknowledge_reads : (s.acknowledge).reads = s.reads := rfl
@[simp] theorem State.acknowledge_draws : (s.acknowledge).draws = s.draws := rfl
@[simp] theorem State.acknowledge_plane (q : BitVec 3) : (s.acknowledge).plane q = s.plane q := rfl
@[simp] theorem State.acknowledge_chan (q : BitVec 3) : (s.acknowledge).chan q = s.chan q := rfl
@[simp] theorem State.acknowledge_history (q : BitVec 3) : (s.acknowledge).history q = s.history q := rfl
@[simp] theorem State.acknowledge_count (q : BitVec 3) : (s.acknowledge).count q = s.count q := rfl
@[simp] theorem State.acknowledge_slot (q : BitVec 5) : (s.acknowledge).slot q = s.slot q := rfl
@[simp] theorem State.acknowledge_attempt (q : BitVec 4) : (s.acknowledge).attempt q = s.attempt q := rfl

/-! ### overrun -/

@[simp] theorem State.overrun_cfg : (s.overrun).cfg = s.cfg := rfl
@[simp] theorem State.overrun_status : (s.overrun).status = statusOverrun s.status := rfl
@[simp] theorem State.overrun_inLen : (s.overrun).inLen = s.inLen := rfl
@[simp] theorem State.overrun_outMax : (s.overrun).outMax = s.outMax := rfl
@[simp] theorem State.overrun_outLen : (s.overrun).outLen = s.outLen := rfl
@[simp] theorem State.overrun_resultHdr : (s.overrun).resultHdr = s.resultHdr := rfl
@[simp] theorem State.overrun_ie : (s.overrun).ie = s.ie := rfl
@[simp] theorem State.overrun_attemptLen : (s.overrun).attemptLen = s.attemptLen := rfl
@[simp] theorem State.overrun_inMem : (s.overrun).inMem = s.inMem := rfl
@[simp] theorem State.overrun_outMem : (s.overrun).outMem = s.outMem := rfl
@[simp] theorem State.overrun_seq : (s.overrun).seq = s.seq := rfl
@[simp] theorem State.overrun_lenSnap : (s.overrun).lenSnap = s.lenSnap := rfl
@[simp] theorem State.overrun_outLimit : (s.overrun).outLimit = s.outLimit := rfl
@[simp] theorem State.overrun_hdr : (s.overrun).hdr = s.hdr := rfl
@[simp] theorem State.overrun_splitSel : (s.overrun).splitSel = s.splitSel := rfl
@[simp] theorem State.overrun_planes : (s.overrun).planes = s.planes := rfl
@[simp] theorem State.overrun_modelSel : (s.overrun).modelSel = s.modelSel := rfl
@[simp] theorem State.overrun_nbit : (s.overrun).nbit = s.nbit := rfl
@[simp] theorem State.overrun_hist : (s.overrun).hist = s.hist := rfl
@[simp] theorem State.overrun_slots : (s.overrun).slots = s.slots := rfl
@[simp] theorem State.overrun_runcnt : (s.overrun).runcnt = s.runcnt := rfl
@[simp] theorem State.overrun_chans : (s.overrun).chans = s.chans := rfl
@[simp] theorem State.overrun_tags : (s.overrun).tags = s.tags := rfl
@[simp] theorem State.overrun_att : (s.overrun).att = s.att := rfl
@[simp] theorem State.overrun_opos : (s.overrun).opos = s.opos := rfl
@[simp] theorem State.overrun_alen : (s.overrun).alen = s.alen := rfl
@[simp] theorem State.overrun_best : (s.overrun).best = s.best := rfl
@[simp] theorem State.overrun_bestLen : (s.overrun).bestLen = s.bestLen := rfl
@[simp] theorem State.overrun_bestHdr : (s.overrun).bestHdr = s.bestHdr := rfl
@[simp] theorem State.overrun_faulted : (s.overrun).faulted = s.faulted := rfl
@[simp] theorem State.overrun_wires : (s.overrun).wires = s.wires := rfl
@[simp] theorem State.overrun_host : (s.overrun).host = s.host := rfl
@[simp] theorem State.overrun_reads : (s.overrun).reads = s.reads := rfl
@[simp] theorem State.overrun_draws : (s.overrun).draws = s.draws := rfl
@[simp] theorem State.overrun_plane (q : BitVec 3) : (s.overrun).plane q = s.plane q := rfl
@[simp] theorem State.overrun_chan (q : BitVec 3) : (s.overrun).chan q = s.chan q := rfl
@[simp] theorem State.overrun_history (q : BitVec 3) : (s.overrun).history q = s.history q := rfl
@[simp] theorem State.overrun_count (q : BitVec 3) : (s.overrun).count q = s.count q := rfl
@[simp] theorem State.overrun_slot (q : BitVec 5) : (s.overrun).slot q = s.slot q := rfl
@[simp] theorem State.overrun_attempt (q : BitVec 4) : (s.overrun).attempt q = s.attempt q := rfl

/-! ### tagPut -/

@[simp] theorem State.tagPut_cfg (c : BitVec 3) : (s.tagPut c).cfg = s.cfg := rfl
@[simp] theorem State.tagPut_status (c : BitVec 3) : (s.tagPut c).status = s.status := rfl
@[simp] theorem State.tagPut_inLen (c : BitVec 3) : (s.tagPut c).inLen = s.inLen := rfl
@[simp] theorem State.tagPut_outMax (c : BitVec 3) : (s.tagPut c).outMax = s.outMax := rfl
@[simp] theorem State.tagPut_outLen (c : BitVec 3) : (s.tagPut c).outLen = s.outLen := rfl
@[simp] theorem State.tagPut_resultHdr (c : BitVec 3) : (s.tagPut c).resultHdr = s.resultHdr := rfl
@[simp] theorem State.tagPut_ie (c : BitVec 3) : (s.tagPut c).ie = s.ie := rfl
@[simp] theorem State.tagPut_attemptLen (c : BitVec 3) : (s.tagPut c).attemptLen = s.attemptLen := rfl
@[simp] theorem State.tagPut_inMem (c : BitVec 3) : (s.tagPut c).inMem = s.inMem := rfl
@[simp] theorem State.tagPut_outMem (c : BitVec 3) : (s.tagPut c).outMem = s.outMem := rfl
@[simp] theorem State.tagPut_seq (c : BitVec 3) : (s.tagPut c).seq = s.seq := rfl
@[simp] theorem State.tagPut_lenSnap (c : BitVec 3) : (s.tagPut c).lenSnap = s.lenSnap := rfl
@[simp] theorem State.tagPut_outLimit (c : BitVec 3) : (s.tagPut c).outLimit = s.outLimit := rfl
@[simp] theorem State.tagPut_hdr (c : BitVec 3) : (s.tagPut c).hdr = s.hdr := rfl
@[simp] theorem State.tagPut_splitSel (c : BitVec 3) : (s.tagPut c).splitSel = s.splitSel := rfl
@[simp] theorem State.tagPut_planes (c : BitVec 3) : (s.tagPut c).planes = s.planes := rfl
@[simp] theorem State.tagPut_modelSel (c : BitVec 3) : (s.tagPut c).modelSel = s.modelSel := rfl
@[simp] theorem State.tagPut_nbit (c : BitVec 3) : (s.tagPut c).nbit = s.nbit := rfl
@[simp] theorem State.tagPut_hist (c : BitVec 3) : (s.tagPut c).hist = s.hist := rfl
@[simp] theorem State.tagPut_slots (c : BitVec 3) : (s.tagPut c).slots = s.slots := rfl
@[simp] theorem State.tagPut_runcnt (c : BitVec 3) : (s.tagPut c).runcnt = s.runcnt := rfl
@[simp] theorem State.tagPut_chans (c : BitVec 3) : (s.tagPut c).chans = s.chans := rfl
@[simp] theorem State.tagPut_tags (c : BitVec 3) : (s.tagPut c).tags = s.tags ++ [c] := rfl
@[simp] theorem State.tagPut_att (c : BitVec 3) : (s.tagPut c).att = s.att := rfl
@[simp] theorem State.tagPut_opos (c : BitVec 3) : (s.tagPut c).opos = s.opos := rfl
@[simp] theorem State.tagPut_alen (c : BitVec 3) : (s.tagPut c).alen = s.alen := rfl
@[simp] theorem State.tagPut_best (c : BitVec 3) : (s.tagPut c).best = s.best := rfl
@[simp] theorem State.tagPut_bestLen (c : BitVec 3) : (s.tagPut c).bestLen = s.bestLen := rfl
@[simp] theorem State.tagPut_bestHdr (c : BitVec 3) : (s.tagPut c).bestHdr = s.bestHdr := rfl
@[simp] theorem State.tagPut_faulted (c : BitVec 3) : (s.tagPut c).faulted = s.faulted := rfl
@[simp] theorem State.tagPut_wires (c : BitVec 3) : (s.tagPut c).wires = s.wires := rfl
@[simp] theorem State.tagPut_host (c : BitVec 3) : (s.tagPut c).host = s.host := rfl
@[simp] theorem State.tagPut_reads (c : BitVec 3) : (s.tagPut c).reads = s.reads := rfl
@[simp] theorem State.tagPut_draws (c : BitVec 3) : (s.tagPut c).draws = s.draws := rfl
@[simp] theorem State.tagPut_plane (c : BitVec 3) (q : BitVec 3) : (s.tagPut c).plane q = s.plane q := rfl
@[simp] theorem State.tagPut_chan (c : BitVec 3) (q : BitVec 3) : (s.tagPut c).chan q = s.chan q := rfl
@[simp] theorem State.tagPut_history (c : BitVec 3) (q : BitVec 3) : (s.tagPut c).history q = s.history q := rfl
@[simp] theorem State.tagPut_count (c : BitVec 3) (q : BitVec 3) : (s.tagPut c).count q = s.count q := rfl
@[simp] theorem State.tagPut_slot (c : BitVec 3) (q : BitVec 5) : (s.tagPut c).slot q = s.slot q := rfl
@[simp] theorem State.tagPut_attempt (c : BitVec 3) (q : BitVec 4) : (s.tagPut c).attempt q = s.attempt q := rfl

/-! ### chanPut -/

@[simp] theorem State.chanPut_cfg (c : BitVec 3) (bs : List Bit) : (s.chanPut c bs).cfg = s.cfg := rfl
@[simp] theorem State.chanPut_status (c : BitVec 3) (bs : List Bit) : (s.chanPut c bs).status = s.status := rfl
@[simp] theorem State.chanPut_inLen (c : BitVec 3) (bs : List Bit) : (s.chanPut c bs).inLen = s.inLen := rfl
@[simp] theorem State.chanPut_outMax (c : BitVec 3) (bs : List Bit) : (s.chanPut c bs).outMax = s.outMax := rfl
@[simp] theorem State.chanPut_outLen (c : BitVec 3) (bs : List Bit) : (s.chanPut c bs).outLen = s.outLen := rfl
@[simp] theorem State.chanPut_resultHdr (c : BitVec 3) (bs : List Bit) : (s.chanPut c bs).resultHdr = s.resultHdr := rfl
@[simp] theorem State.chanPut_ie (c : BitVec 3) (bs : List Bit) : (s.chanPut c bs).ie = s.ie := rfl
@[simp] theorem State.chanPut_attemptLen (c : BitVec 3) (bs : List Bit) : (s.chanPut c bs).attemptLen = s.attemptLen := rfl
@[simp] theorem State.chanPut_inMem (c : BitVec 3) (bs : List Bit) : (s.chanPut c bs).inMem = s.inMem := rfl
@[simp] theorem State.chanPut_outMem (c : BitVec 3) (bs : List Bit) : (s.chanPut c bs).outMem = s.outMem := rfl
@[simp] theorem State.chanPut_seq (c : BitVec 3) (bs : List Bit) : (s.chanPut c bs).seq = s.seq := rfl
@[simp] theorem State.chanPut_lenSnap (c : BitVec 3) (bs : List Bit) : (s.chanPut c bs).lenSnap = s.lenSnap := rfl
@[simp] theorem State.chanPut_outLimit (c : BitVec 3) (bs : List Bit) : (s.chanPut c bs).outLimit = s.outLimit := rfl
@[simp] theorem State.chanPut_hdr (c : BitVec 3) (bs : List Bit) : (s.chanPut c bs).hdr = s.hdr := rfl
@[simp] theorem State.chanPut_splitSel (c : BitVec 3) (bs : List Bit) : (s.chanPut c bs).splitSel = s.splitSel := rfl
@[simp] theorem State.chanPut_planes (c : BitVec 3) (bs : List Bit) : (s.chanPut c bs).planes = s.planes := rfl
@[simp] theorem State.chanPut_modelSel (c : BitVec 3) (bs : List Bit) : (s.chanPut c bs).modelSel = s.modelSel := rfl
@[simp] theorem State.chanPut_nbit (c : BitVec 3) (bs : List Bit) : (s.chanPut c bs).nbit = s.nbit := rfl
@[simp] theorem State.chanPut_hist (c : BitVec 3) (bs : List Bit) : (s.chanPut c bs).hist = s.hist := rfl
@[simp] theorem State.chanPut_slots (c : BitVec 3) (bs : List Bit) : (s.chanPut c bs).slots = s.slots := rfl
@[simp] theorem State.chanPut_runcnt (c : BitVec 3) (bs : List Bit) : (s.chanPut c bs).runcnt = s.runcnt := rfl
@[simp] theorem State.chanPut_chans (c : BitVec 3) (bs : List Bit) : (s.chanPut c bs).chans = s.chans.set c.toNat ((s.chan c).appendAll bs) := rfl
@[simp] theorem State.chanPut_tags (c : BitVec 3) (bs : List Bit) : (s.chanPut c bs).tags = s.tags := rfl
@[simp] theorem State.chanPut_att (c : BitVec 3) (bs : List Bit) : (s.chanPut c bs).att = s.att := rfl
@[simp] theorem State.chanPut_opos (c : BitVec 3) (bs : List Bit) : (s.chanPut c bs).opos = s.opos := rfl
@[simp] theorem State.chanPut_alen (c : BitVec 3) (bs : List Bit) : (s.chanPut c bs).alen = s.alen := rfl
@[simp] theorem State.chanPut_best (c : BitVec 3) (bs : List Bit) : (s.chanPut c bs).best = s.best := rfl
@[simp] theorem State.chanPut_bestLen (c : BitVec 3) (bs : List Bit) : (s.chanPut c bs).bestLen = s.bestLen := rfl
@[simp] theorem State.chanPut_bestHdr (c : BitVec 3) (bs : List Bit) : (s.chanPut c bs).bestHdr = s.bestHdr := rfl
@[simp] theorem State.chanPut_faulted (c : BitVec 3) (bs : List Bit) : (s.chanPut c bs).faulted = s.faulted := rfl
@[simp] theorem State.chanPut_wires (c : BitVec 3) (bs : List Bit) : (s.chanPut c bs).wires = s.wires := rfl
@[simp] theorem State.chanPut_host (c : BitVec 3) (bs : List Bit) : (s.chanPut c bs).host = s.host := rfl
@[simp] theorem State.chanPut_reads (c : BitVec 3) (bs : List Bit) : (s.chanPut c bs).reads = s.reads := rfl
@[simp] theorem State.chanPut_draws (c : BitVec 3) (bs : List Bit) : (s.chanPut c bs).draws = s.draws := rfl
@[simp] theorem State.chanPut_plane (c : BitVec 3) (bs : List Bit) (q : BitVec 3) : (s.chanPut c bs).plane q = s.plane q := rfl
@[simp] theorem State.chanPut_history (c : BitVec 3) (bs : List Bit) (q : BitVec 3) : (s.chanPut c bs).history q = s.history q := rfl
@[simp] theorem State.chanPut_count (c : BitVec 3) (bs : List Bit) (q : BitVec 3) : (s.chanPut c bs).count q = s.count q := rfl
@[simp] theorem State.chanPut_slot (c : BitVec 3) (bs : List Bit) (q : BitVec 5) : (s.chanPut c bs).slot q = s.slot q := rfl
@[simp] theorem State.chanPut_attempt (c : BitVec 3) (bs : List Bit) (q : BitVec 4) : (s.chanPut c bs).attempt q = s.attempt q := rfl

/-! ### snapshot -/

@[simp] theorem State.snapshot_cfg (k : CmdKind) (h : BitVec 4) : (s.snapshot k h).cfg = s.cfg := rfl
@[simp] theorem State.snapshot_status (k : CmdKind) (h : BitVec 4) : (s.snapshot k h).status = statusAccepted s.status := rfl
@[simp] theorem State.snapshot_inLen (k : CmdKind) (h : BitVec 4) : (s.snapshot k h).inLen = s.inLen := rfl
@[simp] theorem State.snapshot_outMax (k : CmdKind) (h : BitVec 4) : (s.snapshot k h).outMax = s.outMax := rfl
@[simp] theorem State.snapshot_outLen (k : CmdKind) (h : BitVec 4) : (s.snapshot k h).outLen = s.outLen := rfl
@[simp] theorem State.snapshot_resultHdr (k : CmdKind) (h : BitVec 4) : (s.snapshot k h).resultHdr = s.resultHdr := rfl
@[simp] theorem State.snapshot_ie (k : CmdKind) (h : BitVec 4) : (s.snapshot k h).ie = s.ie := rfl
@[simp] theorem State.snapshot_attemptLen (k : CmdKind) (h : BitVec 4) : (s.snapshot k h).attemptLen = Vector.replicate 16 infWord := rfl
@[simp] theorem State.snapshot_inMem (k : CmdKind) (h : BitVec 4) : (s.snapshot k h).inMem = s.inMem := rfl
@[simp] theorem State.snapshot_outMem (k : CmdKind) (h : BitVec 4) : (s.snapshot k h).outMem = s.outMem := rfl
@[simp] theorem State.snapshot_seq (k : CmdKind) (h : BitVec 4) : (s.snapshot k h).seq = { phase := .run, kind := k, hcur := h, uop := Label.orcBegin, idx := 0 } := rfl
@[simp] theorem State.snapshot_lenSnap (k : CmdKind) (h : BitVec 4) : (s.snapshot k h).lenSnap = s.inLen := rfl
@[simp] theorem State.snapshot_outLimit (k : CmdKind) (h : BitVec 4) : (s.snapshot k h).outLimit = outLimitOf s.outMax s.cfg.outCap := rfl
@[simp] theorem State.snapshot_hdr (k : CmdKind) (h : BitVec 4) : (s.snapshot k h).hdr = s.hdr := rfl
@[simp] theorem State.snapshot_splitSel (k : CmdKind) (h : BitVec 4) : (s.snapshot k h).splitSel = s.splitSel := rfl
@[simp] theorem State.snapshot_planes (k : CmdKind) (h : BitVec 4) : (s.snapshot k h).planes = s.planes := rfl
@[simp] theorem State.snapshot_modelSel (k : CmdKind) (h : BitVec 4) : (s.snapshot k h).modelSel = s.modelSel := rfl
@[simp] theorem State.snapshot_nbit (k : CmdKind) (h : BitVec 4) : (s.snapshot k h).nbit = s.nbit := rfl
@[simp] theorem State.snapshot_hist (k : CmdKind) (h : BitVec 4) : (s.snapshot k h).hist = s.hist := rfl
@[simp] theorem State.snapshot_slots (k : CmdKind) (h : BitVec 4) : (s.snapshot k h).slots = s.slots := rfl
@[simp] theorem State.snapshot_runcnt (k : CmdKind) (h : BitVec 4) : (s.snapshot k h).runcnt = s.runcnt := rfl
@[simp] theorem State.snapshot_chans (k : CmdKind) (h : BitVec 4) : (s.snapshot k h).chans = s.chans := rfl
@[simp] theorem State.snapshot_tags (k : CmdKind) (h : BitVec 4) : (s.snapshot k h).tags = s.tags := rfl
@[simp] theorem State.snapshot_att (k : CmdKind) (h : BitVec 4) : (s.snapshot k h).att = s.att := rfl
@[simp] theorem State.snapshot_opos (k : CmdKind) (h : BitVec 4) : (s.snapshot k h).opos = s.opos := rfl
@[simp] theorem State.snapshot_alen (k : CmdKind) (h : BitVec 4) : (s.snapshot k h).alen = s.alen := rfl
@[simp] theorem State.snapshot_best (k : CmdKind) (h : BitVec 4) : (s.snapshot k h).best = s.best := rfl
@[simp] theorem State.snapshot_bestLen (k : CmdKind) (h : BitVec 4) : (s.snapshot k h).bestLen = s.bestLen := rfl
@[simp] theorem State.snapshot_bestHdr (k : CmdKind) (h : BitVec 4) : (s.snapshot k h).bestHdr = s.bestHdr := rfl
@[simp] theorem State.snapshot_faulted (k : CmdKind) (h : BitVec 4) : (s.snapshot k h).faulted = s.faulted := rfl
@[simp] theorem State.snapshot_wires (k : CmdKind) (h : BitVec 4) : (s.snapshot k h).wires = s.wires := rfl
@[simp] theorem State.snapshot_host (k : CmdKind) (h : BitVec 4) : (s.snapshot k h).host = s.host := rfl
@[simp] theorem State.snapshot_reads (k : CmdKind) (h : BitVec 4) : (s.snapshot k h).reads = s.reads := rfl
@[simp] theorem State.snapshot_draws (k : CmdKind) (h : BitVec 4) : (s.snapshot k h).draws = s.draws := rfl
@[simp] theorem State.snapshot_plane (k : CmdKind) (h : BitVec 4) (q : BitVec 3) : (s.snapshot k h).plane q = s.plane q := rfl
@[simp] theorem State.snapshot_chan (k : CmdKind) (h : BitVec 4) (q : BitVec 3) : (s.snapshot k h).chan q = s.chan q := rfl
@[simp] theorem State.snapshot_history (k : CmdKind) (h : BitVec 4) (q : BitVec 3) : (s.snapshot k h).history q = s.history q := rfl
@[simp] theorem State.snapshot_count (k : CmdKind) (h : BitVec 4) (q : BitVec 3) : (s.snapshot k h).count q = s.count q := rfl
@[simp] theorem State.snapshot_slot (k : CmdKind) (h : BitVec 4) (q : BitVec 5) : (s.snapshot k h).slot q = s.slot q := rfl

/-! ### logRead -/

@[simp] theorem State.logRead_cfg (r : HostRead) : (s.logRead r).cfg = s.cfg := rfl
@[simp] theorem State.logRead_status (r : HostRead) : (s.logRead r).status = s.status := rfl
@[simp] theorem State.logRead_inLen (r : HostRead) : (s.logRead r).inLen = s.inLen := rfl
@[simp] theorem State.logRead_outMax (r : HostRead) : (s.logRead r).outMax = s.outMax := rfl
@[simp] theorem State.logRead_outLen (r : HostRead) : (s.logRead r).outLen = s.outLen := rfl
@[simp] theorem State.logRead_resultHdr (r : HostRead) : (s.logRead r).resultHdr = s.resultHdr := rfl
@[simp] theorem State.logRead_ie (r : HostRead) : (s.logRead r).ie = s.ie := rfl
@[simp] theorem State.logRead_attemptLen (r : HostRead) : (s.logRead r).attemptLen = s.attemptLen := rfl
@[simp] theorem State.logRead_inMem (r : HostRead) : (s.logRead r).inMem = s.inMem := rfl
@[simp] theorem State.logRead_outMem (r : HostRead) : (s.logRead r).outMem = s.outMem := rfl
@[simp] theorem State.logRead_seq (r : HostRead) : (s.logRead r).seq = s.seq := rfl
@[simp] theorem State.logRead_lenSnap (r : HostRead) : (s.logRead r).lenSnap = s.lenSnap := rfl
@[simp] theorem State.logRead_outLimit (r : HostRead) : (s.logRead r).outLimit = s.outLimit := rfl
@[simp] theorem State.logRead_hdr (r : HostRead) : (s.logRead r).hdr = s.hdr := rfl
@[simp] theorem State.logRead_splitSel (r : HostRead) : (s.logRead r).splitSel = s.splitSel := rfl
@[simp] theorem State.logRead_planes (r : HostRead) : (s.logRead r).planes = s.planes := rfl
@[simp] theorem State.logRead_modelSel (r : HostRead) : (s.logRead r).modelSel = s.modelSel := rfl
@[simp] theorem State.logRead_nbit (r : HostRead) : (s.logRead r).nbit = s.nbit := rfl
@[simp] theorem State.logRead_hist (r : HostRead) : (s.logRead r).hist = s.hist := rfl
@[simp] theorem State.logRead_slots (r : HostRead) : (s.logRead r).slots = s.slots := rfl
@[simp] theorem State.logRead_runcnt (r : HostRead) : (s.logRead r).runcnt = s.runcnt := rfl
@[simp] theorem State.logRead_chans (r : HostRead) : (s.logRead r).chans = s.chans := rfl
@[simp] theorem State.logRead_tags (r : HostRead) : (s.logRead r).tags = s.tags := rfl
@[simp] theorem State.logRead_att (r : HostRead) : (s.logRead r).att = s.att := rfl
@[simp] theorem State.logRead_opos (r : HostRead) : (s.logRead r).opos = s.opos := rfl
@[simp] theorem State.logRead_alen (r : HostRead) : (s.logRead r).alen = s.alen := rfl
@[simp] theorem State.logRead_best (r : HostRead) : (s.logRead r).best = s.best := rfl
@[simp] theorem State.logRead_bestLen (r : HostRead) : (s.logRead r).bestLen = s.bestLen := rfl
@[simp] theorem State.logRead_bestHdr (r : HostRead) : (s.logRead r).bestHdr = s.bestHdr := rfl
@[simp] theorem State.logRead_faulted (r : HostRead) : (s.logRead r).faulted = s.faulted := rfl
@[simp] theorem State.logRead_wires (r : HostRead) : (s.logRead r).wires = s.wires := rfl
@[simp] theorem State.logRead_host (r : HostRead) : (s.logRead r).host = s.host := rfl
@[simp] theorem State.logRead_reads (r : HostRead) : (s.logRead r).reads = r :: s.reads := rfl
@[simp] theorem State.logRead_draws (r : HostRead) : (s.logRead r).draws = s.draws := rfl
@[simp] theorem State.logRead_plane (r : HostRead) (q : BitVec 3) : (s.logRead r).plane q = s.plane q := rfl
@[simp] theorem State.logRead_chan (r : HostRead) (q : BitVec 3) : (s.logRead r).chan q = s.chan q := rfl
@[simp] theorem State.logRead_history (r : HostRead) (q : BitVec 3) : (s.logRead r).history q = s.history q := rfl
@[simp] theorem State.logRead_count (r : HostRead) (q : BitVec 3) : (s.logRead r).count q = s.count q := rfl
@[simp] theorem State.logRead_slot (r : HostRead) (q : BitVec 5) : (s.logRead r).slot q = s.slot q := rfl
@[simp] theorem State.logRead_attempt (r : HostRead) (q : BitVec 4) : (s.logRead r).attempt q = s.attempt q := rfl

/-! ### splLoop -/

@[simp] theorem State.splLoop_cfg (k : Word) : (s.splLoop k).cfg = s.cfg := by unfold State.splLoop; split <;> rfl
@[simp] theorem State.splLoop_status (k : Word) : (s.splLoop k).status = s.status := by unfold State.splLoop; split <;> rfl
@[simp] theorem State.splLoop_inLen (k : Word) : (s.splLoop k).inLen = s.inLen := by unfold State.splLoop; split <;> rfl
@[simp] theorem State.splLoop_outMax (k : Word) : (s.splLoop k).outMax = s.outMax := by unfold State.splLoop; split <;> rfl
@[simp] theorem State.splLoop_outLen (k : Word) : (s.splLoop k).outLen = s.outLen := by unfold State.splLoop; split <;> rfl
@[simp] theorem State.splLoop_resultHdr (k : Word) : (s.splLoop k).resultHdr = s.resultHdr := by unfold State.splLoop; split <;> rfl
@[simp] theorem State.splLoop_ie (k : Word) : (s.splLoop k).ie = s.ie := by unfold State.splLoop; split <;> rfl
@[simp] theorem State.splLoop_attemptLen (k : Word) : (s.splLoop k).attemptLen = s.attemptLen := by unfold State.splLoop; split <;> rfl
@[simp] theorem State.splLoop_inMem (k : Word) : (s.splLoop k).inMem = s.inMem := by unfold State.splLoop; split <;> rfl
@[simp] theorem State.splLoop_outMem (k : Word) : (s.splLoop k).outMem = s.outMem := by unfold State.splLoop; split <;> rfl
@[simp] theorem State.splLoop_lenSnap (k : Word) : (s.splLoop k).lenSnap = s.lenSnap := by unfold State.splLoop; split <;> rfl
@[simp] theorem State.splLoop_outLimit (k : Word) : (s.splLoop k).outLimit = s.outLimit := by unfold State.splLoop; split <;> rfl
@[simp] theorem State.splLoop_hdr (k : Word) : (s.splLoop k).hdr = s.hdr := by unfold State.splLoop; split <;> rfl
@[simp] theorem State.splLoop_splitSel (k : Word) : (s.splLoop k).splitSel = s.splitSel := by unfold State.splLoop; split <;> rfl
@[simp] theorem State.splLoop_planes (k : Word) : (s.splLoop k).planes = s.planes := by unfold State.splLoop; split <;> rfl
@[simp] theorem State.splLoop_modelSel (k : Word) : (s.splLoop k).modelSel = s.modelSel := by unfold State.splLoop; split <;> rfl
@[simp] theorem State.splLoop_nbit (k : Word) : (s.splLoop k).nbit = s.nbit := by unfold State.splLoop; split <;> rfl
@[simp] theorem State.splLoop_hist (k : Word) : (s.splLoop k).hist = s.hist := by unfold State.splLoop; split <;> rfl
@[simp] theorem State.splLoop_slots (k : Word) : (s.splLoop k).slots = s.slots := by unfold State.splLoop; split <;> rfl
@[simp] theorem State.splLoop_runcnt (k : Word) : (s.splLoop k).runcnt = s.runcnt := by unfold State.splLoop; split <;> rfl
@[simp] theorem State.splLoop_chans (k : Word) : (s.splLoop k).chans = s.chans := by unfold State.splLoop; split <;> rfl
@[simp] theorem State.splLoop_tags (k : Word) : (s.splLoop k).tags = s.tags := by unfold State.splLoop; split <;> rfl
@[simp] theorem State.splLoop_att (k : Word) : (s.splLoop k).att = s.att := by unfold State.splLoop; split <;> rfl
@[simp] theorem State.splLoop_opos (k : Word) : (s.splLoop k).opos = s.opos := by unfold State.splLoop; split <;> rfl
@[simp] theorem State.splLoop_alen (k : Word) : (s.splLoop k).alen = s.alen := by unfold State.splLoop; split <;> rfl
@[simp] theorem State.splLoop_best (k : Word) : (s.splLoop k).best = s.best := by unfold State.splLoop; split <;> rfl
@[simp] theorem State.splLoop_bestLen (k : Word) : (s.splLoop k).bestLen = s.bestLen := by unfold State.splLoop; split <;> rfl
@[simp] theorem State.splLoop_bestHdr (k : Word) : (s.splLoop k).bestHdr = s.bestHdr := by unfold State.splLoop; split <;> rfl
@[simp] theorem State.splLoop_faulted (k : Word) : (s.splLoop k).faulted = s.faulted := by unfold State.splLoop; split <;> rfl
@[simp] theorem State.splLoop_wires (k : Word) : (s.splLoop k).wires = s.wires := by unfold State.splLoop; split <;> rfl
@[simp] theorem State.splLoop_host (k : Word) : (s.splLoop k).host = s.host := by unfold State.splLoop; split <;> rfl
@[simp] theorem State.splLoop_reads (k : Word) : (s.splLoop k).reads = s.reads := by unfold State.splLoop; split <;> rfl
@[simp] theorem State.splLoop_draws (k : Word) : (s.splLoop k).draws = s.draws := by unfold State.splLoop; split <;> rfl
@[simp] theorem State.splLoop_plane (k : Word) (q : BitVec 3) : (s.splLoop k).plane q = s.plane q := by simp [State.plane]
@[simp] theorem State.splLoop_chan (k : Word) (q : BitVec 3) : (s.splLoop k).chan q = s.chan q := by simp [State.chan]
@[simp] theorem State.splLoop_history (k : Word) (q : BitVec 3) : (s.splLoop k).history q = s.history q := by simp [State.history]
@[simp] theorem State.splLoop_count (k : Word) (q : BitVec 3) : (s.splLoop k).count q = s.count q := by simp [State.count]
@[simp] theorem State.splLoop_slot (k : Word) (q : BitVec 5) : (s.splLoop k).slot q = s.slot q := by simp [State.slot]
@[simp] theorem State.splLoop_attempt (k : Word) (q : BitVec 4) : (s.splLoop k).attempt q = s.attempt q := by simp [State.attempt]

/-! ### bitLoop -/

@[simp] theorem State.bitLoop_cfg (n : Word) : (s.bitLoop n).cfg = s.cfg := by unfold State.bitLoop; split <;> rfl
@[simp] theorem State.bitLoop_status (n : Word) : (s.bitLoop n).status = s.status := by unfold State.bitLoop; split <;> rfl
@[simp] theorem State.bitLoop_inLen (n : Word) : (s.bitLoop n).inLen = s.inLen := by unfold State.bitLoop; split <;> rfl
@[simp] theorem State.bitLoop_outMax (n : Word) : (s.bitLoop n).outMax = s.outMax := by unfold State.bitLoop; split <;> rfl
@[simp] theorem State.bitLoop_outLen (n : Word) : (s.bitLoop n).outLen = s.outLen := by unfold State.bitLoop; split <;> rfl
@[simp] theorem State.bitLoop_resultHdr (n : Word) : (s.bitLoop n).resultHdr = s.resultHdr := by unfold State.bitLoop; split <;> rfl
@[simp] theorem State.bitLoop_ie (n : Word) : (s.bitLoop n).ie = s.ie := by unfold State.bitLoop; split <;> rfl
@[simp] theorem State.bitLoop_attemptLen (n : Word) : (s.bitLoop n).attemptLen = s.attemptLen := by unfold State.bitLoop; split <;> rfl
@[simp] theorem State.bitLoop_inMem (n : Word) : (s.bitLoop n).inMem = s.inMem := by unfold State.bitLoop; split <;> rfl
@[simp] theorem State.bitLoop_outMem (n : Word) : (s.bitLoop n).outMem = s.outMem := by unfold State.bitLoop; split <;> rfl
@[simp] theorem State.bitLoop_lenSnap (n : Word) : (s.bitLoop n).lenSnap = s.lenSnap := by unfold State.bitLoop; split <;> rfl
@[simp] theorem State.bitLoop_outLimit (n : Word) : (s.bitLoop n).outLimit = s.outLimit := by unfold State.bitLoop; split <;> rfl
@[simp] theorem State.bitLoop_hdr (n : Word) : (s.bitLoop n).hdr = s.hdr := by unfold State.bitLoop; split <;> rfl
@[simp] theorem State.bitLoop_splitSel (n : Word) : (s.bitLoop n).splitSel = s.splitSel := by unfold State.bitLoop; split <;> rfl
@[simp] theorem State.bitLoop_planes (n : Word) : (s.bitLoop n).planes = s.planes := by unfold State.bitLoop; split <;> rfl
@[simp] theorem State.bitLoop_modelSel (n : Word) : (s.bitLoop n).modelSel = s.modelSel := by unfold State.bitLoop; split <;> rfl
@[simp] theorem State.bitLoop_nbit (n : Word) : (s.bitLoop n).nbit = s.nbit := by unfold State.bitLoop; split <;> rfl
@[simp] theorem State.bitLoop_hist (n : Word) : (s.bitLoop n).hist = s.hist := by unfold State.bitLoop; split <;> rfl
@[simp] theorem State.bitLoop_slots (n : Word) : (s.bitLoop n).slots = s.slots := by unfold State.bitLoop; split <;> rfl
@[simp] theorem State.bitLoop_runcnt (n : Word) : (s.bitLoop n).runcnt = s.runcnt := by unfold State.bitLoop; split <;> rfl
@[simp] theorem State.bitLoop_chans (n : Word) : (s.bitLoop n).chans = s.chans := by unfold State.bitLoop; split <;> rfl
@[simp] theorem State.bitLoop_tags (n : Word) : (s.bitLoop n).tags = s.tags := by unfold State.bitLoop; split <;> rfl
@[simp] theorem State.bitLoop_att (n : Word) : (s.bitLoop n).att = s.att := by unfold State.bitLoop; split <;> rfl
@[simp] theorem State.bitLoop_opos (n : Word) : (s.bitLoop n).opos = s.opos := by unfold State.bitLoop; split <;> rfl
@[simp] theorem State.bitLoop_alen (n : Word) : (s.bitLoop n).alen = s.alen := by unfold State.bitLoop; split <;> rfl
@[simp] theorem State.bitLoop_best (n : Word) : (s.bitLoop n).best = s.best := by unfold State.bitLoop; split <;> rfl
@[simp] theorem State.bitLoop_bestLen (n : Word) : (s.bitLoop n).bestLen = s.bestLen := by unfold State.bitLoop; split <;> rfl
@[simp] theorem State.bitLoop_bestHdr (n : Word) : (s.bitLoop n).bestHdr = s.bestHdr := by unfold State.bitLoop; split <;> rfl
@[simp] theorem State.bitLoop_faulted (n : Word) : (s.bitLoop n).faulted = s.faulted := by unfold State.bitLoop; split <;> rfl
@[simp] theorem State.bitLoop_wires (n : Word) : (s.bitLoop n).wires = s.wires := by unfold State.bitLoop; split <;> rfl
@[simp] theorem State.bitLoop_host (n : Word) : (s.bitLoop n).host = s.host := by unfold State.bitLoop; split <;> rfl
@[simp] theorem State.bitLoop_reads (n : Word) : (s.bitLoop n).reads = s.reads := by unfold State.bitLoop; split <;> rfl
@[simp] theorem State.bitLoop_draws (n : Word) : (s.bitLoop n).draws = s.draws := by unfold State.bitLoop; split <;> rfl
@[simp] theorem State.bitLoop_plane (n : Word) (q : BitVec 3) : (s.bitLoop n).plane q = s.plane q := by simp [State.plane]
@[simp] theorem State.bitLoop_chan (n : Word) (q : BitVec 3) : (s.bitLoop n).chan q = s.chan q := by simp [State.chan]
@[simp] theorem State.bitLoop_history (n : Word) (q : BitVec 3) : (s.bitLoop n).history q = s.history q := by simp [State.history]
@[simp] theorem State.bitLoop_count (n : Word) (q : BitVec 3) : (s.bitLoop n).count q = s.count q := by simp [State.count]
@[simp] theorem State.bitLoop_slot (n : Word) (q : BitVec 5) : (s.bitLoop n).slot q = s.slot q := by simp [State.slot]
@[simp] theorem State.bitLoop_attempt (n : Word) (q : BitVec 4) : (s.bitLoop n).attempt q = s.attempt q := by simp [State.attempt]

/-! ### tagLoop -/

@[simp] theorem State.tagLoop_cfg (t : Word) : (s.tagLoop t).cfg = s.cfg := by unfold State.tagLoop; (repeat' split) <;> rfl
@[simp] theorem State.tagLoop_status (t : Word) : (s.tagLoop t).status = s.status := by unfold State.tagLoop; (repeat' split) <;> rfl
@[simp] theorem State.tagLoop_inLen (t : Word) : (s.tagLoop t).inLen = s.inLen := by unfold State.tagLoop; (repeat' split) <;> rfl
@[simp] theorem State.tagLoop_outMax (t : Word) : (s.tagLoop t).outMax = s.outMax := by unfold State.tagLoop; (repeat' split) <;> rfl
@[simp] theorem State.tagLoop_outLen (t : Word) : (s.tagLoop t).outLen = s.outLen := by unfold State.tagLoop; (repeat' split) <;> rfl
@[simp] theorem State.tagLoop_resultHdr (t : Word) : (s.tagLoop t).resultHdr = s.resultHdr := by unfold State.tagLoop; (repeat' split) <;> rfl
@[simp] theorem State.tagLoop_ie (t : Word) : (s.tagLoop t).ie = s.ie := by unfold State.tagLoop; (repeat' split) <;> rfl
@[simp] theorem State.tagLoop_attemptLen (t : Word) : (s.tagLoop t).attemptLen = s.attemptLen := by unfold State.tagLoop; (repeat' split) <;> rfl
@[simp] theorem State.tagLoop_inMem (t : Word) : (s.tagLoop t).inMem = s.inMem := by unfold State.tagLoop; (repeat' split) <;> rfl
@[simp] theorem State.tagLoop_outMem (t : Word) : (s.tagLoop t).outMem = s.outMem := by unfold State.tagLoop; (repeat' split) <;> rfl
@[simp] theorem State.tagLoop_lenSnap (t : Word) : (s.tagLoop t).lenSnap = s.lenSnap := by unfold State.tagLoop; (repeat' split) <;> rfl
@[simp] theorem State.tagLoop_outLimit (t : Word) : (s.tagLoop t).outLimit = s.outLimit := by unfold State.tagLoop; (repeat' split) <;> rfl
@[simp] theorem State.tagLoop_hdr (t : Word) : (s.tagLoop t).hdr = s.hdr := by unfold State.tagLoop; (repeat' split) <;> rfl
@[simp] theorem State.tagLoop_splitSel (t : Word) : (s.tagLoop t).splitSel = s.splitSel := by unfold State.tagLoop; (repeat' split) <;> rfl
@[simp] theorem State.tagLoop_planes (t : Word) : (s.tagLoop t).planes = s.planes := by unfold State.tagLoop; (repeat' split) <;> rfl
@[simp] theorem State.tagLoop_modelSel (t : Word) : (s.tagLoop t).modelSel = s.modelSel := by unfold State.tagLoop; (repeat' split) <;> rfl
@[simp] theorem State.tagLoop_nbit (t : Word) : (s.tagLoop t).nbit = s.nbit := by unfold State.tagLoop; (repeat' split) <;> rfl
@[simp] theorem State.tagLoop_hist (t : Word) : (s.tagLoop t).hist = s.hist := by unfold State.tagLoop; (repeat' split) <;> rfl
@[simp] theorem State.tagLoop_slots (t : Word) : (s.tagLoop t).slots = s.slots := by unfold State.tagLoop; (repeat' split) <;> rfl
@[simp] theorem State.tagLoop_runcnt (t : Word) : (s.tagLoop t).runcnt = s.runcnt := by unfold State.tagLoop; (repeat' split) <;> rfl
@[simp] theorem State.tagLoop_chans (t : Word) : (s.tagLoop t).chans = s.chans := by unfold State.tagLoop; (repeat' split) <;> rfl
@[simp] theorem State.tagLoop_tags (t : Word) : (s.tagLoop t).tags = s.tags := by unfold State.tagLoop; (repeat' split) <;> rfl
@[simp] theorem State.tagLoop_att (t : Word) : (s.tagLoop t).att = s.att := by unfold State.tagLoop; (repeat' split) <;> rfl
@[simp] theorem State.tagLoop_opos (t : Word) : (s.tagLoop t).opos = s.opos := by unfold State.tagLoop; (repeat' split) <;> rfl
@[simp] theorem State.tagLoop_best (t : Word) : (s.tagLoop t).best = s.best := by unfold State.tagLoop; (repeat' split) <;> rfl
@[simp] theorem State.tagLoop_bestLen (t : Word) : (s.tagLoop t).bestLen = s.bestLen := by unfold State.tagLoop; (repeat' split) <;> rfl
@[simp] theorem State.tagLoop_bestHdr (t : Word) : (s.tagLoop t).bestHdr = s.bestHdr := by unfold State.tagLoop; (repeat' split) <;> rfl
@[simp] theorem State.tagLoop_faulted (t : Word) : (s.tagLoop t).faulted = s.faulted := by unfold State.tagLoop; (repeat' split) <;> rfl
@[simp] theorem State.tagLoop_wires (t : Word) : (s.tagLoop t).wires = s.wires := by unfold State.tagLoop; (repeat' split) <;> rfl
@[simp] theorem State.tagLoop_host (t : Word) : (s.tagLoop t).host = s.host := by unfold State.tagLoop; (repeat' split) <;> rfl
@[simp] theorem State.tagLoop_reads (t : Word) : (s.tagLoop t).reads = s.reads := by unfold State.tagLoop; (repeat' split) <;> rfl
@[simp] theorem State.tagLoop_draws (t : Word) : (s.tagLoop t).draws = s.draws := by unfold State.tagLoop; (repeat' split) <;> rfl
@[simp] theorem State.tagLoop_plane (t : Word) (q : BitVec 3) : (s.tagLoop t).plane q = s.plane q := by simp [State.plane]
@[simp] theorem State.tagLoop_chan (t : Word) (q : BitVec 3) : (s.tagLoop t).chan q = s.chan q := by simp [State.chan]
@[simp] theorem State.tagLoop_history (t : Word) (q : BitVec 3) : (s.tagLoop t).history q = s.history q := by simp [State.history]
@[simp] theorem State.tagLoop_count (t : Word) (q : BitVec 3) : (s.tagLoop t).count q = s.count q := by simp [State.count]
@[simp] theorem State.tagLoop_slot (t : Word) (q : BitVec 5) : (s.tagLoop t).slot q = s.slot q := by simp [State.slot]
@[simp] theorem State.tagLoop_attempt (t : Word) (q : BitVec 4) : (s.tagLoop t).attempt q = s.attempt q := by simp [State.attempt]

/-! ### nextAttempt -/

@[simp] theorem State.nextAttempt_cfg : (s.nextAttempt).cfg = s.cfg := by unfold State.nextAttempt; split <;> rfl
@[simp] theorem State.nextAttempt_status : (s.nextAttempt).status = s.status := by unfold State.nextAttempt; split <;> rfl
@[simp] theorem State.nextAttempt_inLen : (s.nextAttempt).inLen = s.inLen := by unfold State.nextAttempt; split <;> rfl
@[simp] theorem State.nextAttempt_outMax : (s.nextAttempt).outMax = s.outMax := by unfold State.nextAttempt; split <;> rfl
@[simp] theorem State.nextAttempt_outLen : (s.nextAttempt).outLen = s.outLen := by unfold State.nextAttempt; split <;> rfl
@[simp] theorem State.nextAttempt_resultHdr : (s.nextAttempt).resultHdr = s.resultHdr := by unfold State.nextAttempt; split <;> rfl
@[simp] theorem State.nextAttempt_ie : (s.nextAttempt).ie = s.ie := by unfold State.nextAttempt; split <;> rfl
@[simp] theorem State.nextAttempt_attemptLen : (s.nextAttempt).attemptLen = s.attemptLen := by unfold State.nextAttempt; split <;> rfl
@[simp] theorem State.nextAttempt_inMem : (s.nextAttempt).inMem = s.inMem := by unfold State.nextAttempt; split <;> rfl
@[simp] theorem State.nextAttempt_outMem : (s.nextAttempt).outMem = s.outMem := by unfold State.nextAttempt; split <;> rfl
@[simp] theorem State.nextAttempt_lenSnap : (s.nextAttempt).lenSnap = s.lenSnap := by unfold State.nextAttempt; split <;> rfl
@[simp] theorem State.nextAttempt_outLimit : (s.nextAttempt).outLimit = s.outLimit := by unfold State.nextAttempt; split <;> rfl
@[simp] theorem State.nextAttempt_hdr : (s.nextAttempt).hdr = s.hdr := by unfold State.nextAttempt; split <;> rfl
@[simp] theorem State.nextAttempt_splitSel : (s.nextAttempt).splitSel = s.splitSel := by unfold State.nextAttempt; split <;> rfl
@[simp] theorem State.nextAttempt_planes : (s.nextAttempt).planes = s.planes := by unfold State.nextAttempt; split <;> rfl
@[simp] theorem State.nextAttempt_modelSel : (s.nextAttempt).modelSel = s.modelSel := by unfold State.nextAttempt; split <;> rfl
@[simp] theorem State.nextAttempt_nbit : (s.nextAttempt).nbit = s.nbit := by unfold State.nextAttempt; split <;> rfl
@[simp] theorem State.nextAttempt_hist : (s.nextAttempt).hist = s.hist := by unfold State.nextAttempt; split <;> rfl
@[simp] theorem State.nextAttempt_slots : (s.nextAttempt).slots = s.slots := by unfold State.nextAttempt; split <;> rfl
@[simp] theorem State.nextAttempt_runcnt : (s.nextAttempt).runcnt = s.runcnt := by unfold State.nextAttempt; split <;> rfl
@[simp] theorem State.nextAttempt_chans : (s.nextAttempt).chans = s.chans := by unfold State.nextAttempt; split <;> rfl
@[simp] theorem State.nextAttempt_tags : (s.nextAttempt).tags = s.tags := by unfold State.nextAttempt; split <;> rfl
@[simp] theorem State.nextAttempt_att : (s.nextAttempt).att = s.att := by unfold State.nextAttempt; split <;> rfl
@[simp] theorem State.nextAttempt_opos : (s.nextAttempt).opos = s.opos := by unfold State.nextAttempt; split <;> rfl
@[simp] theorem State.nextAttempt_alen : (s.nextAttempt).alen = s.alen := by unfold State.nextAttempt; split <;> rfl
@[simp] theorem State.nextAttempt_best : (s.nextAttempt).best = s.best := by unfold State.nextAttempt; split <;> rfl
@[simp] theorem State.nextAttempt_bestLen : (s.nextAttempt).bestLen = s.bestLen := by unfold State.nextAttempt; split <;> rfl
@[simp] theorem State.nextAttempt_bestHdr : (s.nextAttempt).bestHdr = s.bestHdr := by unfold State.nextAttempt; split <;> rfl
@[simp] theorem State.nextAttempt_faulted : (s.nextAttempt).faulted = s.faulted := by unfold State.nextAttempt; split <;> rfl
@[simp] theorem State.nextAttempt_wires : (s.nextAttempt).wires = s.wires := by unfold State.nextAttempt; split <;> rfl
@[simp] theorem State.nextAttempt_host : (s.nextAttempt).host = s.host := by unfold State.nextAttempt; split <;> rfl
@[simp] theorem State.nextAttempt_reads : (s.nextAttempt).reads = s.reads := by unfold State.nextAttempt; split <;> rfl
@[simp] theorem State.nextAttempt_draws : (s.nextAttempt).draws = s.draws := by unfold State.nextAttempt; split <;> rfl
@[simp] theorem State.nextAttempt_plane (q : BitVec 3) : (s.nextAttempt).plane q = s.plane q := by simp [State.plane]
@[simp] theorem State.nextAttempt_chan (q : BitVec 3) : (s.nextAttempt).chan q = s.chan q := by simp [State.chan]
@[simp] theorem State.nextAttempt_history (q : BitVec 3) : (s.nextAttempt).history q = s.history q := by simp [State.history]
@[simp] theorem State.nextAttempt_count (q : BitVec 3) : (s.nextAttempt).count q = s.count q := by simp [State.count]
@[simp] theorem State.nextAttempt_slot (q : BitVec 5) : (s.nextAttempt).slot q = s.slot q := by simp [State.slot]
@[simp] theorem State.nextAttempt_attempt (q : BitVec 4) : (s.nextAttempt).attempt q = s.attempt q := by simp [State.attempt]

/-! ### A register after a write of one register -/

theorem State.plane_setPlane (p q : BitVec 3) (v : BitBuf) :
    (s.setPlane p v).plane q = if q = p then v else s.plane q := by
  simp only [State.plane, State.setPlane, Vector.getElem_set]
  by_cases h : q = p
  · subst h; simp
  · have : p.toNat ≠ q.toNat := fun e => h (BitVec.eq_of_toNat_eq e.symm)
    simp [h, this]
@[simp] theorem State.plane_setPlane_same (p : BitVec 3) (v : BitBuf) : (s.setPlane p v).plane p = v := by
  simp [State.plane_setPlane]
theorem State.plane_setPlane_other (p q : BitVec 3) (v : BitBuf) (h : q ≠ p) : (s.setPlane p v).plane q = s.plane q := by
  simp [State.plane_setPlane, h]

theorem State.chan_setChan (p q : BitVec 3) (v : BitBuf) :
    (s.setChan p v).chan q = if q = p then v else s.chan q := by
  simp only [State.chan, State.setChan, Vector.getElem_set]
  by_cases h : q = p
  · subst h; simp
  · have : p.toNat ≠ q.toNat := fun e => h (BitVec.eq_of_toNat_eq e.symm)
    simp [h, this]
@[simp] theorem State.chan_setChan_same (p : BitVec 3) (v : BitBuf) : (s.setChan p v).chan p = v := by
  simp [State.chan_setChan]
theorem State.chan_setChan_other (p q : BitVec 3) (v : BitBuf) (h : q ≠ p) : (s.setChan p v).chan q = s.chan q := by
  simp [State.chan_setChan, h]

theorem State.history_setHistory (p q : BitVec 3) (v : BitVec 16) :
    (s.setHistory p v).history q = if q = p then v else s.history q := by
  simp only [State.history, State.setHistory, Vector.getElem_set]
  by_cases h : q = p
  · subst h; simp
  · have : p.toNat ≠ q.toNat := fun e => h (BitVec.eq_of_toNat_eq e.symm)
    simp [h, this]
@[simp] theorem State.history_setHistory_same (p : BitVec 3) (v : BitVec 16) : (s.setHistory p v).history p = v := by
  simp [State.history_setHistory]
theorem State.history_setHistory_other (p q : BitVec 3) (v : BitVec 16) (h : q ≠ p) : (s.setHistory p v).history q = s.history q := by
  simp [State.history_setHistory, h]

theorem State.count_setCount (p q : BitVec 3) (v : BitVec 8) :
    (s.setCount p v).count q = if q = p then v else s.count q := by
  simp only [State.count, State.setCount, Vector.getElem_set]
  by_cases h : q = p
  · subst h; simp
  · have : p.toNat ≠ q.toNat := fun e => h (BitVec.eq_of_toNat_eq e.symm)
    simp [h, this]
@[simp] theorem State.count_setCount_same (p : BitVec 3) (v : BitVec 8) : (s.setCount p v).count p = v := by
  simp [State.count_setCount]
theorem State.count_setCount_other (p q : BitVec 3) (v : BitVec 8) (h : q ≠ p) : (s.setCount p v).count q = s.count q := by
  simp [State.count_setCount, h]

theorem State.slot_setSlot (p q : BitVec 5) (v : Slot) :
    (s.setSlot p v).slot q = if q = p then v else s.slot q := by
  simp only [State.slot, State.setSlot, Vector.getElem_set]
  by_cases h : q = p
  · subst h; simp
  · have : p.toNat ≠ q.toNat := fun e => h (BitVec.eq_of_toNat_eq e.symm)
    simp [h, this]
@[simp] theorem State.slot_setSlot_same (p : BitVec 5) (v : Slot) : (s.setSlot p v).slot p = v := by
  simp [State.slot_setSlot]
theorem State.slot_setSlot_other (p q : BitVec 5) (v : Slot) (h : q ≠ p) : (s.setSlot p v).slot q = s.slot q := by
  simp [State.slot_setSlot, h]

theorem State.attempt_setAttempt (p q : BitVec 4) (v : Word) :
    (s.setAttempt p v).attempt q = if q = p then v else s.attempt q := by
  simp only [State.attempt, State.setAttempt, Vector.getElem_set]
  by_cases h : q = p
  · subst h; simp
  · have : p.toNat ≠ q.toNat := fun e => h (BitVec.eq_of_toNat_eq e.symm)
    simp [h, this]
@[simp] theorem State.attempt_setAttempt_same (p : BitVec 4) (v : Word) : (s.setAttempt p v).attempt p = v := by
  simp [State.attempt_setAttempt]
theorem State.attempt_setAttempt_other (p q : BitVec 4) (v : Word) (h : q ≠ p) : (s.setAttempt p v).attempt q = s.attempt q := by
  simp [State.attempt_setAttempt, h]

/-- The register `f` describes, out of the eight. -/
theorem vec8_getElem {α : Type} (f : BitVec 3 → α) (c : BitVec 3) : (vec8 f)[c.toNat]'c.isLt = f c := by
  obtain ⟨k, hk⟩ := c
  change k < 8 at hk
  interval_cases k <;> rfl

theorem State.plane_vec8 (t : State) (f : BitVec 3 → BitBuf) (h : t.planes = vec8 f) (p : BitVec 3) :
    t.plane p = f p := by
  simp only [State.plane, h]; exact vec8_getElem f p

theorem State.chan_vec8 (t : State) (f : BitVec 3 → BitBuf) (h : t.chans = vec8 f) (c : BitVec 3) :
    t.chan c = f c := by
  simp only [State.chan, h]; exact vec8_getElem f c

end Sys2Proof.Machine
end

