-- ==== Sys2Proof/Laws/Units.lean ====
section
/-! SUPPORT. For each shared operation, what it can answer and what it then holds. -/

namespace Sys2Proof.Machine

/-! ### Derived quantities -/

/-- byteLen is the ceiling of the division by 8 (45_interleaver.md R158). -/
theorem byteLen_toNat (pos : Word) : (byteLen pos).toNat = (pos.toNat + 7) / 8 := by
  have hlt := pos.isLt
  have hand : (pos &&& 7).toNat = pos.toNat % 8 := by
    rw [BitVec.toNat_and]; exact Nat.and_two_pow_sub_one_eq_mod pos.toNat 3
  have hsh : (pos >>> 3).toNat = pos.toNat / 8 := by
    rw [BitVec.toNat_ushiftRight, Nat.shiftRight_eq_div_pow]
  unfold byteLen
  by_cases h : pos &&& 7 = 0
  · have h0 : pos.toNat % 8 = 0 := by rw [← hand, h]; rfl
    rw [if_pos h, BitVec.toNat_add, hsh]
    show (pos.toNat / 8 + 0) % 2 ^ 32 = _
    omega
  · have h0 : pos.toNat % 8 ≠ 0 := by
      intro e; apply h; apply BitVec.eq_of_toNat_eq; rw [hand, e]; rfl
    rw [if_neg h, BitVec.toNat_add, hsh]
    show (pos.toNat / 8 + 1) % 2 ^ 32 = _
    omega

/-- OUT_LIMIT is the smaller of OUT_MAX and P_OUT_CAP (60_exceptions.md R188). -/
theorem outLimitOf_toNat (a b : Word) : (outLimitOf a b).toNat = min a.toNat b.toNat := by
  unfold outLimitOf
  split
  · rename_i h; rw [BitVec.le_def] at h; omega
  · rename_i h; rw [BitVec.le_def] at h; omega

theorem outLimitOf_le (a b : Word) : outLimitOf a b ≤ b := by
  rw [BitVec.le_def, outLimitOf_toNat]; omega

/-- A length that passes the limit check is at most the limit. -/
theorem limitLen_bytes (limit len n : Word) (h : limitLen limit len = .bytes n) : n = len ∧ len ≤ limit := by
  unfold limitLen at h
  split at h
  · cases h
  · rename_i hlt
    cases h
    exact ⟨rfl, by rw [BitVec.le_def]; rw [BitVec.lt_def] at hlt; omega⟩

/-- `a` is shorter than `b`: a byte count below a byte count, or below INF (46_orchestrator.md R170). -/
theorem lenLt_iff (a b : AttLen) :
    lenLt a b = true ↔ ∃ n, a = .bytes n ∧ (b = .inf ∨ ∃ m, b = .bytes m ∧ n < m) := by
  cases a <;> cases b <;> simp [lenLt]

/-- The adaptive states are 0 and 1 (43_probability_estimator.md R139). -/
theorem adaptive_iff (st : BitVec 6) : adaptive st = true ↔ st.toNat ≤ 1 := by
  revert st; decide

/-! ### The sequencer's loops -/

theorem State.splLoop_seq (s : State) (k : Word) : (s.splLoop k).seq =
    if k < s.lenSnap then { s.seq with uop := if s.pm = 3 then Label.splBits else Label.splByte, idx := k }
    else { s.seq with uop := Label.cmInit, idx := 0 } := by
  unfold State.splLoop; split <;> rfl

theorem State.bitLoop_seq (s : State) (n : Word) : (s.bitLoop n).seq =
    if n < s.nb then { s.seq with uop := Label.cmBit, idx := n }
    else { s.seq with uop := Label.gceFinish, idx := 0 } := by
  unfold State.bitLoop; split <;> rfl

theorem State.nextAttempt_seq (s : State) : s.nextAttempt.seq =
    if s.seq.kind = .compress ∧ s.seq.hcur ≠ 15 then
      { s.seq with hcur := s.seq.hcur + 1, uop := Label.orcBegin, idx := 0 }
    else { s.seq with uop := Label.orcDone, idx := 0 } := by
  unfold State.nextAttempt; split <;> rfl

/-- The tag loop ends at IL_LEN, goes on, or stops the attempt early (45_interleaver.md R159). -/
theorem State.tagLoop_cases (s : State) (t : Word) :
    (s.tags.length ≤ t.toNat ∧ s.tagLoop t = s.goto Label.ilLen 0) ∨
    (t.toNat < s.tags.length ∧ s.overLimit = false ∧ s.tagLoop t = s.goto Label.ilTag t) ∨
    (t.toNat < s.tags.length ∧ s.overLimit = true ∧
      s.tagLoop t = { s.goto Label.orcSelect 0 with alen := .inf }) := by
  unfold State.tagLoop
  by_cases h : t.toNat < s.tags.length
  · cases ho : s.overLimit <;> simp [h]
  · exact .inl ⟨by omega, by simp [h]⟩

/-! ### Golomb encoder -/

theorem mismatchWord_length (c : BitVec 3) (cnt : BitVec 8) : (mismatchWord c cnt).length = c.toNat + 1 := by
  simp [mismatchWord]

/-- A symbol emits at most eight bits (44_golomb_encoder.md R154). -/
theorem emitted_length_le (c : BitVec 3) (sym : Bit) (cnt : BitVec 8) : (emitted c sym cnt).length ≤ 8 := by
  have := c.isLt
  unfold emitted
  split
  · rw [mismatchWord_length]; omega
  · split <;> simp

/-- The count limit of class `c`. -/
theorem classLimit_toNat (c : BitVec 3) : (1#8 <<< c.toNat).toNat = 2 ^ c.toNat := by
  revert c; decide

/-- A symbol ends the run exactly when it is a mismatch or the count reaches 2^c (44_golomb_encoder.md R148). -/
theorem endOfRun_eq_one (c : BitVec 3) (sym : Bit) (cnt : BitVec 8) :
    endOfRun c sym cnt = 1 ↔ sym = 1 ∨ cnt + 1 = 1#8 <<< c.toNat := by
  unfold endOfRun
  by_cases hs : sym = 1
  · rw [if_pos hs]; simp [hs]
  · rw [if_neg hs]
    by_cases hc : cnt + 1 = 1#8 <<< c.toNat
    · rw [if_pos hc]; exact ⟨fun _ => .inr hc, fun _ => rfl⟩
    · rw [if_neg hc]
      exact ⟨fun h => absurd h (by decide), fun h => by rcases h with h | h <;> contradiction⟩

/-- A count below the limit stays below it (44_golomb_encoder.md R149). -/
theorem countAfter_lt (c : BitVec 3) (sym : Bit) (cnt : BitVec 8) (h : cnt.toNat < 2 ^ c.toNat) :
    (countAfter c sym cnt).toNat < 2 ^ c.toNat := by
  have hpos : 0 < 2 ^ c.toNat := Nat.two_pow_pos _
  have hle : 2 ^ c.toNat ≤ 128 := by
    have := c.isLt
    calc 2 ^ c.toNat ≤ 2 ^ 7 := Nat.pow_le_pow_right (by omega) (by omega)
      _ = 128 := rfl
  have hsucc : (cnt + 1).toNat = cnt.toNat + 1 := by
    rw [BitVec.toNat_add]; show (cnt.toNat + 1) % 256 = _; omega
  unfold countAfter
  split
  · show 0 < _; exact hpos
  · rename_i he
    rw [endOfRun_eq_one] at he
    have hne : cnt.toNat + 1 ≠ 2 ^ c.toNat := by
      intro e; apply he; right; apply BitVec.eq_of_toNat_eq; rw [hsucc, classLimit_toNat, e]
    rw [hsucc]; omega

/-- What GCE_PUTBIT answers when it has room (44_golomb_encoder.md R148). -/
theorem State.putBit_ok (s : State) (c : BitVec 3) (sym : Bit) (u : State) (eor : Bit)
    (h : s.putBit c sym = .ok (u, eor)) :
    s.gceRoom c sym = true ∧ eor = endOfRun c sym (s.count c) ∧
      u = { s with
        tags := if s.count c = 0 then s.tags ++ [c] else s.tags
        chans := s.chans.set c.toNat ((s.chan c).appendAll (emitted c sym (s.count c)))
        runcnt := s.runcnt.set c.toNat (countAfter c sym (s.count c)) } := by
  unfold State.putBit at h
  split at h
  · rename_i hroom
    refine ⟨hroom, ?_⟩
    simp only [Except.ok.injEq, Prod.mk.injEq] at h
    obtain ⟨rfl, rfl⟩ := h
    refine ⟨rfl, ?_⟩
    by_cases h0 : s.count c = 0
    · simp only [h0, if_true]; rfl
    · simp only [h0, if_false]; rfl
  · cases h

/-- GCE_PUTBIT fails only for want of room, into INTERNAL_FAULT (60_exceptions.md R190). -/
theorem State.putBit_error (s : State) (c : BitVec 3) (sym : Bit) (u : State)
    (h : s.putBit c sym = .error u) : s.gceRoom c sym = false ∧ u = s.internalFault := by
  unfold State.putBit at h
  split at h
  · cases h
  · rename_i hroom
    cases h
    exact ⟨by simpa using hroom, rfl⟩

/-- When GCE_PUTBIT has room: for the tag of a new run, for the codeword of a mismatch, and for the `0` that ends a full run
(00_scope.md R7, 44_golomb_encoder.md R148). -/
theorem State.gceRoom_iff (s : State) (c : BitVec 3) (sym : Bit) : s.gceRoom c sym = true ↔
    (s.count c = 0 → s.tags.length < s.cfg.tagCap) ∧
      (sym = 1 → (s.chan c).wpos.toNat + (c.toNat + 1) ≤ s.cfg.chanCap) ∧
      ((s.count c).toNat + 1 = 2 ^ c.toNat → (s.chan c).wpos.toNat + 1 ≤ s.cfg.chanCap) := by
  have hfull : s.count c + 1 = 1#8 <<< c.toNat ↔ (s.count c).toNat + 1 = 2 ^ c.toNat := by
    generalize s.count c = n
    revert c n; decide
  have htag : (s.count c != 0 || decide (s.tags.length < s.cfg.tagCap)) = true ↔
      (s.count c = 0 → s.tags.length < s.cfg.tagCap) := by
    simp only [bne, Bool.or_eq_true, Bool.not_eq_true', beq_eq_false_iff_ne, decide_eq_true_eq, ne_eq]
    exact (Decidable.imp_iff_not_or).symm
  unfold State.gceRoom
  rw [Bool.and_eq_true, htag]
  refine and_congr_right fun _ => ?_
  by_cases hs : sym = 1
  · rw [emitted, if_pos hs, Bool.or_eq_true, decide_eq_true_eq, mismatchWord_length]
    simp only [mismatchWord, List.isEmpty_cons, Bool.false_eq_true, false_or, hs, true_implies]
    omega
  · rw [emitted, if_neg hs]
    by_cases hf : s.count c + 1 = 1#8 <<< c.toNat
    · rw [if_pos hf, Bool.or_eq_true, decide_eq_true_eq]
      exact ⟨fun h => ⟨fun e => absurd e hs, fun _ => h.resolve_left Bool.false_ne_true⟩, fun h => .inr (h.2 (hfull.mp hf))⟩
    · rw [if_neg hf]
      exact ⟨fun _ => ⟨fun e => absurd e hs, fun e => absurd (hfull.mpr e) hf⟩, fun _ => rfl⟩

/-- GCE_PUTBIT has room below the tag and channel capacities (44_golomb_encoder.md R154). -/
theorem State.gceRoom_of_le (s : State) (c : BitVec 3) (sym : Bit) (ht : s.tags.length < s.cfg.tagCap)
    (hc : (s.chan c).wpos.toNat + 8 ≤ s.cfg.chanCap) : s.gceRoom c sym = true := by
  have := c.isLt
  exact (s.gceRoom_iff c sym).mpr ⟨fun _ => ht, fun _ => by omega, fun _ => by omega⟩

/-! ### Interleaver -/

/-- What IL_MOVEBIT answers when the channel has a bit and ATT room (45_interleaver.md R156). -/
theorem State.moveBit_ok (s : State) (c : BitVec 3) (u : State) (b : Bit) (h : s.moveBit c = .ok (u, b)) :
    (s.chan c).rpos < (s.chan c).wpos ∧ s.opos.toNat / 8 ≤ s.cfg.outCap.toNat ∧ b = (s.chan c).peek ∧
      u = { s with
        chans := s.chans.set c.toNat (s.chan c).advance
        att := Memory.bitWrite s.att s.opos.toNat b
        opos := s.opos + 1 } := by
  unfold State.moveBit at h
  split at h
  · rename_i hc
    simp only [Except.ok.injEq, Prod.mk.injEq] at h
    obtain ⟨rfl, rfl⟩ := h
    exact ⟨hc.1, hc.2, rfl, rfl⟩
  · cases h

/-- IL_MOVEBIT fails only into INTERNAL_FAULT (45_interleaver.md R156, 60_exceptions.md R190). -/
theorem State.moveBit_error (s : State) (c : BitVec 3) (u : State) (h : s.moveBit c = .error u) :
    ((s.chan c).wpos ≤ (s.chan c).rpos ∨ s.cfg.outCap.toNat < s.opos.toNat / 8) ∧ u = s.internalFault := by
  unfold State.moveBit at h
  split at h
  · cases h
  · rename_i hc
    cases h
    refine ⟨?_, rfl⟩
    by_cases h1 : (s.chan c).rpos < (s.chan c).wpos
    · right
      by_contra h2
      exact hc ⟨h1, by omega⟩
    · left
      rw [BitVec.le_def]; rw [BitVec.lt_def] at h1; omega

/-- IL_MOVEBIT moves a bit where there is one and ATT has room. -/
theorem State.moveBit_of_lt (s : State) (c : BitVec 3) (h : (s.chan c).rpos < (s.chan c).wpos)
    (ho : s.opos.toNat / 8 ≤ s.cfg.outCap.toNat) :
    s.moveBit c = .ok ({ s with
        chans := s.chans.set c.toNat (s.chan c).advance
        att := Memory.bitWrite s.att s.opos.toNat (s.chan c).peek
        opos := s.opos + 1 }, (s.chan c).peek) := by
  unfold State.moveBit
  rw [if_pos ⟨h, ho⟩]
  rfl

/-- What moving bits leaves alone: every field but the channels, the output and its position, and, where it faults,
FAULTED, ALEN and SEQ. -/
theorem State.moveBits_frame (n : Nat) (s u : State) (c : BitVec 3)
    (h : s.moveBits c n = .ok u) :
    u = { s with chans := u.chans, att := u.att, opos := u.opos } := by
  induction n generalizing s with
  | zero => simp only [State.moveBits, Except.ok.injEq] at h; subst h; rfl
  | succ n ih =>
    simp only [State.moveBits] at h
    cases hm : s.moveBit c with
    | error e => rw [hm] at h; cases h
    | ok p =>
      obtain ⟨v, b⟩ := p
      rw [hm] at h
      obtain ⟨_, _, _, hv⟩ := State.moveBit_ok _ _ _ _ hm
      have := ih v h
      rw [this, hv]

/-- Moving a whole codeword leaves every field alone but the channels, the output and its position. -/
theorem State.moveTag_frame (s u : State) (t : Word) (h : s.moveTag t = .ok u) :
    u = { s with chans := u.chans, att := u.att, opos := u.opos } := by
  unfold State.moveTag at h
  split at h
  · cases h
  · split at h
    · cases h
    · rename_i v b hm
      obtain ⟨_, _, _, hv⟩ := State.moveBit_ok _ _ _ _ hm
      split at h
      · have := State.moveBits_frame _ _ _ _ h
        rw [this, hv]
      · cases h
        rw [hv]

/-- One bit moved, by what can be read of it: the cursors, the output bits, the other channels (45_interleaver.md R156). -/
theorem State.moveBit_reads (s : State) (c : BitVec 3) (u : State) (b : Bit) (h : s.moveBit c = .ok (u, b))
    (hw : Memory.wf s.att) (ho : s.opos.toNat + 1 < 2 ^ 32) :
    b = Memory.bitRead (s.chan c).mem (s.chan c).rpos.toNat ∧ Memory.wf u.att ∧ u.cfg = s.cfg ∧
      u.opos.toNat = s.opos.toNat + 1 ∧ (u.chan c).rpos.toNat = (s.chan c).rpos.toNat + 1 ∧
      (u.chan c).mem = (s.chan c).mem ∧ (u.chan c).wpos = (s.chan c).wpos ∧
      (∀ d, d ≠ c → u.chan d = s.chan d) ∧
      ∀ pos, Memory.bitRead u.att pos = if pos = s.opos.toNat then b else Memory.bitRead s.att pos := by
  obtain ⟨hr, _, hb, hu⟩ := State.moveBit_ok s c u b h
  have hc : ∀ d, u.chan d = if d = c then (s.chan c).advance else s.chan d := by
    intro d; rw [hu]; exact State.chan_setChan s c d _
  have hcc : u.chan c = (s.chan c).advance := by rw [hc, if_pos rfl]
  have hlt : (s.chan c).rpos.toNat < (s.chan c).wpos.toNat := hr
  have := (s.chan c).wpos.isLt
  refine ⟨hb, ?_, by rw [hu], ?_, ?_, by rw [hcc]; rfl, by rw [hcc]; rfl, ?_, ?_⟩
  · rw [hu]; exact Memory.bitWrite_wf _ _ _ hw
  · rw [hu]; show (s.opos + 1).toNat = _; rw [word_succ]; omega
  · rw [hcc, BitBuf.advance_rpos, word_succ]; omega
  · intro d hd; rw [hc, if_neg hd]
  · intro pos; rw [hu]; exact Memory.bitRead_bitWrite _ _ _ _ hw

/-- Several bits moved: they stand in order from the old output position on, the cursors are as many on, and nothing else
of the output or of the other channels changes (45_interleaver.md R157). -/
theorem State.moveBits_reads (n : Nat) (s u : State) (c : BitVec 3) (h : s.moveBits c n = .ok u)
    (hw : Memory.wf s.att) (ho : s.opos.toNat + n < 2 ^ 32) :
    Memory.wf u.att ∧ u.opos.toNat = s.opos.toNat + n ∧
      (u.chan c).rpos.toNat = (s.chan c).rpos.toNat + n ∧ (u.chan c).mem = (s.chan c).mem ∧
      (u.chan c).wpos = (s.chan c).wpos ∧ (∀ d, d ≠ c → u.chan d = s.chan d) ∧
      ∀ pos, Memory.bitRead u.att pos =
        if s.opos.toNat ≤ pos ∧ pos < s.opos.toNat + n then
          Memory.bitRead (s.chan c).mem ((s.chan c).rpos.toNat + (pos - s.opos.toNat))
        else Memory.bitRead s.att pos := by
  induction n generalizing s with
  | zero =>
    simp only [State.moveBits, Except.ok.injEq] at h
    subst h
    refine ⟨hw, rfl, rfl, rfl, rfl, fun _ _ => rfl, fun pos => ?_⟩
    rw [if_neg (by omega)]
  | succ n ih =>
    simp only [State.moveBits] at h
    cases hm : s.moveBit c with
    | error e => rw [hm] at h; cases h
    | ok p =>
      obtain ⟨v, b⟩ := p
      rw [hm] at h
      obtain ⟨hb, hvw, _, hvo, hvr, hvm, hvp, hvd, hva⟩ := State.moveBit_reads s c v b hm hw (by omega)
      obtain ⟨hw', ho', hr', hm', hp', hd', ha'⟩ := ih v h hvw (by omega)
      refine ⟨hw', by omega, by omega, by rw [hm', hvm], by rw [hp', hvp], ?_, ?_⟩
      · intro d hd; rw [hd' d hd, hvd d hd]
      · intro pos
        rw [ha' pos, hvm]
        by_cases h1 : pos = s.opos.toNat
        · subst h1
          rw [if_neg (by omega), if_pos (by omega), hva, if_pos rfl, hb, Nat.sub_self, Nat.add_zero]
        · by_cases h2 : s.opos.toNat ≤ pos ∧ pos < s.opos.toNat + (n + 1)
          · rw [if_pos (by omega), if_pos h2]; congr 1; omega
          · rw [if_neg (by omega), if_neg h2, hva, if_neg h1]

/-- Several bits can be moved where the channel has them and ATT has room (60_exceptions.md R190). -/
theorem State.moveBits_of_room (n : Nat) (s : State) (c : BitVec 3) (hw : Memory.wf s.att)
    (hr : (s.chan c).rpos.toNat + n ≤ (s.chan c).wpos.toNat) (ho : s.opos.toNat + n < 2 ^ 32)
    (hc : n = 0 ∨ (s.opos.toNat + n - 1) / 8 ≤ s.cfg.outCap.toNat) : ∃ u, s.moveBits c n = .ok u := by
  induction n generalizing s with
  | zero => exact ⟨s, rfl⟩
  | succ n ih =>
    have h1 : (s.chan c).rpos < (s.chan c).wpos := by rw [BitVec.lt_def]; omega
    have h2 : s.opos.toNat / 8 ≤ s.cfg.outCap.toNat := by
      rcases hc with hc | hc
      · omega
      · exact Nat.le_trans (Nat.div_le_div_right (by omega)) hc
    have hm := State.moveBit_of_lt s c h1 h2
    obtain ⟨_, hvw, hvc, hvo, hvr, _, hvp, _, _⟩ := State.moveBit_reads s c _ _ hm hw (by omega)
    obtain ⟨u, hu⟩ := ih _ hvw (by rw [hvr, hvp]; omega) (by rw [hvo]; omega) (by
      rcases Nat.eq_zero_or_pos n with h | h
      · exact .inl h
      · right
        rw [hvo, hvc]
        rcases hc with hc | hc
        · omega
        · have : s.opos.toNat + 1 + n - 1 = s.opos.toNat + (n + 1) - 1 := by omega
          rw [this]; exact hc)
    exact ⟨u, by simp only [State.moveBits, hm, hu]⟩

/-! ### Commands and error entries -/

/-- The command-level error entry (60_exceptions.md R193). -/
theorem State.failCommand_eq (s : State) (e : CommandError) : s.failCommand e = { s with
    outLen := 0, resultHdr := 0, status := statusFailed e s.status, seq := { s.seq with phase := .idle } } := rfl

/-- INTERNAL_FAULT inside an attempt (60_exceptions.md R190). -/
theorem State.internalFault_eq (s : State) : s.internalFault = { s with
    faulted := true, alen := .inf, seq := { s.seq with uop := Label.orcSelect, idx := 0 } } := rfl

/-- BEST has room exactly when the attempt's length, if it has one, is at most P_OUT_CAP (10_state.md R46). -/
theorem State.bestRoom_iff (s : State) : s.bestRoom = true ↔ ∀ n, s.alen = .bytes n → n ≤ s.cfg.outCap := by
  unfold State.bestRoom
  cases h : s.alen with
  | bytes n => simp
  | inf => simp

end Sys2Proof.Machine
end

