-- ==== Sys2Proof/Laws/Step.lean ====
section
/-! SUPPORT. What one step can do, said once: the host's moves and the engine's turn, and what the two decoders can answer. -/

namespace Sys2Proof.Machine

/-- The command decoder answers host commands only (30_encoding.md R81). -/
theorem decodeCommand_cases (w : BitVec 32) (i : Instr) (h : decodeCommand w = .ok i) :
    (i = .compress ∧ w.extractLsb' 4 4 = 1) ∨ (i = .encode (w.extractLsb' 0 4) ∧ w.extractLsb' 4 4 = 2) ∨
      (i = .clear ∧ w.extractLsb' 4 4 = 3) := by
  unfold decodeCommand at h
  simp only at h
  split at h
  · cases h
  · split at h
    · rename_i h1; cases h; exact .inl ⟨rfl, h1.1⟩
    · split at h
      · rename_i h2; cases h; exact .inr (.inl ⟨rfl, h2⟩)
      · split at h
        · rename_i h3; cases h; exact .inr (.inr ⟨rfl, h3.1⟩)
        · cases h

/-- A choice that answers `r` answers it on the side that was taken. -/
theorem ite_or {α : Type} {c : Prop} [Decidable c] {a b r : α} (h : (if c then a else b) = r) :
    (c ∧ a = r) ∨ b = r := by
  split at h
  · exact .inl ⟨‹c›, h⟩
  · exact .inr h

/-- The label decoder answers micro-operations only, each at its own label (30_encoding.md R94). -/
theorem decodeUop_cases (l : BitVec 8) (ops : UopOperands) (i : Instr) (h : decodeUop l ops = .ok i) :
    (l = Label.splInit ∧ i = .splInit) ∨ (l = Label.splByte ∧ i = .splByte ops.idx) ∨
    (l = Label.splBits ∧ i = .splBits ops.idx) ∨ (l = Label.cmInit ∧ i = .cmInit) ∨
    (l = Label.cmBit ∧ i = .cmBit ops.idx) ∨ (l = Label.pemInit ∧ i = .pemInit) ∨
    (l = Label.pemPredict ∧ i = .pemPredict ops.ctx) ∨ (l = Label.pemStep ∧ i = .pemStep ops.bit ops.ctx) ∨
    (l = Label.gceInit ∧ i = .gceInit) ∨ (l = Label.gcePutbit ∧ i = .gcePutbit ops.cls ops.sym) ∨
    (l = Label.gceFinish ∧ i = .gceFinish) ∨ (l = Label.ilInit ∧ i = .ilInit) ∨
    (l = Label.ilTag ∧ i = .ilTag ops.idx) ∨ (l = Label.ilMovebit ∧ i = .ilMovebit ops.cls) ∨
    (l = Label.ilLen ∧ i = .ilLen) ∨ (l = Label.orcBegin ∧ i = .orcBegin ops.hdr) ∨
    (l = Label.orcSelect ∧ i = .orcSelect) ∨ (l = Label.orcDone ∧ i = .orcDone) := by
  unfold decodeUop at h
  iterate 17
    refine (ite_or h).imp (fun hl => ⟨hl.1, (Except.ok.inj hl.2).symm⟩) (fun h => ?_)
  rcases ite_or h with ⟨hl, he⟩ | he
  · cases he; exact ⟨hl, rfl⟩
  · cases he

/-- The engine's turn: nothing while IDLE, INTERNAL_FAULT where nothing can be fetched, else one micro-operation. -/
theorem State.engineTurn_cases (s t : State) (h : s.engineTurn = .next t) :
    (s.seq.phase = .idle ∧ t = s) ∨ (s.seq.phase = .run ∧ s.fetch = none ∧ t = s.internalFault) ∨
      ∃ i, s.seq.phase = .run ∧ s.fetch = some i ∧ exec i s = .next t := by
  unfold State.engineTurn at h
  split at h
  · rename_i hp; cases h; exact .inl ⟨hp, rfl⟩
  · rename_i hp
    split at h
    · rename_i i hf; exact .inr (.inr ⟨i, hp, hf, h⟩)
    · rename_i hf; cases h; exact .inr (.inl ⟨hp, hf, rfl⟩)

/-- A fetched micro-operation is the decoded one, and the invariants of 10_state.md R51 hold where they are checked. -/
theorem State.fetch_some (s : State) (i : Instr) (h : s.fetch = some i) :
    decodeUop s.seq.uop s.operands = .ok i ∧ (attemptLive i = true → s.invariantsHold = true) := by
  unfold State.fetch at h
  split at h
  · cases h
  · rename_i j hj
    split at h
    · cases h
    · rename_i hc
      cases h
      refine ⟨hj, fun hl => ?_⟩
      simpa [hl] using hc

/-- A system-address access is placed as a register access, an IN write or an OUT read, or stays itself; every other move
stays itself. So a move that is no access stands for itself alone. -/
theorem HostMove.placed_cases (cfg : Config) (h : HostMove) :
    h.placed cfg = h ∨ (∃ width off v, h.placed cfg = .regWrite width off v) ∨
      (∃ width off, h.placed cfg = .regRead width off) ∨ (∃ k v, h.placed cfg = .inWrite k v) ∨
      ∃ k, h.placed cfg = .outRead k := by
  cases h with
  | busWrite width addr v =>
    simp only [HostMove.placed]
    split
    · exact .inr (.inl ⟨_, _, _, rfl⟩)
    · split
      · exact .inr (.inr (.inr (.inl ⟨_, _, rfl⟩)))
      · exact .inl rfl
    · exact .inl rfl
    · exact .inl rfl
  | busRead width addr =>
    simp only [HostMove.placed]
    split
    · exact .inr (.inr (.inl ⟨_, _, rfl⟩))
    · split
      · exact .inr (.inr (.inr (.inr ⟨_, rfl⟩)))
      · exact .inl rfl
    · exact .inl rfl
    · exact .inl rfl
  | regWrite _ _ _ => exact .inl rfl
  | regRead _ _ => exact .inl rfl
  | inWrite _ _ => exact .inl rfl
  | outRead _ => exact .inl rfl
  | waitDone => exact .inl rfl
  | waitIrq => exact .inl rfl
  | pause => exact .inl rfl
  | reset => exact .inl rfl

/-- A wait, a pause or the reset input stands in the host's list as itself. -/
theorem State.hostMakes_plain (s : State) (m : HostMove) (rest : List HostMove)
    (hm : m = .waitDone ∨ m = .waitIrq ∨ m = .pause ∨ m = .reset) (h : s.hostMakes m rest) : s.host = m :: rest := by
  obtain ⟨x, hx, hp⟩ := h
  rcases HostMove.placed_cases s.cfg x with e | ⟨_, _, _, e⟩ | ⟨_, _, e⟩ | ⟨_, _, e⟩ | ⟨_, e⟩
  · rw [hx, ← hp, e]
  all_goals rw [e] at hp; subst hp; rcases hm with h | h | h | h <;> cases h

/-- A step whose host makes a move is the host's turn with it. -/
theorem step_of_hostMakes (s : State) (m : HostMove) (rest : List HostMove) (h : s.hostMakes m rest) :
    step s = ({ s with host := rest } : State).hostTurn m := by
  obtain ⟨x, hx, rfl⟩ := h
  simp only [step, State.turn, hx]

/-- A REG address stands for its offset (20_memory.md R69). -/
theorem locate_reg (cfg : Config) (off : Nat) (h : off < regSpan) : locate cfg (cfg.regBase + off) = some (.reg, off) := by
  simp [locate, offsetIn, h]

/-- An IN address stands for its offset when the spaces are apart (20_memory.md R69). -/
theorem locate_input (cfg : Config) (k : Nat) (d : disjointSpaces cfg) (h : k < cfg.inCap.toNat) :
    locate cfg (cfg.inBase + k) = some (.input, k) := by
  have hr : ¬ (cfg.regBase ≤ cfg.inBase + k ∧ cfg.inBase + k < cfg.regBase + regSpan) := by omega
  simp [locate, offsetIn, hr, h]

/-- An OUT address stands for its offset when the spaces are apart (20_memory.md R69). -/
theorem locate_output (cfg : Config) (k : Nat) (d : disjointSpaces cfg) (h : k < cfg.outCap.toNat) :
    locate cfg (cfg.outBase + k) = some (.output, k) := by
  have hr : ¬ (cfg.regBase ≤ cfg.outBase + k ∧ cfg.outBase + k < cfg.regBase + regSpan) := by omega
  have hi : ¬ (cfg.inBase ≤ cfg.outBase + k ∧ cfg.outBase + k < cfg.inBase + cfg.inCap.toNat) := by omega
  simp [locate, offsetIn, hr, hi, h]

/-- Every way a step can answer a next state: the reset input; a command or an illegal word on CMD; a write to another
register or a reserved offset; a register read; a write to IN; a read of OUT, idle or BUSY; a poll that sees DONE or
an interrupt that is taken; or the engine's turn, with no move left, after a pause, or behind a wait that goes on. -/
theorem step_cases (s t : State) (h : step s = .next t) :
    (∃ rest, s.hostMakes .reset rest ∧ t = ({ s with host := rest } : State).deviceReset) ∨
    (∃ w rest i, s.hostMakes (.regWrite .w32 0 w) rest ∧ decodeCommand w = .ok i ∧
      exec i { s with host := rest } = .next t) ∨
    (∃ w rest e, s.hostMakes (.regWrite .w32 0 w) rest ∧ decodeCommand w = .error e ∧
      t = ({ s with host := rest } : State).illegalCommand) ∨
    (∃ off v rest r, s.hostMakes (.regWrite .w32 off v) rest ∧ regAt off = some r ∧ r ≠ .cmd ∧
      t = ({ s with host := rest } : State).regWrite r v) ∨
    (∃ off v rest, s.hostMakes (.regWrite .w32 off v) rest ∧ regAt off = none ∧ t = { s with host := rest }) ∨
    (∃ off rest v, s.hostMakes (.regRead .w32 off) rest ∧
      t = { s with host := rest, reads := .reg off v :: s.reads }) ∨
    (∃ k v rest, s.hostMakes (.inWrite k v) rest ∧ s.status.busy = false ∧ k < s.cfg.inCap.toNat ∧
      t = { s with host := rest, inMem := Memory.write s.inMem k v }) ∨
    (∃ k rest b d, s.hostMakes (.outRead k) rest ∧
      t = { s with host := rest, reads := .out k b :: s.reads, draws := d }) ∨
    (∃ rest r, (s.hostMakes .waitDone rest ∧ s.status.done = true ∨ s.hostMakes .waitIrq rest ∧ irq s = true) ∧
      t = { s with host := rest, reads := r :: s.reads }) ∨
    (s.host = [] ∧ s.engineTurn = .next t) ∨
    (∃ rest, (s.hostMakes .waitDone rest ∧ s.status.done = false ∨ s.hostMakes .waitIrq rest ∧ irq s = false) ∧
      s.engineTurn = .next t) ∨
    ∃ rest, s.hostMakes .pause rest ∧ ({ s with host := rest } : State).engineTurn = .next t := by
  unfold step State.turn at h
  split at h
  · rename_i hh
    exact .inr (.inr (.inr (.inr (.inr (.inr (.inr (.inr (.inr (.inl ⟨hh, h⟩)))))))))
  · rename_i x rest hx
    have hh : s.hostMakes (x.placed s.cfg) rest := ⟨x, hx, rfl⟩
    generalize x.placed s.cfg = m at h hh
    unfold State.hostTurn at h
    cases m with
    | regWrite width off v =>
      simp only at h
      split at h
      · rename_i ha
        simp only [regAccess, Bool.and_eq_true, beq_iff_eq] at ha
        obtain ⟨rfl, hal⟩ := ha
        split at h
        · rename_i hr
          have hoff : off = 0 := by
            unfold regAt at hr
            split at hr
            · assumption
            · repeat' (split at hr)
              all_goals cases hr
          subst hoff
          unfold State.writeCmd at h
          split at h
          · rename_i i hi; exact .inr (.inl ⟨v, rest, i, hh, hi, h⟩)
          · rename_i e he; cases h; exact .inr (.inr (.inl ⟨v, rest, e, hh, he, rfl⟩))
        · rename_i r hne hr
          cases h
          refine .inr (.inr (.inr (.inl ⟨off, v, rest, r, hh, hr, ?_, rfl⟩)))
          intro e; subst e; exact hne rfl
        · rename_i hr
          cases h
          exact .inr (.inr (.inr (.inr (.inl ⟨off, v, rest, hh, hr, rfl⟩))))
      · cases h
    | regRead width off =>
      simp only at h
      split at h
      · rename_i ha
        simp only [regAccess, Bool.and_eq_true, beq_iff_eq] at ha
        obtain ⟨rfl, _⟩ := ha
        cases h
        exact .inr (.inr (.inr (.inr (.inr (.inl ⟨off, rest, _, hh, rfl⟩)))))
      · cases h
    | inWrite k v =>
      simp only at h
      split at h
      · cases h
      · rename_i hb
        split at h
        · rename_i hk
          cases h
          exact .inr (.inr (.inr (.inr (.inr (.inr (.inl ⟨k, v, rest, hh, by simpa using hb, hk, rfl⟩))))))
        · cases h
    | outRead k =>
      simp only at h
      split at h
      · split at h
        · cases h
          exact .inr (.inr (.inr (.inr (.inr (.inr (.inr (.inl ⟨k, rest, _, _, hh, rfl⟩)))))))
        · cases h
          exact .inr (.inr (.inr (.inr (.inr (.inr (.inr (.inl ⟨k, rest, _, _, hh, rfl⟩)))))))
      · cases h
    | waitDone =>
      have hl := s.hostMakes_plain _ _ (.inl rfl) hh
      simp only at h
      split at h
      · rename_i hd
        cases h
        exact .inr (.inr (.inr (.inr (.inr (.inr (.inr (.inr (.inl ⟨rest, _, .inl ⟨hh, hd⟩, rfl⟩))))))))
      · rename_i hd
        have hs : ({ s with host := .waitDone :: rest } : State) = s := by rw [← hl]
        rw [hs] at h
        exact .inr (.inr (.inr (.inr (.inr (.inr (.inr (.inr (.inr (.inr (.inl
          ⟨rest, .inl ⟨hh, by simpa using hd⟩, h⟩))))))))))
    | waitIrq =>
      have hl := s.hostMakes_plain _ _ (.inr (.inl rfl)) hh
      simp only at h
      split at h
      · rename_i hd
        cases h
        exact .inr (.inr (.inr (.inr (.inr (.inr (.inr (.inr (.inl ⟨rest, _, .inr ⟨hh, hd⟩, rfl⟩))))))))
      · rename_i hd
        have hs : ({ s with host := .waitIrq :: rest } : State) = s := by rw [← hl]
        rw [hs] at h
        exact .inr (.inr (.inr (.inr (.inr (.inr (.inr (.inr (.inr (.inr (.inl
          ⟨rest, .inr ⟨hh, by simpa [irq] using hd⟩, h⟩))))))))))
    | busWrite width addr v =>
      simp only [strayAccess] at h
      split at h <;> cases h
    | busRead width addr =>
      simp only [strayAccess] at h
      split at h <;> cases h
    | pause =>
      exact .inr (.inr (.inr (.inr (.inr (.inr (.inr (.inr (.inr (.inr (.inr ⟨rest, hh, h⟩))))))))))
    | reset =>
      cases h
      exact .inl ⟨rest, hh, rfl⟩

end Sys2Proof.Machine
end

