-- ==== Sys2Proof/WellFormed.lean ====
section
/-! DEFINITION. Which instructions the block can be given: the operand ranges that do not depend on the running command (10_state.md R32, 41_splitter.md R112, 45_interleaver.md R157). -/

namespace Sys2Proof

/-- The loop index of a micro-operation lies inside the memory it indexes: an input byte index below
P_IN_CAP (R112, R113), a bit index below P_NB_MAX (R124, 10_state.md R32), a tag index below P_TAG_CAP
(R157). Every other operand is a field all of whose values are legal (30_encoding.md R96). -/
def Instr.wellFormed (cfg : Config) : Instr → Bool
  | .splByte k => decide (k < cfg.inCap)
  | .splBits k => decide (k < cfg.inCap)
  | .cmBit n => decide (n.toNat < Machine.nbMax cfg)
  | .ilTag t => decide (t.toNat < cfg.tagCap)
  | .compress => true
  | .encode _ => true
  | .clear => true
  | .splInit => true
  | .cmInit => true
  | .pemInit => true
  | .pemPredict _ => true
  | .pemStep _ _ => true
  | .gceInit => true
  | .gcePutbit _ _ => true
  | .gceFinish => true
  | .ilInit => true
  | .ilMovebit _ => true
  | .ilLen => true
  | .orcBegin _ => true
  | .orcSelect => true
  | .orcDone => true

end Sys2Proof
end

