-- ==== Sys2Proof/Tests/Slice0.lean ====
section
/-! SUPPORT. The model's own tests: ill-formed terms refused, every row's word decoded, one-step tests with the expected values of the spec's examples, and a state and operands that meet the hypotheses of each statement. -/

namespace Sys2Proof.Tests

open Sys2Proof.Machine

/-- A small legal choice of the parameters: 4 input bytes, 16 output bytes, the three spaces one after the other. -/
def cfg0 : Config :=
  { inCap := 4, outCap := 16, planeCap := 3, tagCap := 40, chanCap := 321
    regBase := 0x1000, inBase := 0x1080, outBase := 0x1084, st := stTable }

/-- After reset, with the small parameters. -/
def s0 : State := { State.reset with cfg := cfg0 }

/-- Running at a label and loop index under a header, on the input 12 34 56. -/
def run0 (h : BitVec 4) (uop : BitVec 8) (idx : Word) : State :=
  { s0 with
    status := { s0.status with busy := true }
    inLen := 3, lenSnap := 3, outMax := 16, outLimit := 16, hdr := h
    inMem := [(0, 0x12), (1, 0x34), (2, 0x56)]
    seq := { phase := .run, kind := .compress, hcur := h, uop := uop, idx := idx } }

/-- The state an instruction answers; the reset state where it stops. -/
def ran (i : Instr) (s : State) : State :=
  match exec i s with
  | .next t => t
  | .fault _ => State.reset
  | .refused _ => State.reset

/-- The state `n` steps answer; the reset state where they stop. -/
def after (n : Nat) (s : State) : State :=
  match Host.Core.run core n s with
  | .next t => t
  | .fault _ => State.reset
  | .refused _ => State.reset

/-! ### WellFormed refuses -/

theorem test_wf_refuses_splByte : Instr.wellFormed cfg0 (.splByte 4) = false := by decide
theorem test_wf_refuses_splBits : Instr.wellFormed cfg0 (.splBits 4) = false := by decide
theorem test_wf_refuses_cmBit : Instr.wellFormed cfg0 (.cmBit 40) = false := by decide
theorem test_wf_refuses_ilTag : Instr.wellFormed cfg0 (.ilTag 40) = false := by decide
theorem test_wf_accepts_last : Instr.wellFormed cfg0 (.splByte 3) = true ∧ Instr.wellFormed cfg0 (.splBits 3) = true ∧
    Instr.wellFormed cfg0 (.cmBit 39) = true ∧ Instr.wellFormed cfg0 (.ilTag 39) = true := by decide

/-! ### Decoding: the words of R82, bits 31:8 RSVD, 7:4 OPC, 3:0 HDRARG; the labels of R94, bits 7:4 the unit, 3:0 the operation -/

theorem test_decode_compress : decodeCommand 0b000000000000000000000000_0001_0000#32 = .ok .compress := rfl
theorem test_decode_encode : decodeCommand 0b000000000000000000000000_0010_1101#32 = .ok (.encode 13) := rfl
theorem test_decode_clear : decodeCommand 0b000000000000000000000000_0011_0000#32 = .ok .clear := rfl
theorem test_decode_splInit : decodeTableWord 8 0b0001_0000 = some .splInit := by decide
theorem test_decode_splByte : decodeTableWord 8 0b0001_0001 = some (.splByte 0) := by decide
theorem test_decode_splBits : decodeTableWord 8 0b0001_0010 = some (.splBits 0) := by decide
theorem test_decode_cmInit : decodeTableWord 8 0b0010_0000 = some .cmInit := by decide
theorem test_decode_cmBit : decodeTableWord 8 0b0010_0001 = some (.cmBit 0) := by decide
theorem test_decode_pemInit : decodeTableWord 8 0b0011_0000 = some .pemInit := by decide
theorem test_decode_pemPredict : decodeTableWord 8 0b0011_0001 = some (.pemPredict 0) := by decide
theorem test_decode_pemStep : decodeTableWord 8 0b0011_0010 = some (.pemStep 0 0) := by decide
theorem test_decode_gceInit : decodeTableWord 8 0b0100_0000 = some .gceInit := by decide
theorem test_decode_gcePutbit : decodeTableWord 8 0b0100_0001 = some (.gcePutbit 0 0) := by decide
theorem test_decode_gceFinish : decodeTableWord 8 0b0100_0010 = some .gceFinish := by decide
theorem test_decode_ilInit : decodeTableWord 8 0b0101_0000 = some .ilInit := by decide
theorem test_decode_ilTag : decodeTableWord 8 0b0101_0001 = some (.ilTag 0) := by decide
theorem test_decode_ilMovebit : decodeTableWord 8 0b0101_0010 = some (.ilMovebit 0) := by decide
theorem test_decode_ilLen : decodeTableWord 8 0b0101_0011 = some .ilLen := by decide
theorem test_decode_orcBegin : decodeTableWord 8 0b0110_0000 = some (.orcBegin 0) := by decide
theorem test_decode_orcSelect : decodeTableWord 8 0b0110_0001 = some .orcSelect := by decide
theorem test_decode_orcDone : decodeTableWord 8 0b0110_0010 = some .orcDone := by decide
theorem test_decode_operands : decodeUop 0x32 { UopOperands.zero with bit := 1, ctx := 17 } = .ok (.pemStep 1 17) ∧
    decodeUop 0x41 { UopOperands.zero with cls := 5, sym := 1 } = .ok (.gcePutbit 5 1) := ⟨rfl, rfl⟩
theorem test_decode_illegal : (List.map (decodeTableWord 32) [0x00, 0x11, 0x31, 0x40, 0xF0, 0x110, 0x80000010]).all
    (· == none) = true := by decide

/-! ### One step each; expected values from the examples of the instruction's rule unless said otherwise -/

/-- R165, R166. -/
theorem test_compress_starts : (ran .compress { s0 with outMax := 99 }).seq = ⟨.run, .compress, 0, 0x60, 0⟩ ∧
    (ran .compress { s0 with outMax := 99 }).outLimit = 16 ∧ (ran .compress s0).status.busy = true := by decide
/-- R167; R187: five bytes do not fit an IN of four. -/
theorem test_encode_forces_header : (ran (.encode 13) s0).seq = ⟨.run, .encode, 13, 0x60, 0⟩ ∧
    (ran (.encode 13) { s0 with inLen := 5 }).status = ⟨false, true, true, false, 2⟩ := by decide
/-- R172. -/
theorem test_clear : (ran .clear { s0 with status := ⟨false, true, true, true, 3⟩ }).status =
    ⟨false, false, false, false, 0⟩ := by decide
/-- R110: h = 0x4 leaves SPLIT_SEL = 7. -/
theorem test_splInit : (ran .splInit (run0 4 0x10 0)).splitSel = 7 ∧
    ((ran .splInit (run0 4 0x10 0)).plane 6).wpos = 0 := by decide
/-- R112: byte 0x34 goes to plane 1. -/
theorem test_splByte : (ran (.splByte 1) (run0 0 0x11 1)).plane 1 = ⟨[(0, 0x34)], 8, 0⟩ := by decide
/-- R113: the bits 0, 1, 0, 0, 1, 0, 0, 0 of 0x12. -/
theorem test_splBits : (List.range 8).map (fun p => ((ran (.splBits 0) (run0 12 0x12 0)).plane (BitVec.ofNat 3 p)).mem) =
    [[], [(0, 0x80)], [], [], [(0, 0x80)], [], [], []] := by decide
/-- R120: h = 0x8 leaves MODEL_SEL = 3. -/
theorem test_cmInit : (ran .cmInit (run0 8 0x20 0)).modelSel = 3 := by decide
/-- R124: CM_BIT 1 under h = 0 gives plane 1 and context 16; plane 1 is empty, so the bit is SLOT[16].mps. -/
theorem test_cmBit_pads : (ran (.cmBit 1) (({ run0 0 0x21 1 with hdr := 0 } : State).setSlot 16 ⟨3, 1⟩)).wires =
    { bit := 1, ctx := 16, cls := 0, sym := 0, eor := 0, pad := 1 } := by decide
/-- R87 for mode 3 and R125, worked by hand: history bits 8, 7, 1, 0 all set, the plane's bit 7 is 0. -/
theorem test_cmBit_reads : (ran (.cmBit 0)
    (((run0 3 0x21 0).setPlane 1 ⟨[(0, 0x40)], 8, 0⟩).setHistory 1 0x183)).wires.ctx = 31 ∧
    (ran (.cmBit 0) (((run0 3 0x21 0).setPlane 1 ⟨[(0, 0x40)], 8, 0⟩).setHistory 1 0x183)).history 1 = 0x306 := by
  decide
/-- R136. -/
theorem test_pemInit : (ran .pemInit ((run0 0 0x30 0).setSlot 16 ⟨9, 1⟩)).slot 16 = ⟨0, 0⟩ := by decide
/-- R137. -/
theorem test_pemPredict : (ran (.pemPredict 7) ((run0 0 0x31 0).setSlot 7 ⟨9, 1⟩)).wires.bit = 1 := by decide
/-- R138: SLOT[0] = (0, 0) and bit 1 give state 25, mps 1, codeword `1` in channel 0. -/
theorem test_pemStep : (ran (.pemStep 1 0) (run0 0 0x32 0)).slot 0 = ⟨25, 1⟩ ∧
    (ran (.pemStep 1 0) (run0 0 0x32 0)).chan 0 = ⟨[(0, 0x80)], 1, 0⟩ ∧
    (ran (.pemStep 1 0) (run0 0 0x32 0)).tags = [0] := by decide
/-- R145. -/
theorem test_gceInit : (ran .gceInit (((run0 0 0x40 0).setChan 3 ⟨[(0, 1)], 8, 2⟩).setCount 2 3)).chan 3 = ⟨[], 0, 0⟩ ∧
    (ran .gceInit ((run0 0 0x40 0).setCount 2 3)).count 2 = 0 := by decide
/-- R148: class 2 with count 2 and a mismatch emits `110`, with no second tag. -/
theorem test_gcePutbit_mismatch : (ran (.gcePutbit 2 1) ((run0 0 0x41 0).setCount 2 2)).chan 2 = ⟨[(0, 0xC0)], 3, 0⟩ ∧
    (ran (.gcePutbit 2 1) ((run0 0 0x41 0).setCount 2 2)).tags = [] := by decide
/-- R148: the 128th match of class 7 emits `0`. -/
theorem test_gcePutbit_full_run : (ran (.gcePutbit 7 0) ((run0 0 0x41 0).setCount 7 127)).wires.eor = 1 ∧
    ((ran (.gcePutbit 7 0) ((run0 0 0x41 0).setCount 7 127)).chan 7).wpos = 1 := by decide
/-- R151: counts 2 in classes 2 and 3 append one bit to each. -/
theorem test_gceFinish : (List.range 8).map (fun c =>
    ((ran .gceFinish (((run0 0 0x42 0).setCount 2 2).setCount 3 2)).chan (BitVec.ofNat 3 c)).wpos) =
    [0, 0, 1, 1, 0, 0, 0, 0] := by decide
/-- R155: HDR = 0xD gives ATT[0] = 0xD0 and OPOS = 4. -/
theorem test_ilInit : (ran .ilInit (run0 13 0x50 0)).att = [(0, 0xD0)] ∧ (ran .ilInit (run0 13 0x50 0)).opos = 4 := by
  decide
/-- R157: tag 2 with CHAN[2] holding `110` moves three bits. -/
theorem test_ilTag : (ran (.ilTag 0) { (run0 0 0x51 0).setChan 2 ⟨[(0, 0xC0)], 3, 0⟩ with tags := [2], opos := 4 }).att =
    [(0, 0x0C)] ∧
    (ran (.ilTag 0) { (run0 0 0x51 0).setChan 2 ⟨[(0, 0xC0)], 3, 0⟩ with tags := [2], opos := 4 }).opos = 7 := by decide
/-- R156: CHAN[0] = `1` and OPOS = 4 set ATT[0] bit 3. -/
theorem test_ilMovebit : (ran (.ilMovebit 0) { (run0 0 0x52 0).setChan 0 ⟨[(0, 0x80)], 1, 0⟩ with opos := 4 }).att =
    [(0, 0x08)] := by decide
/-- V-L2-IL-2: OPOS = 13 is two bytes; R159: over a limit of 1 it is INF. -/
theorem test_ilLen : (ran .ilLen { run0 0 0x53 0 with opos := 13 }).alen = .bytes 2 ∧
    (ran .ilLen { run0 0 0x53 0 with opos := 13, outLimit := 1 }).alen = .inf := by decide
/-- R169: ORC_BEGIN 13. -/
theorem test_orcBegin : (ran (.orcBegin 13) (run0 0 0x60 0)).hdr = 0xD ∧ (ran (.orcBegin 13) (run0 0 0x60 0)).pm = 3 := by
  decide
/-- R170: length 3 replaces 4; a tie at 4 does not. -/
theorem test_orcSelect : (ran .orcSelect { run0 2 0x61 0 with alen := .bytes 3, bestLen := .bytes 4 }).bestHdr = 2 ∧
    (ran .orcSelect { run0 1 0x61 0 with alen := .bytes 4, bestLen := .bytes 4 }).bestHdr = 0 := by decide
/-- R171, with the bytes of V-L2-IL-2. -/
theorem test_orcDone : (ran .orcDone { run0 12 0x62 0 with best := [(0, 0xC5), (1, 0xE0)], bestLen := .bytes 2, bestHdr := 12
    }).outMem = [(0, 0xC5), (1, 0xE0)] ∧
    (ran .orcDone { run0 12 0x62 0 with bestLen := .inf }).status = ⟨false, true, true, false, 1⟩ := by decide

/-- The first instruction after reset: the label's micro-operation, and the command word's command. -/
theorem test_step_runs_first : (after 1 (State.reset.withFetchWord 8 0x50)).opos = 4 ∧
    (after 1 (State.reset.withFetchWord 32 0x2D)).seq.hcur = 13 := by decide

/-! ### States and operands that meet the statements' hypotheses -/

/-- A state about to make one host move. -/
def hosting (s : State) (m : HostMove) : State := { s with host := [m] }

theorem hosting_makes (s : State) (m : HostMove) : (hosting s m).hostMakes (m.placed s.cfg) [] := ⟨m, rfl, rfl⟩

/-- A busy state. -/
def busy0 : State := run0 0 0x21 0

theorem witness_IllegalCommandWords : ∃ s t : State,
    s.hostMakes (.regWrite .w32 0 0x11) [] ∧ s.status.busy = false ∧ t.hostMakes (.regWrite .w32 0 0x40) [] ∧ t.status.busy = true ∧
      decodeCommand 0x11 = .error (.illegalCommand 0x11) ∧ decodeCommand 0x40 = .error (.illegalCommand 0x40) :=
  ⟨hosting s0 (.regWrite .w32 0 0x11), hosting busy0 (.regWrite .w32 0 0x40), hosting_makes _ _, rfl, hosting_makes _ _, rfl, rfl, rfl⟩
theorem witness_BadLabelOrInvariantIsInternalFault : (run0 0 0x63 0).seq.phase = .run ∧ (run0 0 0x63 0).host = [] ∧
    (run0 0 0x63 0).seq.uop.toNat ∉ [0x10, 0x11, 0x12, 0x20, 0x21, 0x30, 0x31, 0x32, 0x40, 0x41, 0x42, 0x50, 0x51,
      0x52, 0x53, 0x60, 0x61, 0x62] := by decide
theorem witness_BadLabelOrInvariantIsInternalFault_invariants :
    32 < (((run0 0 0x21 0).setSlot 31 ⟨33, 0⟩).slot 31).state.toNat ∧
    2 ^ (7#3).toNat ≤ (((run0 0 0x53 0).setCount 7 128).count 7).toNat ∧
    ({ run0 0 0x21 0 with nbit := 33 } : State).nb < ({ run0 0 0x21 0 with nbit := 33 } : State).nbit ∧
    (((run0 0 0x21 0).setPlane 7 ⟨[], 0, 1⟩).plane 7).wpos < (((run0 0 0x21 0).setPlane 7 ⟨[], 0, 1⟩).plane 7).rpos := by
  decide
/-- The unused label 0x13 after a pause and behind each wait; each clause of the statement has its own form of the turn. -/
theorem witness_BadLabelOrInvariantIsInternalFault_turns :
    (hosting (run0 0 0x13 0) .pause).seq.phase = .run ∧ (hosting (run0 0 0x13 0) .pause).seq.uop.toNat = 0x13 ∧
    (hosting (run0 0 0x13 0) .pause).hostMakes .pause [] ∧
    (hosting (run0 0 0x13 0) .waitDone).hostMakes .waitDone [] ∧ (hosting (run0 0 0x13 0) .waitDone).status.done = false ∧
    (hosting (run0 0 0x13 0) .waitIrq).hostMakes .waitIrq [] ∧ irq (hosting (run0 0 0x13 0) .waitIrq) = false ∧
    (after 1 (hosting (run0 0 0x13 0) .waitDone)).host = [.waitDone] :=
  ⟨rfl, rfl, hosting_makes _ _, hosting_makes _ _, rfl, hosting_makes _ _, rfl, rfl⟩
theorem witness_StepRunsWrittenCommand : (hosting s0 (.regWrite .w32 0 0x2F)).hostMakes (.regWrite .w32 0 0x2F) [] ∧
    decodeCommand 0x2F = .ok (.encode 15) := ⟨hosting_makes _ _, rfl⟩
theorem witness_StepRunsMicroOperation : busy0.seq.phase = .run ∧
    decodeUop busy0.seq.uop busy0.operands = .ok (.cmBit 0) ∧ attemptLive (.cmBit 0) = true ∧
    busy0.invariantsHold = true ∧ busy0.host = [] := ⟨rfl, rfl, rfl, by decide, rfl⟩
theorem witness_StepRunsMicroOperation_pause : (hosting busy0 .pause).seq.phase = .run ∧
    decodeUop (hosting busy0 .pause).seq.uop (hosting busy0 .pause).operands = .ok (.cmBit 0) ∧
    (hosting busy0 .pause).invariantsHold = true ∧ (hosting busy0 .pause).hostMakes .pause [] :=
  ⟨rfl, rfl, by decide, hosting_makes _ _⟩
theorem witness_StepRunsMicroOperation_poll : (hosting busy0 .waitDone).seq.phase = .run ∧
    decodeUop (hosting busy0 .waitDone).seq.uop (hosting busy0 .waitDone).operands = .ok (.cmBit 0) ∧
    (hosting busy0 .waitDone).invariantsHold = true ∧ (hosting busy0 .waitDone).hostMakes .waitDone [] ∧
    (hosting busy0 .waitDone).status.done = false := ⟨rfl, rfl, by decide, hosting_makes _ _, rfl⟩
theorem witness_StepRunsMicroOperation_irq : (hosting busy0 .waitIrq).seq.phase = .run ∧
    decodeUop (hosting busy0 .waitIrq).seq.uop (hosting busy0 .waitIrq).operands = .ok (.cmBit 0) ∧
    (hosting busy0 .waitIrq).invariantsHold = true ∧ (hosting busy0 .waitIrq).hostMakes .waitIrq [] ∧
    irq (hosting busy0 .waitIrq) = false := ⟨rfl, rfl, by decide, hosting_makes _ _, rfl⟩
theorem witness_IdleEngineChangesNothing : s0.seq.phase = .idle ∧ s0.host = [] ∧ (hosting s0 .pause).seq.phase = .idle ∧
    (hosting s0 .pause).hostMakes .pause [] := ⟨rfl, rfl, rfl, hosting_makes _ _⟩
theorem witness_IdleEngineChangesNothing_waits : (hosting s0 .waitDone).seq.phase = .idle ∧
    (hosting s0 .waitDone).hostMakes .waitDone [] ∧ (hosting s0 .waitDone).status.done = false ∧
    (hosting s0 .waitIrq).seq.phase = .idle ∧ (hosting s0 .waitIrq).hostMakes .waitIrq [] ∧
    irq (hosting s0 .waitIrq) = false := ⟨rfl, hosting_makes _ _, rfl, rfl, hosting_makes _ _, rfl⟩
theorem witness_ResetValues : ∃ t, (hosting busy0 .reset).hostMakes .reset [] ∧ step (hosting busy0 .reset) = .next t :=
  ⟨_, hosting_makes _ _, rfl⟩
theorem witness_CommandsAreAccepted : ({ s0 with inLen := 4 } : State).status.busy = false ∧
    ({ s0 with inLen := 4 } : State).inLen ≤ ({ s0 with inLen := 4 } : State).cfg.inCap := by decide
theorem witness_OversizedInputFails : ({ s0 with inLen := 5 } : State).status.busy = false ∧
    ({ s0 with inLen := 5 } : State).cfg.inCap < ({ s0 with inLen := 5 } : State).inLen := by decide
theorem witness_ClearAcknowledges : s0.status.busy = false := rfl
theorem witness_BusyWritesOnlyOverrun : ∀ off ∈ [0x00, 0x08, 0x0C],
    (hosting busy0 (.regWrite .w32 off 0x30)).status.busy = true ∧
      (hosting busy0 (.regWrite .w32 off 0x30)).hostMakes (.regWrite .w32 off 0x30) [] :=
  fun _ _ => ⟨rfl, hosting_makes _ _⟩
theorem witness_OverrunIsSticky : ∃ t, step { s0 with status := ⟨false, true, false, true, 0⟩ } = .next t ∧
    ({ s0 with status := ⟨false, true, false, true, 0⟩ } : State).status.ovr = true := ⟨_, rfl, rfl⟩
theorem witness_OnlyCompletionOrResetEndsACommand : ∃ t, step (run0 0 0x62 0) = .next t ∧
    (run0 0 0x62 0).status.busy = true ∧ t.status.busy = false := ⟨_, rfl, rfl, rfl⟩
theorem witness_RegisterWrites : ∀ off ∈ [0x04, 0x08, 0x0C, 0x10, 0x14, 0x18, 0x1C, 0x20, 0x7C, 0x80],
    (hosting s0 (.regWrite .w32 off 7)).hostMakes (.regWrite .w32 off 7) [] ∧ off % 4 = 0 ∧
      (hosting s0 (.regWrite .w32 off 7)).status.busy = false := fun off h => ⟨hosting_makes _ _, by revert off; decide, rfl⟩
theorem witness_RegisterWrites_busy : (hosting busy0 (.regWrite .w32 0x08 7)).status.busy = true ∧
    (hosting busy0 (.regWrite .w32 0x0C 7)).status.busy = true := ⟨rfl, rfl⟩
theorem witness_RegisterReads : ∀ off ∈ [0x00, 0x04, 0x08, 0x0C, 0x10, 0x14, 0x18, 0x1C, 0x20, 0x3C, 0x40, 0x7C, 0x80],
    (hosting s0 (.regRead .w32 off)).hostMakes (.regRead .w32 off) [] ∧ off % 4 = 0 :=
  fun off h => ⟨hosting_makes _ _, by revert off; decide⟩
theorem witness_HostAccessesLandOrStop_shape : (hosting s0 (.regRead .w8 0)).hostMakes (.regRead .w8 0) [] ∧
    AccessWidth.w8 ≠ .w32 ∧ (hosting s0 (.regWrite .w32 2 0)).hostMakes (.regWrite .w32 2 0) [] ∧ 2 % 4 ≠ 0 :=
  ⟨hosting_makes _ _, by decide, hosting_makes _ _, by decide⟩
/-- At the first and last addresses of each space, which touch. -/
theorem witness_HostAccessesLandOrStop_placed : disjointSpaces cfg0 ∧
    HostMove.placed cfg0 (.busWrite .w32 0x1000 7) = .regWrite .w32 0 7 ∧
    HostMove.placed cfg0 (.busRead .w32 0x107F) = .regRead .w32 0x7F ∧
    HostMove.placed cfg0 (.busWrite .w8 0x1080 0x107) = .inWrite 0 7 ∧
    HostMove.placed cfg0 (.busWrite .w8 0x1083 7) = .inWrite 3 7 ∧
    HostMove.placed cfg0 (.busRead .w8 0x1084) = .outRead 0 ∧
    HostMove.placed cfg0 (.busRead .w8 0x1093) = .outRead 15 := by decide
theorem witness_HostAccessesLandOrStop_stops : step (hosting s0 (.busRead .w8 0x1083)) = .refused .byteAccessShape ∧
    step (hosting s0 (.busWrite .w32 0x1080 7)) = .refused .byteAccessShape ∧
    step (hosting s0 (.busWrite .w8 0x1084 7)) = .refused .byteAccessShape ∧
    step (hosting s0 (.busRead .w16 0x1093)) = .refused .byteAccessShape ∧
    step (hosting s0 (.busRead .w8 0x1094)) = .fault (.noSuchAddress 0x1094) ∧
    step (hosting s0 (.busWrite .w32 0xFFF 7)) = .fault (.noSuchAddress 0xFFF) := ⟨rfl, rfl, rfl, rfl, rfl, rfl⟩
/-- The default parameters keep the spaces apart. -/
theorem test_default_spaces_disjoint : disjointSpaces defaultConfig := by decide
theorem witness_InputWrites : (hosting busy0 (.inWrite 0 1)).status.busy = true ∧
    (hosting s0 (.inWrite 4 1)).cfg.inCap.toNat ≤ 4 ∧ 3 < (hosting s0 (.inWrite 3 1)).cfg.inCap.toNat ∧
    (hosting s0 (.inWrite 3 1)).status.busy = false ∧ Memory.wf (hosting s0 (.inWrite 3 1)).inMem := by decide
theorem witness_OutputReads : (hosting s0 (.outRead 16)).cfg.outCap.toNat ≤ 16 ∧
    15 < (hosting s0 (.outRead 15)).cfg.outCap.toNat ∧ (hosting s0 (.outRead 15)).status.busy = false ∧
    15 < (hosting busy0 (.outRead 15)).cfg.outCap.toNat ∧ (hosting busy0 (.outRead 15)).status.busy = true := by decide
theorem witness_InterruptFollowsDoneAndEnable : (hosting s0 (.regWrite .w32 0x18 1)).hostMakes (.regWrite .w32 0x18 1) [] ∧
    (hosting s0 (.regWrite .w32 0x18 1)).status.busy = false ∧
    (hosting s0 (.regWrite .w32 0x18 1)).inLen ≤ (hosting s0 (.regWrite .w32 0x18 1)).cfg.inCap :=
  ⟨hosting_makes _ _, rfl, by decide⟩
/-- V-L2-EXC-7: a completed command and IRQ_EN = 1 give IRQ = 1. -/
theorem witness_InterruptFollowsDoneAndEnable_taken :
    (hosting { s0 with status := ⟨false, true, false, false, 0⟩, ie := true } .waitIrq).hostMakes .waitIrq [] ∧
    (after 1 (hosting { s0 with status := ⟨false, true, false, false, 0⟩, ie := true } .waitIrq)).reads = [.irq] :=
  ⟨hosting_makes _ _, rfl⟩
/-- A completed command ends WAIT_DONE: STATUS reads BUSY 0, DONE 1 (10_state.md R23). -/
theorem witness_InterruptFollowsDoneAndEnable_polled :
    (hosting { s0 with status := ⟨false, true, false, false, 0⟩ } .waitDone).hostMakes .waitDone [] ∧
    (after 1 (hosting { s0 with status := ⟨false, true, false, false, 0⟩ } .waitDone)).reads = [.reg 0x04 2] :=
  ⟨hosting_makes _ _, rfl⟩

/-- A state whose every plane has `n` bits. -/
def planesAt (n : Word) : State := { run0 0 0x11 3 with planes := Vector.replicate 8 ⟨[], n, 0⟩ }

theorem witness_SplByteRoutesOneByte : 3#32 < (planesAt 16).cfg.inCap ∧ 8 * (planesAt 16).cfg.planeCap < 2 ^ 32 ∧
    ∀ p, Memory.wf ((planesAt 16).plane p).mem ∧
      ((planesAt 16).plane p).wpos.toNat + 8 ≤ 8 * (planesAt 16).cfg.planeCap := by decide
theorem witness_SplBitsSpreadsOneByte : 3#32 < (planesAt 23).cfg.inCap ∧ 8 * (planesAt 23).cfg.planeCap < 2 ^ 32 ∧
    ∀ p, Memory.wf ((planesAt 23).plane p).mem ∧
      ((planesAt 23).plane p).wpos.toNat + 1 ≤ 8 * (planesAt 23).cfg.planeCap := by decide
theorem witness_SplitterLoopAndItsFault : (run0 0 0x11 4).cfg.inCap ≤ (4#32) := by decide
theorem witness_SplitterFollowsPlaneOfByte : ∀ pm ∈ [0#2, 1#2, 2#2], pm ≠ 3 := by decide
theorem witness_CmBitReplaysOneBit : (((run0 0 0x21 0).setPlane 0 ⟨[], 1, 0⟩).plane 0).rpos <
      (((run0 0 0x21 0).setPlane 0 ⟨[], 1, 0⟩).plane 0).wpos ∧
    ((run0 0 0x21 0).plane 0).wpos ≤ ((run0 0 0x21 0).plane 0).rpos := by decide
theorem witness_PaddingBitIsAMatch : ∃ t u, exec (.cmBit 0) busy0 = .next t ∧ t.wires.pad = 1 ∧
    exec (.pemStep t.wires.bit t.wires.ctx) t = .next u ∧ u.wires.sym = 0 := ⟨_, _, rfl, by decide, rfl, by decide⟩

/-- A channel `c` with `n` bits, 39 tags and a count. -/
def channelAt (c : BitVec 3) (n : Word) (cnt : BitVec 8) : State :=
  { ((run0 0 0x41 0).setChan c ⟨[], n, 0⟩).setCount c cnt with tags := List.replicate 39 0 }

theorem witness_PemStepUpdatesTheSlot : (((channelAt 7 313 0).setSlot 3 ⟨32, 0⟩).slot 3).state.toNat < 33 ∧
    (stTable[32]).runClass = 7 ∧ (channelAt 7 313 0).tags.length < (channelAt 7 313 0).cfg.tagCap ∧
    ((channelAt 7 313 0).chan 7).wpos.toNat + 8 ≤ (channelAt 7 313 0).cfg.chanCap ∧
    32 < (((channelAt 7 313 0).setSlot 3 ⟨33, 0⟩).slot 3).state.toNat ∧
    ((channelAt 7 320 127).chan 7).wpos.toNat + 1 ≤ (channelAt 7 320 127).cfg.chanCap := by decide
theorem witness_GcePutbitFeedsOneSymbol : Memory.wf ((channelAt 7 313 127).chan 7).mem ∧
    (channelAt 7 313 127).tags.length < (channelAt 7 313 127).cfg.tagCap ∧
    ((channelAt 7 313 127).chan 7).wpos.toNat + 8 ≤ (channelAt 7 313 127).cfg.chanCap ∧
    (channelAt 7 313 127).cfg.chanCap < 2 ^ 32 ∧
    ((channelAt 7 313 127).count 7).toNat < 2 ^ (7#3).toNat ∧
    ((channelAt 7 313 127).count 7).toNat + 1 = 2 ^ (7#3).toNat ∧
    ((channelAt 7 313 126).count 7).toNat + 1 < 2 ^ (7#3).toNat := by decide
/-- A match needs room only for the `0` that ends a full run; one that goes on needs none, nor a tag. -/
theorem witness_GcePutbitFeedsOneSymbol_room :
    ((channelAt 7 320 127).chan 7).wpos.toNat + 1 ≤ (channelAt 7 320 127).cfg.chanCap ∧ (0#1) ≠ 1 ∧
    (channelAt 7 321 126).count 7 ≠ 0 ∧ ((channelAt 7 321 126).count 7).toNat + 1 ≠ 2 ^ (7#3).toNat ∧
    (ran (.gcePutbit 7 0) (channelAt 7 320 127)).faulted = false ∧
    (ran (.gcePutbit 7 0) (channelAt 7 321 126)).faulted = false := by decide
theorem witness_MismatchCodewordCarriesTheCount : (127#8).toNat < 2 ^ (7#3).toNat ∧ (0#8).toNat < 2 ^ (0#3).toNat := by
  decide
/-- A full tag memory, a mismatch with one bit too little, a full channel at a run's end, and no tag or bit to move. -/
theorem witness_OverflowIsInternalFault :
    (({ channelAt 7 0 0 with tags := List.replicate 40 0 } : State).count 7 = 0 ∧
      ({ channelAt 7 0 0 with tags := List.replicate 40 0 } : State).cfg.tagCap ≤
        ({ channelAt 7 0 0 with tags := List.replicate 40 0 } : State).tags.length) ∧
    (channelAt 7 314 1).cfg.chanCap < ((channelAt 7 314 1).chan 7).wpos.toNat + ((7#3).toNat + 1) ∧
    (((channelAt 7 321 127).count 7).toNat + 1 = 2 ^ (7#3).toNat ∧
      (channelAt 7 321 127).cfg.chanCap < ((channelAt 7 321 127).chan 7).wpos.toNat + 1) ∧
    (channelAt 7 321 127).count 7 ≠ 0 ∧ (channelAt 7 321 1).tags.length ≤ (39#32).toNat ∧
    (channelAt 7 321 1).tags[(38#32).toNat]? = some 0 ∧
    ((channelAt 7 321 1).chan 0).wpos ≤ ((channelAt 7 321 1).chan 0).rpos := by decide
/-- State 32 has run class 7 (43_probability_estimator.md R135): PEM_STEP of a mismatch there with one bit too little in the channel. -/
theorem witness_OverflowIsInternalFault_pemStep :
    (((channelAt 7 314 1).setSlot 3 ⟨32, 0⟩).slot 3).state.toNat < 33 ∧ (stTable[32]).runClass = 7 ∧
    (1#1) ^^^ (((channelAt 7 314 1).setSlot 3 ⟨32, 0⟩).slot 3).mps = 1 ∧
    (ran (.pemStep 1 3) ((channelAt 7 314 1).setSlot 3 ⟨32, 0⟩)).faulted = true := by decide
theorem witness_OverflowIsInternalFault_planes :
    8 * (planesAt 17).cfg.planeCap <
      ((planesAt 17).plane (nextSel ((planesAt 17).hdr.extractLsb' 2 2) (planesAt 17).splitSel 0)).wpos.toNat + 8 ∧
    8 * (planesAt 24).cfg.planeCap < ((planesAt 24).plane 5).wpos.toNat + 1 ∧
    ({ s0 with opos := 136 } : State).cfg.outCap.toNat < ({ s0 with opos := 136 } : State).opos.toNat / 8 := by decide
theorem witness_GceFinishFlushesPartialRuns : (channelAt 3 320 1).cfg.chanCap < 2 ^ 32 ∧
    ∀ c, (channelAt 3 320 1).count c ≠ 0 → Memory.wf ((channelAt 3 320 1).chan c).mem ∧
      ((channelAt 3 320 1).chan c).wpos.toNat + 1 ≤ (channelAt 3 320 1).cfg.chanCap := by decide

/-- Channel 7 has one codeword of eight bits and a `0` after it; one tag of class 7; the output ends at the last byte of ATT. -/
def tagged : State :=
  { (run0 0 0x51 0).setChan 7 ⟨[(0, 0xFF)], 9, 0⟩ with tags := [7], opos := 128 }

theorem witness_IlMovebitMovesOneBit : Memory.wf tagged.att ∧ tagged.opos.toNat / 8 ≤ tagged.cfg.outCap.toNat ∧
    (tagged.chan 7).rpos < (tagged.chan 7).wpos ∧ (tagged.chan 0).wpos ≤ (tagged.chan 0).rpos := by decide
theorem witness_IlTagMovesOneCodeword : tagged.tags[(0#32).toNat]? = some 7 ∧ Memory.wf tagged.att ∧
    Memory.bitRead (tagged.chan 7).mem 0 = 1 ∧ 0 + 8 ≤ (tagged.chan 7).wpos.toNat ∧
    (tagged.opos.toNat + 8 - 1) / 8 ≤ tagged.cfg.outCap.toNat ∧ tagged.opos.toNat + 8 < 2 ^ 32 := by decide
theorem witness_TagLoopAndEarlyStop : (∃ t, exec .ilInit tagged = .next t ∧ (0#32).toNat < t.tags.length ∧
      (t.opos.toNat + 7) / 8 ≤ t.outLimit.toNat) ∧
    (∃ t, exec .ilInit { tagged with outLimit := 0 } = .next t ∧ (0#32).toNat < t.tags.length ∧
      t.outLimit.toNat < (t.opos.toNat + 7) / 8) ∧
    ∃ t, exec (.ilTag 0) tagged = .next t ∧ t.tags.length ≤ (0#32 + 1).toNat :=
  ⟨⟨_, rfl, by decide⟩, ⟨_, rfl, by decide⟩, ⟨_, rfl, by decide⟩⟩
theorem witness_OrcSelectKeepsTheShorter : Memory.wf (run0 2 0x61 0).best ∧ (run0 2 0x61 0).alen = .bytes 0 ∧
    ({ run0 2 0x61 0 with alen := .inf } : State).alen = .inf ∧
    (run0 2 0x61 0).seq.kind = .compress ∧ (run0 2 0x61 0).seq.hcur ≠ 15 ∧ (run0 15 0x61 0).seq.hcur = 15 := by decide
theorem witness_OrcSelectKeepsTheShorter_room : ({ run0 0 0x61 0 with alen := .bytes 17 } : State).seq.hcur = 0 ∧
    ({ run0 0 0x61 0 with alen := .bytes 17 } : State).cfg.outCap < 17#32 ∧ 16#32 ≤ (run0 0 0x61 0).cfg.outCap ∧
    (ran .orcSelect { run0 0 0x61 0 with alen := .bytes 16 }).bestLen = .bytes 16 ∧
    (ran .orcSelect { run0 0 0x61 0 with alen := .bytes 17 }).faulted = true := by decide
theorem witness_OrcDoneFinishesTheCommand : Memory.wf (run0 0 0x62 0).outMem ∧ (run0 0 0x62 0).bestLen = .inf ∧
    ({ run0 0 0x62 0 with bestLen := .bytes 16 } : State).bestLen = .bytes 16 := by decide
theorem witness_StepKeepsCanonicalAndLawful : s0.canonical ∧ s0.statusLawful ∧ ∃ t, step s0 = .next t := by
  refine ⟨?_, ?_, _, rfl⟩
  · unfold State.canonical; decide
  · unfold State.statusLawful; decide
/-- A full tag memory is within its size (00_scope.md R7). -/
theorem test_tagCap_reached : (channelAt 0 0 0).tags.length + 1 = (channelAt 0 0 0).cfg.tagCap ∧
    (ran (.gcePutbit 0 0) (channelAt 0 0 0)).tags.length = cfg0.tagCap := by decide
theorem witness_StepStaysWithinSizes : s0.withinSizes ∧ ∃ t, step s0 = .next t := by
  refine ⟨?_, _, rfl⟩
  refine ⟨by decide, by decide, by decide, by decide, by decide, by decide, by decide, by decide, by decide, ?_, ?_⟩
  · intro n h; cases h; decide
  · intro n h; cases h
theorem witness_StepKeepsUnitsLawful : (∀ i (h : i < 33), rowLegal s0.cfg.st[i]) ∧ s0.unitsLawful ∧
    ∃ t, step s0 = .next t := by
  refine ⟨by decide, ?_, _, rfl⟩
  unfold State.unitsLawful; decide
theorem witness_OnlyCompletionWritesOut : ∃ t, step { run0 0 0x62 0 with bestLen := .bytes 1 } = .next t ∧
    Memory.wf ({ run0 0 0x62 0 with bestLen := .bytes 1 } : State).outMem := ⟨_, rfl, by decide⟩
theorem witness_HeaderChangesOnlyAtOrcBegin : ∃ t,
    step { run0 5 0x60 0 with hdr := 4 } = .next t ∧ t.hdr ≠ ({ run0 5 0x60 0 with hdr := 4 } : State).hdr :=
  ⟨_, rfl, by decide⟩

/-- One more step of a run, where the step answers a next state. -/
theorem run_next (M : Host.Core) (n : Nat) (s u : M.State) (h : M.step s = .next u) : M.run (n + 1) s = M.run n u := by
  simp only [Host.Core.run, h]
theorem run_fault (M : Host.Core) (n : Nat) (s : M.State) (r : M.Fault) (h : M.step s = .fault r) :
    M.run (n + 1) s = .fault r := by
  simp only [Host.Core.run, h]
theorem run_refused (M : Host.Core) (n : Nat) (s : M.State) (r : M.Refusal) (h : M.step s = .refused r) :
    M.run (n + 1) s = .refused r := by
  simp only [Host.Core.run, h]

/-- A run from a reachable state ends in a reachable state. -/
theorem reachable_run (n : Nat) (s t : State) (h : Reachable s) (hr : Host.Core.run core n s = .next t) : Reachable t := by
  induction n generalizing s with
  | zero => cases hr; exact h
  | succ n ih =>
    cases hu : step s with
    | next u => exact ih u (.step s u h hu) ((run_next core n s u hu).symm.trans hr)
    | fault r => cases (run_fault core n s r hu).symm.trans hr
    | refused r => cases (run_refused core n s r hu).symm.trans hr

theorem cfg0_legal : legalConfig cfg0 := by decide

/-- The moves of a host that runs ENCODE 9 on the empty input with a limit of 16 bytes. -/
def encodeEmpty : State := State.start cfg0 [wr 0x0C 16, hostEncode 9]

theorem reachable_after (n : Nat) (h : Host.Core.run core n encodeEmpty = .next (after n encodeEmpty)) :
    Reachable (after n encodeEmpty) := reachable_run n _ _ (.start cfg0 _ cfg0_legal) h

theorem witness_InternalFaultIsUnreachable : Reachable (after 3 encodeEmpty) := reachable_after 3 rfl
theorem witness_InterleaverConsumesExactly : Reachable (after 9 encodeEmpty) ∧ (after 9 encodeEmpty).seq.phase = .run ∧
    (after 9 encodeEmpty).seq.uop = 0x53 := ⟨reachable_after 9 rfl, by decide, by decide⟩
theorem witness_SufficientLimitDiscardsNothing : Reachable (after 10 encodeEmpty) ∧
    (after 10 encodeEmpty).seq.phase = .run ∧ (after 10 encodeEmpty).seq.uop = 0x61 ∧
    (after 10 encodeEmpty).nb.toNat + 2 ≤ (after 10 encodeEmpty).outLimit.toNat :=
  ⟨reachable_after 10 rfl, by decide, by decide, by decide⟩
/-- The result is V-L1's empty input: one byte, the header nibble only (R158). -/
theorem witness_ResultIsTheShortestAttempt : Reachable (after 12 encodeEmpty) ∧
    (after 12 encodeEmpty).status.done = true ∧ (after 12 encodeEmpty).status.err = false ∧
    (after 12 encodeEmpty).outLen = 1 := ⟨reachable_after 12 rfl, by decide, by decide, by decide⟩
theorem witness_OutputStartsWithItsHeader : Reachable (after 12 encodeEmpty) ∧ (after 12 encodeEmpty).outLen ≠ 0 :=
  ⟨reachable_after 12 rfl, by decide⟩
theorem witness_EveryCommandCompletes : Reachable (after 2 encodeEmpty) ∧ (after 2 encodeEmpty).seq.phase = .run ∧
    (after 2 encodeEmpty).host = [] := ⟨reachable_after 2 rfl, by decide, by decide⟩
theorem witness_ResultDependsOnInputsOnly : ∃ s t : State, sameInputs s t ∧ s.canonical ∧ t.canonical ∧
    s.status.busy = false ∧ t.status.busy = false ∧ s.hostMakes (.regWrite .w32 0 0x29) [] ∧
    t.hostMakes (.regWrite .w32 0 0x29) [] ∧
    (0x29#32).extractLsb' 4 28 = 2 ∧ s.opos ≠ t.opos ∧ ∃ s', Host.Core.run core (0 + 1) s = .next s' := by
  refine ⟨hosting { s0 with inMem := [(0, 7)] } (.regWrite .w32 0 0x29), hosting { s0 with opos := 9 } (.regWrite .w32 0 0x29),
    ⟨rfl, rfl, rfl, fun k h => absurd h (Nat.not_lt_zero k)⟩, ?_, ?_, rfl, rfl, hosting_makes _ _, hosting_makes _ _, by decide,
    by decide, _, rfl⟩
  · unfold State.canonical; decide
  · unfold State.canonical; decide

end Sys2Proof.Tests
end

section
/-! The command words the decoder rejects and what a write of one does (30_encoding.md R83, 60_exceptions.md R191), and the context index bit by bit (R86, R87). -/

namespace Sys2Proof.Machine

/-! ### Illegal command words -/

/-- An opcode is one of the three commands, or one of those R83 leaves illegal. -/
theorem opcode_cases (opc : BitVec 4) : opc = 1 ∨ opc = 2 ∨ opc = 3 ∨ opc = 0 ∨ 4 ≤ opc.toNat := by
  revert opc
  decide

/-- The command decoder rejects exactly the words R83 lists. -/
theorem decodeCommand_illegal_iff (w : BitVec 32) :
    decodeCommand w = .error (.illegalCommand w) ↔
      (w.extractLsb' 8 24 ≠ 0 ∨
        w.extractLsb' 4 4 = 0 ∨ 4 ≤ (w.extractLsb' 4 4).toNat ∨
        ((w.extractLsb' 4 4 = 1 ∨ w.extractLsb' 4 4 = 3) ∧ w.extractLsb' 0 4 ≠ 0)) := by
  unfold decodeCommand
  generalize w.extractLsb' 8 24 = rsvd
  generalize w.extractLsb' 4 4 = opc
  generalize w.extractLsb' 0 4 = hdrarg
  by_cases hrsvd : rsvd = 0
  case neg => exact iff_of_true (if_pos hrsvd) (.inl hrsvd)
  subst hrsvd
  rcases opcode_cases opc with rfl | rfl | rfl | hnone
  · by_cases hz : hdrarg = 0 <;> simp [hz]
  · simp
  · by_cases hz : hdrarg = 0 <;> simp [hz]
  · have h1 : opc ≠ 1 := by rintro rfl; exact absurd hnone (by decide)
    have h2 : opc ≠ 2 := by rintro rfl; exact absurd hnone (by decide)
    have h3 : opc ≠ 3 := by rintro rfl; exact absurd hnone (by decide)
    refine iff_of_true ?_ (.inr (hnone.imp_right .inl))
    simp only [h1, h2, h3, ne_eq, not_true_eq_false, false_and, if_false]

/-- A host write to CMD is the write of its word, with the move taken from the host's list. -/
theorem step_of_cmdWrite (s : State) (w : Word) (rest : List HostMove)
    (h : s.hostMakes (.regWrite .w32 0 w) rest) :
    step s = ({ s with host := rest } : State).writeCmd w := by
  rw [step_of_hostMakes s _ rest h]
  rfl

/-- A rejected word runs no command: it goes to illegalCommand, idle or BUSY. -/
theorem State.writeCmd_of_illegal (s : State) (w : Word) (e : DecodeError) (h : decodeCommand w = .error e) :
    s.writeCmd w = .next s.illegalCommand := by
  simp only [State.writeCmd, h]

/-- An illegal word while idle completes at once with ILLEGAL_COMMAND (60_exceptions.md R191); BUSY stays 0. -/
theorem State.illegalCommand_of_idle (s : State) (h : s.status.busy = false) :
    s.illegalCommand = { s with
      outLen := 0, resultHdr := 0
      status := { s.status with done := true, err := true, errcode := 3 } } := by
  have hfail : statusFailed .illegalCommand s.status =
      { s.status with done := true, err := true, errcode := 3 } := by
    simp only [statusFailed, errorCode, h]
  simp only [State.illegalCommand, h, hfail, Bool.false_eq_true, if_false]

/-- An illegal word while BUSY only sets OVR, as every CMD write while BUSY does (46_orchestrator.md R173). -/
theorem State.illegalCommand_of_busy (s : State) (h : s.status.busy = true) :
    s.illegalCommand = { s with status := { s.status with ovr := true } } := by
  simp only [State.illegalCommand, h, if_true, State.overrun, statusOverrun]

/-- Settles O3: the decoder rejects R83's words, and a write of one takes the idle or the BUSY branch of illegalCommand. -/
theorem illegalCommandWords : Obligations.IllegalCommandWords := by
  refine ⟨decodeCommand_illegal_iff, fun s w rest hw hd => ?_⟩
  have hstep : step s = .next ({ s with host := rest } : State).illegalCommand := by
    rw [step_of_cmdWrite s w rest hw, State.writeCmd_of_illegal _ w _ hd]
  constructor
  · intro hidle
    rw [hstep, State.illegalCommand_of_idle { s with host := rest } hidle]
  · intro hbusy
    rw [hstep, State.illegalCommand_of_busy { s with host := rest } hbusy]

/-! ### The context index -/

/-- Context bit 4 is the plane's parity (30_encoding.md R86). -/
theorem contextOf_getLsbD_four (p : BitVec 3) (cm : BitVec 2) (h : BitVec 16) :
    (contextOf p cm h).getLsbD 4 = p.getLsbD 0 := by
  rw [contextOf, BitVec.getLsbD_append, if_neg (by decide), BitVec.getLsbD_extractLsb']
  rfl

/-- Context bits 3:0 are the history's: bit `i` is history bit `i + 5` under HIMASK or history bit `i` under LOMASK (R87). -/
theorem contextOf_getLsbD_low (p : BitVec 3) (cm : BitVec 2) (h : BitVec 16) (i : Nat) (hi : i < 4) :
    (contextOf p cm h).getLsbD i =
      ((h.getLsbD (5 + i) && (hiMask cm).getLsbD i) || (h.getLsbD i && (loMask cm).getLsbD i)) := by
  rw [contextOf, BitVec.getLsbD_append, if_pos hi, histSelect, BitVec.getLsbD_setWidth, BitVec.getLsbD_or,
    BitVec.getLsbD_and, BitVec.getLsbD_and, BitVec.getLsbD_ushiftRight, decide_eq_true hi, Bool.true_and]

/-- Every context mode takes context bit 0 from history bit 0, and from no bit above (R87). -/
theorem masks_bit_zero (cm : BitVec 2) : (hiMask cm).getLsbD 0 = false ∧ (loMask cm).getLsbD 0 = true := by
  revert cm
  decide

/-- Settles O27: each context bit by its place, and the two masks of each context mode. -/
theorem contextIndexBits : Obligations.ContextIndexBits := by
  intro p cm h
  obtain ⟨hhi, hlo⟩ := masks_bit_zero cm
  have bit0 : (contextOf p cm h).getLsbD 0 = h.getLsbD 0 := by
    rw [contextOf_getLsbD_low p cm h 0 (by decide), hhi, hlo, Bool.and_false, Bool.false_or, Bool.and_true]
  have bit1 := contextOf_getLsbD_low p cm h 1 (by decide)
  have bit2 := contextOf_getLsbD_low p cm h 2 (by decide)
  have bit3 := contextOf_getLsbD_low p cm h 3 (by decide)
  refine ⟨contextOf_getLsbD_four p cm h, bit0, ?_, ?_, ?_, ?_⟩
  all_goals
    rintro rfl
    rw [bit1, bit2, bit3]
    simp [hiMask, loMask]

end Sys2Proof.Machine
end

section
/-! The splitter's two byte operations: where NextSel sends a byte and the bits SPL_BYTE appends there (41_splitter.md R111, R112), and how SPL_BITS spreads a byte over the planes (R113). -/

namespace Sys2Proof.Machine

/-! ### The operands of the splitter -/

/-- The low four bits of a byte index are 0 exactly at every 16th byte. -/
theorem low_four_bits_eq_zero_iff (k : Word) : k.extractLsb' 0 4 = 0 ↔ k.toNat % 16 = 0 := by
  rw [← BitVec.toNat_inj, BitVec.extractLsb'_toNat, Nat.shiftRight_zero]
  rfl

/-- NextSel by its arithmetic (R111): plane bit 0 toggles, and at every 16th byte the pair moves on by planeMode. -/
theorem nextSel_eq (pm : BitVec 2) (sel : BitVec 3) (k : Word) :
    nextSel pm sel k =
      if k.toNat % 16 = 0 then
        (if pm = 1 then (sel ^^^ 1) + 2 else if pm = 2 then (sel ^^^ 1) ^^^ 2 else sel ^^^ 1)
      else sel ^^^ 1 := by
  simp only [nextSel, toggleAdvance, beq_iff_eq, low_four_bits_eq_zero_iff]

@[simp] theorem byteBits_length (b : Byte) : (byteBits b).length = 8 := rfl

/-- The most significant bit of a byte comes first (R112). -/
theorem byteBits_getElem (b : Byte) (i : Nat) (h : i < 8) :
    (byteBits b)[i]'h = b.extractLsb' (7 - i) 1 := by
  interval_cases i <;> rfl

/-! ### Appending with room -/

/-- A write cursor moves on by the bits appended when it does not wrap. -/
theorem BitBuf.appendAll_wpos_toNat (b : BitBuf) (vs : List Bit) (h : b.wpos.toNat + vs.length < 2 ^ 32) :
    (b.appendAll vs).wpos.toNat = b.wpos.toNat + vs.length := by
  rw [BitBuf.appendAll_wpos, BitVec.toNat_add, BitVec.toNat_ofNat]
  omega

/-- One appended bit stands at the old write cursor, and every other bit is as before. -/
theorem BitBuf.bitRead_append (b : BitBuf) (v : Bit) (h : Memory.wf b.mem) (pos : Nat) :
    Memory.bitRead (b.append v).mem pos =
      if pos = b.wpos.toNat then v else Memory.bitRead b.mem pos := by
  rw [BitBuf.append_mem, Memory.bitRead_bitWrite _ _ _ _ h]

/-- Appended bits stand from the old write cursor on. -/
theorem BitBuf.bitRead_appendAll_new (b : BitBuf) (vs : List Bit) (hwf : Memory.wf b.mem)
    (hroom : b.wpos.toNat + vs.length ≤ 2 ^ 32) (i : Nat) (hi : i < vs.length) :
    Memory.bitRead (b.appendAll vs).mem (b.wpos.toNat + i) = vs[i] := by
  rw [BitBuf.bitRead_appendAll b vs hwf hroom, dif_pos (by omega)]
  simp only [Nat.add_sub_cancel_left]

/-- Bits before and behind the appended ones are as before. -/
theorem BitBuf.bitRead_appendAll_old (b : BitBuf) (vs : List Bit) (hwf : Memory.wf b.mem)
    (hroom : b.wpos.toNat + vs.length ≤ 2 ^ 32) (pos : Nat)
    (hpos : pos < b.wpos.toNat ∨ b.wpos.toNat + vs.length ≤ pos) :
    Memory.bitRead (b.appendAll vs).mem pos = Memory.bitRead b.mem pos := by
  rw [BitBuf.bitRead_appendAll b vs hwf hroom, dif_neg (by omega)]

/-! ### The two operations with the byte in IN and room in the planes -/

/-- The splitter loop moves SEQ only. -/
theorem State.splLoop_eq (s : State) (k : Word) : s.splLoop k = { s with seq := (s.splLoop k).seq } := by
  unfold State.splLoop
  split <;> rfl

/-- After a write of all eight planes each reads as the value written for it. -/
theorem State.plane_with_vec8 (s : State) (f : BitVec 3 → BitBuf) (p : BitVec 3) :
    ({ s with planes := vec8 f } : State).plane p = f p :=
  State.plane_vec8 _ f rfl p

/-- What holds of every numbered plane holds of every plane buffer. -/
theorem State.forall_mem_planes (s : State) (P : BitBuf → Prop) (h : ∀ p, P (s.plane p)) :
    ∀ b ∈ s.planes.toList, P b := by
  intro b hb
  obtain ⟨i, hi, rfl⟩ := Vector.mem_iff_getElem.1 (Vector.mem_toList_iff.1 hb)
  exact h ⟨i, hi⟩

/-- SPL_BYTE k with the byte in IN and room in the plane NextSel names: the byte's bits go to that plane alone. -/
theorem exec_splByte_of_room (s : State) (k : Word) (hin : k < s.cfg.inCap)
    (hroom : (s.plane (nextSel s.pm s.splitSel k)).wpos.toNat + 8 ≤ 8 * s.cfg.planeCap) :
    exec (.splByte k) s =
      .next ((({ s with splitSel := nextSel s.pm s.splitSel k } : State).setPlane (nextSel s.pm s.splitSel k)
        ((s.plane (nextSel s.pm s.splitSel k)).appendAll (byteBits (Memory.read s.inMem k.toNat)))).splLoop
          (k + 1)) :=
  if_pos ⟨hin, hroom⟩

/-- SPL_BITS k with the byte in IN and room in every plane: each plane takes its own bit of the byte. -/
theorem exec_splBits_of_room (s : State) (k : Word) (hin : k < s.cfg.inCap)
    (hroom : ∀ p, (s.plane p).wpos.toNat + 1 ≤ 8 * s.cfg.planeCap) :
    exec (.splBits k) s =
      .next (({ s with
        planes := vec8 fun p =>
          (s.plane p).append ((Memory.read s.inMem k.toNat).extractLsb' p.toNat 1) } : State).splLoop (k + 1)) :=
  if_pos ⟨hin, s.forall_mem_planes (fun b => b.wpos.toNat + 1 ≤ 8 * s.cfg.planeCap) hroom⟩

/-- Settles O22: the plane's buffer is the old one with the byte's eight bits appended, and no other plane is set. -/
theorem splByteRoutesOneByte : Obligations.SplByteRoutesOneByte := by
  intro s k pm s1 p hin hwf hcap hroom
  have hp : nextSel s.pm s.splitSel k = p := nextSel_eq _ _ _
  have hexec := exec_splByte_of_room s k hin (by rw [hp]; exact hroom)
  rw [hp] at hexec
  clear_value p
  generalize hbyte : Memory.read s.inMem k.toNat = byte at hexec ⊢
  have hnowrap : (s.plane p).wpos.toNat + (byteBits byte).length < 2 ^ 32 := by
    rw [byteBits_length]
    omega
  refine ⟨_, hexec, ?_⟩
  rw [State.splLoop_plane, State.plane_setPlane_same, State.splLoop_splitSel, State.setPlane_splitSel]
  refine ⟨rfl, ?_, BitBuf.appendAll_rpos _ _, fun i hi => ?_,
    BitBuf.bitRead_appendAll_old _ _ hwf hnowrap.le, fun q hq => ?_, ?_⟩
  · rw [BitBuf.appendAll_wpos_toNat _ _ hnowrap, byteBits_length]
  · rw [BitBuf.bitRead_appendAll_new _ _ hwf hnowrap.le i hi, byteBits_getElem byte i hi]
  · rw [State.splLoop_plane, State.plane_setPlane_other _ _ _ _ hq]
    rfl
  · rw [State.splLoop_planes]
    exact State.splLoop_eq _ _

/-- Settles O23: every plane is the old one with one bit appended, its own bit of the byte. -/
theorem splBitsSpreadsOneByte : Obligations.SplBitsSpreadsOneByte := by
  intro s k hin hcap hplanes
  refine ⟨_, exec_splBits_of_room s k hin fun p => (hplanes p).2, fun p => ?_, ?_⟩
  · obtain ⟨hwf, hroom⟩ := hplanes p
    rw [State.splLoop_plane, State.plane_with_vec8]
    refine ⟨?_, BitBuf.append_rpos _ _, BitBuf.bitRead_append _ _ hwf⟩
    rw [BitBuf.append_wpos, word_succ, Nat.mod_eq_of_lt (by omega)]
  · rw [State.splLoop_planes]
    exact State.splLoop_eq _ _

end Sys2Proof.Machine
end

section
/-! CM_BIT, the modeler's step: the plane SelectPlane names, the bit it replays from that plane or pads with the slot's prediction, and the state after it (42_context_modeler.md R121, R123 to R127). -/

namespace Sys2Proof.Machine

/-! ### The plane of a bit -/

/-- The low `m` bits of an index are 0 exactly at the multiples of `2 ^ m`. -/
theorem low_bits_eq_zero_iff (n : Word) (m : Nat) : n.extractLsb' 0 m = 0 ↔ n.toNat % 2 ^ m = 0 := by
  rw [← BitVec.toNat_inj, BitVec.extractLsb'_toNat, Nat.shiftRight_zero, BitVec.ofNat_eq_ofNat,
    BitVec.toNat_zero]

/-- The plane SelectPlane names (R121): the low three index bits in planeMode 3; otherwise plane bit 0 toggles, and at
every 128th bit the pair moves on by planeMode. -/
theorem selectPlane_fst (pm : BitVec 2) (sel : BitVec 3) (n : Word) :
    (selectPlane pm sel n).1 =
      if pm = 3 then n.extractLsb' 0 3
      else if n.toNat % 128 = 0 then
        (if pm = 1 then (sel ^^^ 1) + 2 else if pm = 2 then (sel ^^^ 1) ^^^ 2 else sel ^^^ 1)
      else sel ^^^ 1 := by
  have every128th : n.extractLsb' 0 7 = 0 ↔ n.toNat % 128 = 0 := low_bits_eq_zero_iff n 7
  simp only [selectPlane, apply_ite Prod.fst, toggleAdvance, beq_iff_eq, every128th]

/-- MODEL_SEL becomes the plane SelectPlane names, except in planeMode 3, which keeps it (R121). -/
theorem selectPlane_snd (pm : BitVec 2) (sel : BitVec 3) (n : Word) :
    (selectPlane pm sel n).2 = if pm = 3 then sel else (selectPlane pm sel n).1 := by
  unfold selectPlane
  split <;> rfl

/-! ### The bit replayed -/

/-- A buffer is exhausted exactly when its read cursor has reached its write cursor. -/
theorem BitBuf.exhausted_iff (b : BitBuf) : b.exhausted = true ↔ b.wpos ≤ b.rpos :=
  decide_eq_true_iff

/-- A buffer with an unread bit is not exhausted. -/
theorem BitBuf.exhausted_of_unread (b : BitBuf) (h : b.rpos < b.wpos) : b.exhausted = false :=
  decide_eq_false (BitVec.not_le.2 h)

/-- The bit CM_BIT replays from plane `p` under context `ctx`: the next unread one, or the prediction when none is left
(R125, R126). -/
def State.replayedBit (s : State) (p : BitVec 3) (ctx : BitVec 5) : Bit :=
  if (s.plane p).exhausted then s.predict ctx else (s.plane p).peek

/-- A plane's buffer after CM_BIT has replayed a bit from it: a padding bit leaves PLANE_RPOS (R125, R126). -/
def BitBuf.afterReplay (b : BitBuf) : BitBuf := if b.exhausted then b else b.advance

theorem State.replayedBit_of_unread (s : State) (p : BitVec 3) (ctx : BitVec 5)
    (h : (s.plane p).rpos < (s.plane p).wpos) :
    s.replayedBit p ctx = Memory.bitRead (s.plane p).mem (s.plane p).rpos.toNat := by
  rw [State.replayedBit, BitBuf.exhausted_of_unread _ h]
  rfl

theorem State.replayedBit_of_exhausted (s : State) (p : BitVec 3) (ctx : BitVec 5)
    (h : (s.plane p).wpos ≤ (s.plane p).rpos) : s.replayedBit p ctx = (s.slot ctx).mps :=
  if_pos ((BitBuf.exhausted_iff _).2 h)

theorem BitBuf.afterReplay_of_unread (b : BitBuf) (h : b.rpos < b.wpos) :
    b.afterReplay = { b with rpos := b.rpos + 1 } := by
  rw [BitBuf.afterReplay, BitBuf.exhausted_of_unread _ h]
  rfl

theorem BitBuf.afterReplay_of_exhausted (b : BitBuf) (h : b.wpos ≤ b.rpos) : b.afterReplay = b :=
  if_pos (b.exhausted_iff.2 h)

/-! ### The state after CM_BIT -/

/-- The state CM_BIT n leaves when SelectPlane names plane `p` and the context is `ctx` (R124). -/
def State.afterCmBit (s : State) (n : Word) (p : BitVec 3) (ctx : BitVec 5) : State :=
  ((({ s with
    modelSel := (selectPlane s.pm s.modelSel n).2
    nbit := n + 1
    wires := { s.wires with
      bit := s.replayedBit p ctx, ctx := ctx, pad := BitVec.ofBool (s.plane p).exhausted } } : State).setPlane p
        (s.plane p).afterReplay).setHistory p (histNext (s.history p) (s.replayedBit p ctx))).goto Label.pemStep n

/-- CM_BIT always answers a next state: the one of the plane SelectPlane names, and of that plane's context. -/
theorem exec_cmBit (s : State) (n : Word) (p : BitVec 3) (hp : (selectPlane s.pm s.modelSel n).1 = p) :
    exec (.cmBit n) s = .next (s.afterCmBit n p (contextOf p s.cm (s.history p))) := by
  subst hp
  rfl

section AfterCmBit

variable (s : State) (n : Word) (p : BitVec 3) (ctx : BitVec 5)

@[simp] theorem State.afterCmBit_plane_same : (s.afterCmBit n p ctx).plane p = (s.plane p).afterReplay :=
  State.plane_setPlane_same _ _ _

@[simp] theorem State.afterCmBit_history_same :
    (s.afterCmBit n p ctx).history p = histNext (s.history p) (s.replayedBit p ctx) :=
  State.history_setHistory_same _ _ _

theorem State.afterCmBit_plane_other (q : BitVec 3) (h : q ≠ p) : (s.afterCmBit n p ctx).plane q = s.plane q :=
  State.plane_setPlane_other _ _ _ _ h

theorem State.afterCmBit_history_other (q : BitVec 3) (h : q ≠ p) :
    (s.afterCmBit n p ctx).history q = s.history q :=
  State.history_setHistory_other _ _ _ _ h

@[simp] theorem State.afterCmBit_modelSel :
    (s.afterCmBit n p ctx).modelSel = (selectPlane s.pm s.modelSel n).2 := rfl

@[simp] theorem State.afterCmBit_wires : (s.afterCmBit n p ctx).wires =
    { s.wires with bit := s.replayedBit p ctx, ctx := ctx, pad := BitVec.ofBool (s.plane p).exhausted } := rfl

/-- Nothing but the modeler's registers, the wires and SEQ moves. -/
theorem State.afterCmBit_frame : s.afterCmBit n p ctx =
    { s with
      planes := (s.afterCmBit n p ctx).planes, hist := (s.afterCmBit n p ctx).hist
      modelSel := (s.afterCmBit n p ctx).modelSel, nbit := (s.afterCmBit n p ctx).nbit
      wires := (s.afterCmBit n p ctx).wires, seq := (s.afterCmBit n p ctx).seq } := rfl

end AfterCmBit

/-- Settles O28: CM_BIT's one next state, with the plane's buffer and the bit by whether the plane has an unread bit. -/
theorem cmBitReplaysOneBit : Obligations.CmBitReplaysOneBit := by
  intro s n pm s1 p ctx
  have hp : (selectPlane s.pm s.modelSel n).1 = p := selectPlane_fst _ _ _
  clear_value p
  refine ⟨s.afterCmBit n p ctx, s.replayedBit p ctx, exec_cmBit s n p hp, fun hunread => ?_, fun hexhausted => ?_,
    fun q hq => ⟨State.afterCmBit_plane_other _ _ _ _ q hq, State.afterCmBit_history_other _ _ _ _ q hq⟩,
    State.afterCmBit_history_same _ _ _ _, ?_, rfl, rfl, State.afterCmBit_frame _ _ _ _⟩
  · refine ⟨State.replayedBit_of_unread _ _ _ hunread, ?_, ?_⟩
    · rw [State.afterCmBit_plane_same, BitBuf.afterReplay_of_unread _ hunread]
    · rw [State.afterCmBit_wires, BitBuf.exhausted_of_unread _ hunread]
      rfl
  · refine ⟨State.replayedBit_of_exhausted _ _ _ hexhausted, ?_, ?_⟩
    · rw [State.afterCmBit_plane_same, BitBuf.afterReplay_of_exhausted _ hexhausted]
    · rw [State.afterCmBit_wires, (BitBuf.exhausted_iff _).2 hexhausted]
      rfl
  · rw [State.afterCmBit_modelSel, selectPlane_snd, hp]
    rfl

end Sys2Proof.Machine
end

section
/-! The Probability Estimator's prediction (43_probability_estimator.md R137). -/

namespace Sys2Proof.Machine

/-- The Estimator's prediction for a context is the MPS of the context's slot (R137). -/
theorem State.predict_eq_mps (s : State) (ctx : BitVec 5) : s.predict ctx = (s.slot ctx).mps := rfl

/-- PEM_PREDICT has one next state and no fault: the one with the prediction on the wire `bit` (log 8). -/
theorem exec_pemPredict (s : State) (ctx : BitVec 5) :
    exec (.pemPredict ctx) s = .next { s with wires := { s.wires with bit := s.predict ctx } } := rfl

/-- Settles O33: PEM_PREDICT's one next state, with the prediction read as the slot's MPS. -/
theorem pemPredictReturnsTheMps : Obligations.PemPredictReturnsTheMps := by
  intro s ctx
  rw [exec_pemPredict, State.predict_eq_mps]

end Sys2Proof.Machine
end

section
/-! GCE_PUTBIT, the Golomb encoder's step: what a symbol emits and leaves in the counter in the three cases of R148, the digits of a mismatch codeword, and the state after it (44_golomb_encoder.md R146 to R148). -/

namespace Sys2Proof.Machine

/-! ### The three cases of a symbol -/

/-- A counter counts modulo 2^8. -/
theorem count_succ (cnt : BitVec 8) : (cnt + 1).toNat = (cnt.toNat + 1) % 2 ^ 8 := BitVec.toNat_add _ _

/-- A count is one below its class limit as a register exactly when it is so as a number: no count wraps there. -/
theorem count_succ_eq_limit_iff (c : BitVec 3) (cnt : BitVec 8) :
    cnt + 1 = 1#8 <<< c.toNat ↔ cnt.toNat + 1 = 2 ^ c.toNat := by
  have hpos : 0 < 2 ^ c.toNat := Nat.two_pow_pos _
  have hlt : 2 ^ c.toNat < 2 ^ 8 := Nat.pow_lt_pow_right (by decide) (by omega)
  rw [← BitVec.toNat_inj, classLimit_toNat, count_succ]
  omega

/-- A mismatch ends the run with the mismatch codeword. -/
theorem symbol_of_mismatch (c : BitVec 3) (cnt : BitVec 8) :
    endOfRun c 1 cnt = 1 ∧ countAfter c 1 cnt = 0 ∧ emitted c 1 cnt = mismatchWord c cnt :=
  ⟨rfl, rfl, rfl⟩

/-- The match that makes the run 2^c long ends it with a `0`. -/
theorem symbol_of_fullRun (c : BitVec 3) (cnt : BitVec 8) (h : cnt.toNat + 1 = 2 ^ c.toNat) :
    endOfRun c 0 cnt = 1 ∧ countAfter c 0 cnt = 0 ∧ emitted c 0 cnt = [0] := by
  have hlimit := (count_succ_eq_limit_iff c cnt).mpr h
  have hend : endOfRun c 0 cnt = 1 := (endOfRun_eq_one c 0 cnt).mpr (.inr hlimit)
  exact ⟨hend, if_pos hend, if_pos hlimit⟩

/-- A match before the limit goes on with the run and emits nothing. -/
theorem symbol_of_match (c : BitVec 3) (cnt : BitVec 8) (h : cnt.toNat + 1 < 2 ^ c.toNat) :
    endOfRun c 0 cnt = 0 ∧ countAfter c 0 cnt = cnt + 1 ∧ emitted c 0 cnt = [] := by
  have hlimit : cnt + 1 ≠ 1#8 <<< c.toNat := mt (count_succ_eq_limit_iff c cnt).mp h.ne
  have hend : endOfRun c 0 cnt = 0 := if_neg hlimit
  exact ⟨hend, if_neg (by rw [hend]; decide), if_neg hlimit⟩

/-- A count below its class limit rises without wrapping. -/
theorem count_succ_of_lt (c : BitVec 3) (cnt : BitVec 8) (h : cnt.toNat < 2 ^ c.toNat) :
    (cnt + 1).toNat = cnt.toNat + 1 := by
  have hle : 2 ^ c.toNat ≤ 2 ^ 7 := Nat.pow_le_pow_right (by decide) (by omega)
  rw [count_succ, Nat.mod_eq_of_lt (by omega)]

/-! ### The digits of a mismatch codeword -/

/-- The mask of digit `i` finds a 0 exactly when the digit is 0. -/
theorem digit_mask_eq_zero_iff (cnt : BitVec 8) (i : Nat) (hi : i < 8) :
    cnt &&& (1#8 <<< i) = 0 ↔ cnt.getLsbD i = false := by
  have hmask : BitVec.twoPow 8 i ≠ 0#8 := by interval_cases i <;> decide
  rw [← BitVec.twoPow_eq, BitVec.and_twoPow]
  cases cnt.getLsbD i <;> simp [hmask]

/-- Behind its leading 1 a mismatch codeword holds the complements of the count's digits, least significant first. -/
theorem mismatchWord_getElem_succ (c : BitVec 3) (cnt : BitVec 8) (i : Nat) (hi : i < c.toNat) :
    (mismatchWord c cnt)[i + 1]'(by rw [mismatchWord_length]; omega) = if cnt.getLsbD i then 0 else 1 := by
  simp only [mismatchWord, List.getElem_cons_succ, List.getElem_map, List.getElem_range,
    digit_mask_eq_zero_iff cnt i (by omega)]
  cases cnt.getLsbD i <;> rfl

/-! ### The state after GCE_PUTBIT -/

/-- The state GCE_PUTBIT leaves when it has room (R148). -/
def State.afterPutBit (s : State) (c : BitVec 3) (sym : Bit) : State :=
  { s with
    tags := if s.count c = 0 then s.tags ++ [c] else s.tags
    chans := s.chans.set c.toNat ((s.chan c).appendAll (emitted c sym (s.count c)))
    runcnt := s.runcnt.set c.toNat (countAfter c sym (s.count c))
    wires := { s.wires with eor := endOfRun c sym (s.count c) } }

/-- GCE_PUTBIT with room has one next state and no fault. -/
theorem exec_gcePutbit_of_room (s : State) (c : BitVec 3) (sym : Bit) (h : s.gceRoom c sym = true) :
    exec (.gcePutbit c sym) s = .next (s.afterPutBit c sym) := by
  change execGcePutbit c sym s = _
  unfold execGcePutbit
  split
  next u herr =>
    obtain ⟨hno, -⟩ := State.putBit_error s c sym u herr
    exact absurd h (by rw [hno]; decide)
  next u eor hok =>
    obtain ⟨-, rfl, rfl⟩ := State.putBit_ok s c sym u eor hok
    rfl

section AfterPutBit

variable (s : State) (c : BitVec 3) (sym : Bit)

@[simp] theorem State.afterPutBit_chan_same :
    (s.afterPutBit c sym).chan c = (s.chan c).appendAll (emitted c sym (s.count c)) :=
  State.chan_setChan_same s c _

@[simp] theorem State.afterPutBit_count_same :
    (s.afterPutBit c sym).count c = countAfter c sym (s.count c) :=
  State.count_setCount_same s c _

theorem State.afterPutBit_chan_other (d : BitVec 3) (h : d ≠ c) : (s.afterPutBit c sym).chan d = s.chan d :=
  State.chan_setChan_other s c d _ h

theorem State.afterPutBit_count_other (d : BitVec 3) (h : d ≠ c) : (s.afterPutBit c sym).count d = s.count d :=
  State.count_setCount_other s c d _ h

@[simp] theorem State.afterPutBit_wires :
    (s.afterPutBit c sym).wires = { s.wires with eor := endOfRun c sym (s.count c) } := rfl

end AfterPutBit

/-- Settles O36: GCE_PUTBIT's one next state, with the channel's bits, the counter and eor by the three cases of the symbol. -/
theorem gcePutbitFeedsOneSymbol : Obligations.GcePutbitFeedsOneSymbol := by
  intro s c sym hwf htag hmismatch hfull hcap _
  have hroom := (s.gceRoom_iff c sym).mpr ⟨htag, hmismatch, hfull⟩
  refine ⟨s.afterPutBit c sym, exec_gcePutbit_of_room s c sym hroom, rfl, ⟨?_, ?_, ?_⟩, ?_,
    fun d hd => ⟨s.afterPutBit_chan_other c sym d hd, s.afterPutBit_count_other c sym d hd⟩, rfl, rfl⟩
  all_goals rw [State.afterPutBit_chan_same]
  · rintro rfl
    obtain ⟨hend, hcount, hemitted⟩ := symbol_of_mismatch c (s.count c)
    have hlen := mismatchWord_length c (s.count c)
    have hfits := hmismatch rfl
    rw [State.afterPutBit_wires, State.afterPutBit_count_same, hend, hcount, hemitted]
    refine ⟨rfl, rfl, ?_, ?_, fun i hi => ?_, fun pos hpos => ?_⟩
    · rw [BitBuf.appendAll_wpos_toNat _ _ (by omega), hlen]
    · exact BitBuf.bitRead_appendAll_new _ _ hwf (by omega) 0 (by omega)
    · rw [Nat.add_assoc, Nat.add_comm 1 i, BitBuf.bitRead_appendAll_new _ _ hwf (by omega) (i + 1) (by omega),
        mismatchWord_getElem_succ c _ i hi]
    · exact BitBuf.bitRead_appendAll_old _ _ hwf (by omega) pos (by omega)
  · rintro rfl hlimit
    obtain ⟨hend, hcount, hemitted⟩ := symbol_of_fullRun c (s.count c) hlimit
    have hfits := hfull hlimit
    rw [State.afterPutBit_wires, State.afterPutBit_count_same, hend, hcount, hemitted, BitBuf.appendAll_cons,
      BitBuf.appendAll_nil, BitBuf.append_wpos, word_succ, Nat.mod_eq_of_lt (by omega)]
    refine ⟨rfl, rfl, rfl, ?_, fun pos hpos => ?_⟩
    · rw [BitBuf.bitRead_append _ _ hwf, if_pos rfl]
    · rw [BitBuf.bitRead_append _ _ hwf, if_neg hpos]
  · rintro rfl hbelow
    obtain ⟨hend, hcount, hemitted⟩ := symbol_of_match c (s.count c) hbelow
    rw [State.afterPutBit_wires, State.afterPutBit_count_same, hend, hcount, hemitted]
    exact ⟨rfl, count_succ_of_lt c _ (by omega), BitBuf.appendAll_nil _⟩
  · exact BitBuf.appendAll_rpos _ _

end Sys2Proof.Machine
end

section
/-! The Interleaver: IL_INIT's header nibble and cursors, and IL_TAG as the moving of one whole codeword (45_interleaver.md R155, R157). -/

namespace Sys2Proof.Machine

/-- The tag loop moves SEQ, and ALEN where it stops the attempt early. -/
theorem State.tagLoop_eq (s : State) (t : Word) :
    s.tagLoop t = { s with alen := (s.tagLoop t).alen, seq := (s.tagLoop t).seq } := by
  obtain ⟨-, h⟩ | ⟨-, -, h⟩ | ⟨-, -, h⟩ := s.tagLoop_cases t <;> rw [h] <;> rfl

/-! ### IL_INIT -/

/-- A nibble put on top of a zero nibble is the byte's upper half, and the lower half is 0. -/
theorem nibble_append_zero (h : BitVec 4) :
    (h ++ 0#4).extractLsb' 4 4 = h ∧ (h ++ 0#4).extractLsb' 0 4 = 0 :=
  ⟨BitVec.extractLsb'_append_eq_left, BitVec.extractLsb'_append_eq_right⟩

/-- The state IL_INIT hands to the tag loop (R155). -/
def State.ilStart (s : State) : State :=
  { s with
    att := Memory.write [] 0 (s.hdr ++ 0#4)
    opos := 4
    chans := vec8 fun c => { s.chan c with rpos := 0 } }

/-- IL_INIT always answers a next state. -/
theorem exec_ilInit (s : State) : exec .ilInit s = .next (s.ilStart.tagLoop 0) := rfl

/-- The output starts as the header's byte with nothing behind it. -/
theorem State.ilStart_att_read (s : State) :
    Memory.read s.ilStart.att 0 = s.hdr ++ 0#4 ∧ ∀ k, k ≠ 0 → Memory.read s.ilStart.att k = 0 :=
  ⟨Memory.read_write_same [] 0 _ Memory.nil_wf, fun k hk => Memory.read_write_other [] 0 k _ hk⟩

/-- Every channel is to be read from its start again; its bits stay. -/
theorem State.ilStart_chan (s : State) (c : BitVec 3) : s.ilStart.chan c = { s.chan c with rpos := 0 } :=
  State.chan_vec8 s.ilStart (fun c => { s.chan c with rpos := 0 }) rfl c

/-- Settles O40: the tag loop that follows leaves the output, OPOS and the channels as IL_INIT set them. -/
theorem ilInitWritesTheHeader : Obligations.IlInitWritesTheHeader := by
  intro s
  obtain ⟨hfirst, hrest⟩ := s.ilStart_att_read
  obtain ⟨hhigh, hlow⟩ := nibble_append_zero s.hdr
  refine ⟨_, exec_ilInit s, ?_⟩
  rw [State.tagLoop_att, State.tagLoop_opos, State.tagLoop_chans, hfirst]
  refine ⟨hhigh, hlow, hrest, rfl, fun c => ?_, State.tagLoop_eq _ _⟩
  rw [State.tagLoop_chan, State.ilStart_chan]

/-! ### IL_TAG -/

/-- How many bits the codeword at a channel's read cursor has: 1 when its first bit is 0, c + 1 when it is 1 (R157). -/
def State.codewordLength (s : State) (c : BitVec 3) : Nat :=
  if Memory.bitRead (s.chan c).mem (s.chan c).rpos.toNat = 1 then c.toNat + 1 else 1

theorem State.codewordLength_pos (s : State) (c : BitVec 3) : 0 < s.codewordLength c := by
  unfold State.codewordLength
  split <;> omega

/-- IL_TAG is IL_MOVEBIT as often as the codeword at the read cursor has bits: the first move returns the bit that decides. -/
theorem State.moveTag_eq_moveBits (s : State) (t : Word) (c : BitVec 3) (htag : s.tags[t.toNat]? = some c) :
    s.moveTag t = s.moveBits c (s.codewordLength c) := by
  simp only [State.moveTag, htag]
  cases hmove : s.moveBit c with
  | error u =>
    obtain ⟨n, hn⟩ := Nat.exists_eq_add_one.mpr (s.codewordLength_pos c)
    simp only [hn, State.moveBits, hmove]
  | ok moved =>
    obtain ⟨u, b⟩ := moved
    obtain ⟨-, -, hb, -⟩ := State.moveBit_ok s c u b hmove
    have hlen : s.codewordLength c = if b = 1 then c.toNat + 1 else 1 := by rw [hb]; rfl
    by_cases hone : b = 1
    · simp only [hlen, if_pos hone, State.moveBits, hmove]
    · simp only [hlen, if_neg hone, State.moveBits, hmove]

/-- IL_TAG t with its codeword whole in the channel and room for it in ATT: the codeword's bits are moved, then the tag loop
goes on. -/
theorem exec_ilTag_of_room (s : State) (t : Word) (c : BitVec 3) (htag : s.tags[t.toNat]? = some c)
    (hwf : Memory.wf s.att)
    (hchan : (s.chan c).rpos.toNat + s.codewordLength c ≤ (s.chan c).wpos.toNat)
    (hatt : (s.opos.toNat + s.codewordLength c - 1) / 8 ≤ s.cfg.outCap.toNat)
    (hnowrap : s.opos.toNat + s.codewordLength c < 2 ^ 32) :
    ∃ u, s.moveBits c (s.codewordLength c) = .ok u ∧ exec (.ilTag t) s = .next (u.tagLoop (t + 1)) := by
  obtain ⟨u, hu⟩ := State.moveBits_of_room _ s c hwf hchan hnowrap (.inr hatt)
  refine ⟨u, hu, ?_⟩
  change execIlTag t s = _
  simp only [execIlTag, State.moveTag_eq_moveBits s t c htag, hu]

/-- Settles O42: IL_TAG moves as many bits as the codeword has, and the tag loop leaves the output and the channels alone. -/
theorem ilTagMovesOneCodeword : Obligations.IlTagMovesOneCodeword := by
  intro s t c r n htag hwf hchan hatt hnowrap
  have hn : n = s.codewordLength c := rfl
  clear_value n
  subst hn
  obtain ⟨u, hmoved, hexec⟩ := exec_ilTag_of_room s t c htag hwf hchan hatt hnowrap
  have hframe := State.moveBits_frame _ s u c hmoved
  obtain ⟨-, hopos, hrpos, hmem, hwpos, hother, hbits⟩ := State.moveBits_reads _ s u c hmoved hwf hnowrap
  refine ⟨_, hexec, ?_⟩
  rw [State.tagLoop_chan, State.tagLoop_opos, State.tagLoop_att, State.tagLoop_chans]
  refine ⟨hrpos, hmem, hwpos, hopos, fun i hi => ?_, fun pos hpos => ?_, fun d hd => ?_, ?_⟩
  · rw [hbits, if_pos (by omega), Nat.add_sub_cancel_left]
  · rw [hbits, if_neg (by omega)]
  · rw [State.tagLoop_chan, hother d hd]
  · rw [State.tagLoop_eq u, hframe]

end Sys2Proof.Machine
end

section
/-! The orchestrator at the register port: what CLEAR and a register write do (46_orchestrator.md R172, R174, 10_state.md R21 to R31). -/

namespace Sys2Proof.Machine

/-! ### CLEAR -/

/-- CLEAR while idle is the acknowledgement (46_orchestrator.md R172). -/
theorem exec_clear_of_idle (s : State) (h : s.status.busy = false) : exec .clear s = .next s.acknowledge := by
  change execClear s = _
  simp only [execClear, h, Bool.false_eq_true, if_false]

/-- STATUS after CLEAR has every field 0 when BUSY was 0 (46_orchestrator.md R172). -/
theorem statusCleared_of_idle (st : Status) (h : st.busy = false) :
    statusCleared st = { busy := false, done := false, err := false, ovr := false, errcode := 0 } := by
  simp only [statusCleared, h]

/-- Settles O11: CLEAR while idle is the acknowledgement, which writes STATUS alone. -/
theorem clearAcknowledges : Obligations.ClearAcknowledges := by
  intro s hidle
  rw [exec_clear_of_idle s hidle, State.acknowledge, statusCleared_of_idle s.status hidle]

/-! ### The register map -/

/-- Where the register map places a register (10_state.md R21). -/
def RegName.offset : RegName → Nat
  | .cmd => 0x00
  | .status => 0x04
  | .inLen => 0x08
  | .outMax => 0x0C
  | .outLen => 0x10
  | .resultHdr => 0x14
  | .irqEn => 0x18
  | .caps => 0x1C
  | .attemptLen h => 0x40 + 4 * h.toNat

/-- Each register is found at its own offset. -/
@[simp] theorem regAt_offset (r : RegName) : regAt r.offset = some r := by
  cases r with
  | attemptLen h =>
    revert h
    decide
  | _ => rfl

/-- A register is found at no other offset than its own. -/
theorem offset_of_regAt (off : Nat) (r : RegName) (h : regAt off = some r) : off = r.offset := by
  unfold regAt at h
  iterate 8
    rcases ite_or h with ⟨hoff, hr⟩ | h
    · cases hr
      exact hoff
  rcases ite_or h with ⟨hrange, hr⟩ | h
  · cases hr
    simp only [RegName.offset, BitVec.toNat_ofNat]
    omega
  · cases h

/-! ### Register writes -/

/-- An aligned 32-bit write to a register other than CMD is that register's write, with the move taken from the host's list. -/
theorem step_of_regWrite (s : State) (r : RegName) (v : Word) (rest : List HostMove)
    (h : s.hostMakes (.regWrite .w32 r.offset v) rest) (hal : r.offset % 4 = 0) (hcmd : r ≠ .cmd) :
    step s = .next (({ s with host := rest } : State).regWrite r v) := by
  rw [step_of_hostMakes s _ rest h]
  simp only [State.hostTurn, regAccess, hal, beq_self_eq_true, Bool.and_self, if_true, regAt_offset]

/-- A write to a reserved offset only takes the move from the host's list (10_state.md R31). -/
theorem step_of_reservedWrite (s : State) (off : Nat) (v : Word) (rest : List HostMove)
    (h : s.hostMakes (.regWrite .w32 off v) rest) (hal : off % 4 = 0) (hres : regAt off = none) :
    step s = .next { s with host := rest } := by
  rw [step_of_hostMakes s _ rest h]
  simp only [State.hostTurn, regAccess, hal, beq_self_eq_true, Bool.and_self, if_true, hres]

/-- IN_LEN takes the value while idle (46_orchestrator.md R174). -/
theorem State.regWrite_inLen_of_idle (s : State) (v : Word) (h : s.status.busy = false) :
    s.regWrite .inLen v = { s with inLen := v } := by
  simp only [State.regWrite, h, Bool.false_eq_true, if_false]

/-- OUT_MAX takes the value while idle (46_orchestrator.md R174). -/
theorem State.regWrite_outMax_of_idle (s : State) (v : Word) (h : s.status.busy = false) :
    s.regWrite .outMax v = { s with outMax := v } := by
  simp only [State.regWrite, h, Bool.false_eq_true, if_false]

/-- IN_LEN and OUT_MAX only set OVR while BUSY (46_orchestrator.md R174). -/
theorem State.regWrite_of_busy (s : State) (r : RegName) (v : Word) (hr : r = .inLen ∨ r = .outMax)
    (h : s.status.busy = true) : s.regWrite r v = { s with status := { s.status with ovr := true } } := by
  rcases hr with rfl | rfl <;> simp only [State.regWrite, h, if_true, State.overrun, statusOverrun]

/-- IRQ_EN takes bit 0 at any time. -/
theorem State.regWrite_irqEn (s : State) (v : Word) : s.regWrite .irqEn v = { s with ie := v.getLsbD 0 } := rfl

/-- A register other than IN_LEN, OUT_MAX and IRQ_EN keeps nothing of a write to it. -/
theorem State.regWrite_of_readOnly (s : State) (r : RegName) (v : Word)
    (hin : r ≠ .inLen) (hout : r ≠ .outMax) (hirq : r ≠ .irqEn) : s.regWrite r v = s := by
  cases r with
  | inLen => exact absurd rfl hin
  | outMax => exact absurd rfl hout
  | irqEn => exact absurd rfl hirq
  | _ => rfl

/-- Away from CMD, IN_LEN, OUT_MAX and IRQ_EN an aligned write changes nothing: the offset is a read-only register's or reserved. -/
theorem step_of_ignoredWrite (s : State) (off : Nat) (v : Word) (rest : List HostMove)
    (h : s.hostMakes (.regWrite .w32 off v) rest) (hal : off % 4 = 0)
    (hcmd : off ≠ 0x00) (hin : off ≠ 0x08) (hout : off ≠ 0x0C) (hirq : off ≠ 0x18) :
    step s = .next { s with host := rest } := by
  cases hreg : regAt off with
  | none => exact step_of_reservedWrite s off v rest h hal hreg
  | some r =>
    obtain rfl := offset_of_regAt off r hreg
    rw [step_of_regWrite s r v rest h hal (by rintro rfl; exact hcmd rfl),
      State.regWrite_of_readOnly _ r v (by rintro rfl; exact hin rfl) (by rintro rfl; exact hout rfl)
        (by rintro rfl; exact hirq rfl)]

/-- Settles O15: each writable register's clause is its own write, and every other offset ignores the write. -/
theorem registerWrites : Obligations.RegisterWrites := by
  intro s off v rest h hal
  refine ⟨?inLen, ?outMax, ?irqEn, ?ignored, ?busy⟩
  case inLen =>
    rintro rfl hidle
    rw [step_of_regWrite s .inLen v rest h hal (by decide), State.regWrite_inLen_of_idle { s with host := rest } v hidle]
  case outMax =>
    rintro rfl hidle
    rw [step_of_regWrite s .outMax v rest h hal (by decide), State.regWrite_outMax_of_idle { s with host := rest } v hidle]
  case irqEn =>
    rintro rfl
    rw [step_of_regWrite s .irqEn v rest h hal (by decide), State.regWrite_irqEn]
  case ignored =>
    intro hoff
    exact step_of_ignoredWrite s off v rest h hal (by omega) (by omega) (by omega) (by omega)
  case busy =>
    rintro (rfl | rfl) hbusy
    · rw [step_of_regWrite s .inLen v rest h hal (by decide),
        State.regWrite_of_busy { s with host := rest } .inLen v (.inl rfl) hbusy]
    · rw [step_of_regWrite s .outMax v rest h hal (by decide),
        State.regWrite_of_busy { s with host := rest } .outMax v (.inr rfl) hbusy]

end Sys2Proof.Machine
end

section
/-! The acceptance of COMPRESS and ENCODE and its command-level error entry (46_orchestrator.md R165 to R167, 60_exceptions.md R187, R193). -/

namespace Sys2Proof.Machine

/-- COMPRESS while idle is acceptance at the search's first header (46_orchestrator.md R166). -/
theorem exec_compress_of_idle (s : State) (h : s.status.busy = false) :
    exec .compress s = .next (s.accept .compress 0) := by
  change execCompress s = _
  simp only [execCompress, h, Bool.false_eq_true, if_false]

/-- ENCODE while idle is acceptance at the header it names (46_orchestrator.md R167). -/
theorem exec_encode_of_idle (s : State) (hdr : BitVec 4) (h : s.status.busy = false) :
    exec (.encode hdr) s = .next (s.accept .encode hdr) := by
  change execEncode hdr s = _
  simp only [execEncode, h, Bool.false_eq_true, if_false]

/-- An input above P_IN_CAP takes the command-level error entry after the snapshots (60_exceptions.md R187). -/
theorem State.accept_of_oversized (s : State) (kind : CmdKind) (hdr : BitVec 4) (h : s.cfg.inCap < s.inLen) :
    s.accept kind hdr = (s.snapshot kind hdr).failCommand .bufferTooSmallIn :=
  if_pos h

/-- Acceptance sets every attempt's length to INF (46_orchestrator.md R165). -/
theorem State.snapshot_attempt (s : State) (kind : CmdKind) (hdr j : BitVec 4) :
    (s.snapshot kind hdr).attempt j = infWord :=
  Vector.getElem_replicate _

/-- An error raised at acceptance leaves nothing of STATUS as it was but OVR (60_exceptions.md R193, R204). -/
theorem statusFailed_statusAccepted (e : CommandError) (st : Status) :
    statusFailed e (statusAccepted st) =
      { busy := false, done := true, err := true, ovr := st.ovr, errcode := errorCode e } := rfl

/-- COMPRESS and ENCODE alike, while idle with an input above P_IN_CAP: the snapshots, then the error entry. -/
theorem exec_of_oversized (s : State) (i : Instr) (hcmd : i = .compress ∨ ∃ h, i = .encode h)
    (hidle : s.status.busy = false) (hlen : s.cfg.inCap < s.inLen) :
    ∃ kind hdr, exec i s = .next ((s.snapshot kind hdr).failCommand .bufferTooSmallIn) := by
  rcases hcmd with rfl | ⟨hdr, rfl⟩
  · exact ⟨.compress, 0, by rw [exec_compress_of_idle s hidle, s.accept_of_oversized _ _ hlen]⟩
  · exact ⟨.encode, hdr, by rw [exec_encode_of_idle s hdr hidle, s.accept_of_oversized _ _ hlen]⟩

/-- Settles O10: the command's one next state is the error entry on the snapshots, whose fields are read off. -/
theorem oversizedInputFails : Obligations.OversizedInputFails := by
  intro s hidle hlen i hcmd
  obtain ⟨kind, hdr, hexec⟩ := exec_of_oversized s i hcmd hidle hlen
  refine ⟨_, hexec, ?status, ?outLen, ?resultHdr, fun j => ?attempt, ?phase, ?frame⟩
  case status => rw [State.failCommand_status, State.snapshot_status, statusFailed_statusAccepted, errorCode]
  case outLen => exact State.failCommand_outLen _ _
  case resultHdr => exact State.failCommand_resultHdr _ _
  case attempt => rw [State.failCommand_attempt, State.snapshot_attempt, infWord]
  case phase => rw [State.failCommand_seq]
  case frame => rfl

end Sys2Proof.Machine
end

section
/-! What reset leaves: power-on and the reset input have one effect, the values of 10_state.md R49 (70_reset_and_hazards.md R205, R207). -/

namespace Sys2Proof.Machine

section AfterReset
variable (s : State)

@[simp] theorem State.deviceReset_phase : s.deviceReset.seq.phase = .idle := rfl

@[simp] theorem State.deviceReset_status :
    s.deviceReset.status = { busy := false, done := false, err := false, ovr := false, errcode := 0 } := rfl

@[simp] theorem State.deviceReset_ie : s.deviceReset.ie = false := rfl

@[simp] theorem State.deviceReset_inLen : s.deviceReset.inLen = 0 := rfl

@[simp] theorem State.deviceReset_outMax : s.deviceReset.outMax = 0 := rfl

@[simp] theorem State.deviceReset_outLen : s.deviceReset.outLen = 0 := rfl

@[simp] theorem State.deviceReset_resultHdr : s.deviceReset.resultHdr = 0 := rfl

@[simp] theorem State.deviceReset_attempt (h : BitVec 4) : s.deviceReset.attempt h = infWord :=
  Vector.getElem_replicate _

@[simp] theorem State.deviceReset_bestLen : s.deviceReset.bestLen = .inf := rfl

@[simp] theorem State.deviceReset_bestHdr : s.deviceReset.bestHdr = 0 := rfl

@[simp] theorem State.deviceReset_faulted : s.deviceReset.faulted = false := rfl

@[simp] theorem State.deviceReset_cfg : s.deviceReset.cfg = s.cfg := rfl

@[simp] theorem State.deviceReset_host : s.deviceReset.host = s.host := rfl

/-- The cleared STATUS reads as 0 (10_state.md R49). -/
theorem State.statusWord_deviceReset : statusWord s.deviceReset.status = 0 := by
  rw [State.deviceReset_status]
  rfl

/-- With DONE cleared the interrupt line is low (60_exceptions.md R196). -/
theorem State.irq_deviceReset : irq s.deviceReset = false := by
  rw [irq, State.deviceReset_status, Bool.false_and]

end AfterReset

/-- The reset input leaves the state after power-on as it is: the two have the same effect (R205). -/
theorem State.reset_deviceReset : State.reset.deviceReset = State.reset := rfl

/-- The reset input always has its effect, whatever was running (R207). -/
theorem step_of_reset (s : State) (rest : List HostMove) (h : s.hostMakes .reset rest) :
    step s = .next ({ s with host := rest } : State).deviceReset := by
  rw [step_of_hostMakes s _ rest h]
  rfl

/-- A state right after power-on or the reset input is some state's `deviceReset`. -/
theorem exists_deviceReset_of_afterReset (t : State)
    (h : t = State.reset ∨ ∃ (s : State) (rest : List HostMove), s.hostMakes .reset rest ∧ step s = .next t) :
    ∃ s : State, t = s.deviceReset := by
  rcases h with rfl | ⟨s, rest, hmove, hstep⟩
  · exact ⟨State.reset, State.reset_deviceReset.symm⟩
  · rw [step_of_reset s rest hmove] at hstep
    exact ⟨_, (Host.Outcome.next.inj hstep).symm⟩

/-- Settles O8: power-on and the reset input both leave some state's `deviceReset`, whose fields are read off. -/
theorem resetValues : Obligations.ResetValues := by
  refine ⟨fun t ht => ?values, fun s rest hmove => ?effect⟩
  case values =>
    obtain ⟨s, rfl⟩ := exists_deviceReset_of_afterReset t ht
    exact ⟨s.deviceReset_phase, s.statusWord_deviceReset, s.deviceReset_ie, s.deviceReset_inLen,
      s.deviceReset_outMax, s.deviceReset_outLen, s.deviceReset_resultHdr, s.deviceReset_attempt,
      s.irq_deviceReset, s.deviceReset_bestLen, s.deviceReset_bestHdr, s.deviceReset_faulted⟩
  case effect =>
    exact ⟨_, step_of_reset s rest hmove, State.deviceReset_cfg _, State.deviceReset_host _⟩

end Sys2Proof.Machine
end

section
/-! Encodings: each instruction's encoding decodes back to it, and a word or label the decoders accept is the encoding of what they answer (30_encoding.md R81, R82, R94). -/

namespace Sys2Proof

/-- Settles O1: the table's words, evaluated. -/
theorem tableWordsDecode : Obligations.TableWordsDecode := by
  unfold Obligations.TableWordsDecode
  decide

/-- Every instruction is what its encoding decodes to. -/
theorem decode_encode (i : Instr) : decode (encode i) = .ok i := by
  cases i with
  | encode h =>
    revert h
    decide
  | _ => rfl

/-- A word is its three fields of R81 one above the other. -/
theorem word_eq_fields (w : BitVec 32) :
    w = w.extractLsb' 8 24 ++ w.extractLsb' 4 4 ++ w.extractLsb' 0 4 := by
  apply BitVec.eq_of_getLsbD_eq
  intro i hi
  simp only [BitVec.getLsbD_append, BitVec.getLsbD_extractLsb']
  by_cases h4 : i < 4
  · simp [h4]
  · by_cases h8 : i - 4 < 4
    · simp [h4, h8, show 4 + (i - 4) = i by omega]
    · simp [h4, h8, show 8 + (i - 4 - 4) = i by omega, show i - 4 - 4 < 24 by omega]

/-- A command word the decoder accepts is the encoding of its command. -/
theorem encode_of_decodeCommand (w : BitVec 32) (i : Instr) (h : decodeCommand w = .ok i) :
    encode i = .cmdWord w := by
  have hw := word_eq_fields w
  unfold decodeCommand at h
  generalize w.extractLsb' 8 24 = rsvd at h hw
  generalize w.extractLsb' 4 4 = opc at h hw
  generalize w.extractLsb' 0 4 = hdrarg at h hw
  subst hw
  simp only [ne_eq, ite_not] at h
  split at h
  case isFalse => cases h
  next hrsvd =>
  subst hrsvd
  split at h
  next hc => cases h; obtain ⟨rfl, rfl⟩ := hc; rfl
  split at h
  next hc => cases h; subst hc; rfl
  split at h
  next hc => cases h; obtain ⟨rfl, rfl⟩ := hc; rfl
  cases h

/-- A label the decoder accepts is the label of the encoding of what it answers. -/
theorem encode_of_decodeUop (label : BitVec 8) (ops : UopOperands) (i : Instr) (h : decodeUop label ops = .ok i) :
    ∃ ops', encode i = .uop label ops' ∧ decodeUop label ops' = .ok i := by
  rcases Machine.decodeUop_cases label ops i h with ⟨rfl, rfl⟩ | ⟨rfl, rfl⟩ | ⟨rfl, rfl⟩ | ⟨rfl, rfl⟩ | ⟨rfl, rfl⟩ |
    ⟨rfl, rfl⟩ | ⟨rfl, rfl⟩ | ⟨rfl, rfl⟩ | ⟨rfl, rfl⟩ | ⟨rfl, rfl⟩ | ⟨rfl, rfl⟩ | ⟨rfl, rfl⟩ | ⟨rfl, rfl⟩ |
    ⟨rfl, rfl⟩ | ⟨rfl, rfl⟩ | ⟨rfl, rfl⟩ | ⟨rfl, rfl⟩ | ⟨rfl, rfl⟩
  all_goals exact ⟨_, rfl, rfl⟩

/-- Settles O2: the round trip by the instruction, and the two converses by what each decoder can answer. -/
theorem decodeAndEncodeAgree : Obligations.DecodeAndEncodeAgree :=
  ⟨decode_encode, encode_of_decodeCommand, encode_of_decodeUop⟩

end Sys2Proof
end

section
/-! The engine's turn in every form a step can give it, and what it is while IDLE, at a micro-operation, and where none can be fetched (10_state.md R32, 30_encoding.md R95, 60_exceptions.md R190, R203). -/

namespace Sys2Proof.Machine

/-! ### The forms of the engine's turn -/

/-- A step with no host move left, after a pause, or behind a wait that goes on is the engine's turn, so it is whatever the
engine's turn is, on the state with the pause taken. -/
theorem step_of_engineTurn (s : State) (rest : List HostMove) (f : State → Host.Outcome State Fault Refusal)
    (h : ∀ moves, ({ s with host := moves } : State).engineTurn = f { s with host := moves }) :
    (s.host = [] → step s = f s) ∧
    (s.hostMakes .pause rest → step s = f { s with host := rest }) ∧
    (s.hostMakes .waitDone rest → s.status.done = false → step s = f s) ∧
    (s.hostMakes .waitIrq rest → irq s = false → step s = f s) := by
  refine ⟨fun hnone => ?none, fun hpause => ?pause, fun hwait hdone => ?waitDone, fun hwait hirq => ?waitIrq⟩
  case none =>
    simp only [step, State.turn, hnone]
    exact h s.host
  case pause =>
    rw [step_of_hostMakes s _ rest hpause]
    exact h rest
  case waitDone =>
    have hlist := s.hostMakes_plain _ _ (.inl rfl) hwait
    rw [step_of_hostMakes s _ rest hwait]
    simp only [State.hostTurn, hdone, Bool.false_eq_true, if_false, ← hlist]
    exact h s.host
  case waitIrq =>
    have hlist := s.hostMakes_plain _ _ (.inr (.inl rfl)) hwait
    have hlow : irq ({ s with host := rest } : State) = false := hirq
    rw [step_of_hostMakes s _ rest hwait]
    simp only [State.hostTurn, hlow, Bool.false_eq_true, if_false, ← hlist]
    exact h s.host

theorem State.engineTurn_of_idle (s : State) (h : s.seq.phase = .idle) : s.engineTurn = .next s := by
  simp only [State.engineTurn, h]

theorem State.engineTurn_of_fetch (s : State) (i : Instr) (h : s.seq.phase = .run) (hf : s.fetch = some i) :
    s.engineTurn = exec i s := by
  simp only [State.engineTurn, h, hf]

theorem State.engineTurn_of_noFetch (s : State) (h : s.seq.phase = .run) (hf : s.fetch = none) :
    s.engineTurn = .next s.internalFault := by
  simp only [State.engineTurn, h, hf]

/-- The micro-operation the label decodes to is fetched where the invariants hold or are not checked. -/
theorem State.fetch_of_decode (s : State) (i : Instr) (h : decodeUop s.seq.uop s.operands = .ok i)
    (hlive : attemptLive i = true → s.invariantsHold = true) : s.fetch = some i := by
  have hpass : (attemptLive i && !s.invariantsHold) = false := by
    cases hi : attemptLive i with
    | false => rfl
    | true => rw [hlive hi]; rfl
  simp only [State.fetch, h, hpass, Bool.false_eq_true, if_false]

/-- Settles O6: in each form the engine's turn fetches the decoded micro-operation; the host's moves are no part of the fetch. -/
theorem stepRunsMicroOperation : Obligations.StepRunsMicroOperation := by
  intro s i rest hrun hdecode hlive
  refine step_of_engineTurn s rest (exec i) fun moves => ?_
  exact State.engineTurn_of_fetch _ i hrun (State.fetch_of_decode { s with host := moves } i hdecode hlive)

/-- Settles O7: the engine's turn while IDLE is the identity. -/
theorem idleEngineChangesNothing : Obligations.IdleEngineChangesNothing := by
  intro s rest hidle
  exact step_of_engineTurn s rest .next fun moves => State.engineTurn_of_idle _ hidle

/-- Settles O5: a write to CMD is exec of the decoded command. -/
theorem stepRunsWrittenCommand : Obligations.StepRunsWrittenCommand := by
  intro s w i rest hmove hdecode
  rw [step_of_cmdWrite s w rest hmove]
  simp only [State.writeCmd, hdecode]

/-! ### Where nothing can be fetched -/

/-- Every one of the eight numbers below 8 is a channel, and the other way round. -/
theorem forall_channel_iff (P : Nat → BitVec 3 → Prop) :
    (∀ c ∈ List.range 8, P c (BitVec.ofNat 3 c)) ↔ ∀ c : BitVec 3, P c.toNat c := by
  constructor
  · intro h c
    have hc := h c.toNat (List.mem_range.2 c.isLt)
    rwa [BitVec.ofNat_toNat, BitVec.setWidth_eq] at hc
  · intro h c hc
    have hlt : c < 8 := List.mem_range.1 hc
    have hp := h (BitVec.ofNat 3 c)
    rwa [BitVec.toNat_ofNat, Nat.mod_eq_of_lt hlt] at hp

/-- What holds of every slot by its context holds of every slot of the memory, and the other way round. -/
theorem State.forall_mem_slots_iff (s : State) (P : Slot → Prop) :
    (∀ sl ∈ s.slots.toList, P sl) ↔ ∀ x, P (s.slot x) := by
  constructor
  · intro h x
    exact h _ (Vector.mem_toList_iff.2 (Vector.getElem_mem x.isLt))
  · intro h sl hsl
    obtain ⟨i, hi, rfl⟩ := Vector.mem_iff_getElem.1 (Vector.mem_toList_iff.1 hsl)
    exact h ⟨i, hi⟩

/-- What holds of every plane by its number holds of every plane buffer, and the other way round. -/
theorem State.forall_mem_planes_iff (s : State) (P : BitBuf → Prop) :
    (∀ b ∈ s.planes.toList, P b) ↔ ∀ p, P (s.plane p) :=
  ⟨fun h p => h _ (Vector.mem_toList_iff.2 (Vector.getElem_mem p.isLt)), s.forall_mem_planes P⟩

/-- The check before a micro-operation of an attempt is (a), (c), (d) and (e) of 10_state.md R51. -/
theorem State.invariantsHold_iff (s : State) : s.invariantsHold = true ↔
    (∀ x, (s.slot x).state.toNat ≤ 32) ∧ (∀ c : BitVec 3, (s.count c).toNat < 2 ^ c.toNat) ∧
      s.nbit ≤ s.nb ∧ ∀ p, (s.plane p).rpos ≤ (s.plane p).wpos := by
  simp only [State.invariantsHold, Bool.and_eq_true, List.all_eq_true, decide_eq_true_eq, and_assoc,
    s.forall_mem_slots_iff fun sl => sl.state.toNat ≤ 32,
    forall_channel_iff fun c k => (s.count k).toNat < 2 ^ c,
    s.forall_mem_planes_iff fun b => b.rpos ≤ b.wpos]

/-- The labels R94 assigns, as numbers. -/
def assignedLabels : List Nat :=
  [0x10, 0x11, 0x12, 0x20, 0x21, 0x30, 0x31, 0x32, 0x40, 0x41, 0x42, 0x50, 0x51, 0x52, 0x53, 0x60, 0x61, 0x62]

/-- The labels from CM_BIT to IL_LEN, before which the invariants of an attempt are checked (log 10). -/
def checkedLabels : List Nat := [0x21, 0x31, 0x32, 0x41, 0x42, 0x50, 0x51, 0x52, 0x53]

/-- A label that decodes is an assigned one, and its micro-operation is checked exactly at the checked labels. -/
theorem label_of_decodeUop (l : BitVec 8) (ops : UopOperands) (i : Instr) (h : decodeUop l ops = .ok i) :
    l.toNat ∈ assignedLabels ∧ (l.toNat ∈ checkedLabels → attemptLive i = true) := by
  rcases decodeUop_cases l ops i h with ⟨rfl, rfl⟩ | ⟨rfl, rfl⟩ | ⟨rfl, rfl⟩ | ⟨rfl, rfl⟩ | ⟨rfl, rfl⟩ |
    ⟨rfl, rfl⟩ | ⟨rfl, rfl⟩ | ⟨rfl, rfl⟩ | ⟨rfl, rfl⟩ | ⟨rfl, rfl⟩ | ⟨rfl, rfl⟩ | ⟨rfl, rfl⟩ | ⟨rfl, rfl⟩ |
    ⟨rfl, rfl⟩ | ⟨rfl, rfl⟩ | ⟨rfl, rfl⟩ | ⟨rfl, rfl⟩ | ⟨rfl, rfl⟩
  all_goals exact ⟨by decide, by simp [attemptLive, checkedLabels, Label.splInit, Label.splByte, Label.splBits,
    Label.cmInit, Label.pemInit, Label.gceInit, Label.orcBegin, Label.orcSelect, Label.orcDone]⟩

/-- Nothing is fetched at an unassigned label, nor at a checked one while an invariant fails. -/
theorem State.fetch_eq_none (s : State)
    (h : s.seq.uop.toNat ∉ assignedLabels ∨ (s.seq.uop.toNat ∈ checkedLabels ∧ s.invariantsHold = false)) :
    s.fetch = none := by
  cases hf : s.fetch with
  | none => rfl
  | some i =>
    obtain ⟨hdecode, hlive⟩ := s.fetch_some i hf
    obtain ⟨hassigned, hchecked⟩ := label_of_decodeUop _ _ _ hdecode
    rcases h with hbad | ⟨hmem, hfails⟩
    · exact absurd hassigned hbad
    · rw [hlive (hchecked hmem)] at hfails
      exact absurd hfails (by decide)

/-- One invariant out of its range makes the check fail. -/
theorem State.invariantsHold_eq_false (s : State)
    (h : (∃ x, 32 < (s.slot x).state.toNat) ∨ (∃ c : BitVec 3, 2 ^ c.toNat ≤ (s.count c).toNat) ∨
      s.nb < s.nbit ∨ ∃ p, (s.plane p).wpos < (s.plane p).rpos) : s.invariantsHold = false := by
  rw [← Bool.not_eq_true, s.invariantsHold_iff]
  rintro ⟨hslots, hcounts, hnbit, hplanes⟩
  rcases h with ⟨x, hx⟩ | ⟨c, hc⟩ | hn | ⟨p, hp⟩
  · exact absurd (hslots x) (by omega)
  · exact absurd (hcounts c) (by omega)
  · exact absurd hnbit (BitVec.not_le.2 hn)
  · exact absurd (hplanes p) (BitVec.not_le.2 hp)

/-- Settles O4: nothing is fetched, whatever the host's moves, so each form of the engine's turn is INTERNAL_FAULT. -/
theorem badLabelOrInvariantIsInternalFault : Obligations.BadLabelOrInvariantIsInternalFault := by
  intro s rest hrun hbad
  have hnone : s.fetch = none :=
    s.fetch_eq_none (hbad.imp_right fun ⟨hlabel, hfails⟩ => ⟨hlabel, s.invariantsHold_eq_false hfails⟩)
  exact step_of_engineTurn s rest (fun u => .next u.internalFault) fun moves =>
    State.engineTurn_of_noFetch _ hrun hnone

end Sys2Proof.Machine
end

section
/-! The host port: writes while BUSY, register reads, accesses to IN and OUT and at system addresses, and the interrupt (10_state.md R21 to R31, 20_memory.md R60 to R75, 60_exceptions.md R196). -/

namespace Sys2Proof.Machine

/-! ### Commands while idle and while BUSY -/

/-- Every command while BUSY is only an overrun (46_orchestrator.md R173). -/
theorem exec_command_of_busy (s : State) (i : Instr) (hi : i = .compress ∨ (∃ h, i = .encode h) ∨ i = .clear)
    (hb : s.status.busy = true) : exec i s = .next s.overrun := by
  rcases hi with rfl | ⟨h, rfl⟩ | rfl
  · exact congrArg _ (if_pos hb)
  · exact congrArg _ (if_pos hb)
  · exact congrArg _ (if_pos hb)

/-- Any word written to CMD while BUSY, legal or not, is only an overrun (46_orchestrator.md R173). -/
theorem State.writeCmd_of_busy (s : State) (w : Word) (hb : s.status.busy = true) : s.writeCmd w = .next s.overrun := by
  cases hd : decodeCommand w with
  | error e =>
    rw [State.writeCmd_of_illegal s w e hd, State.illegalCommand, if_pos hb]
  | ok i =>
    have hi : i = .compress ∨ (∃ h, i = .encode h) ∨ i = .clear := by
      rcases decodeCommand_cases w i hd with ⟨hi, -⟩ | ⟨hi, -⟩ | ⟨hi, -⟩
      · exact .inl hi
      · exact .inr (.inl ⟨_, hi⟩)
      · exact .inr (.inr hi)
    simp only [State.writeCmd, hd, exec_command_of_busy s i hi hb]

/-- Settles O12: a CMD write by its word, a write to IN_LEN or OUT_MAX by the register's own rule. -/
theorem busyWritesOnlyOverrun : Obligations.BusyWritesOnlyOverrun := by
  intro s off w rest hbusy hoff hmove
  rcases hoff with rfl | rfl | rfl
  · rw [step_of_cmdWrite s w rest hmove, State.writeCmd_of_busy { s with host := rest } w hbusy]
    rfl
  · rw [step_of_regWrite s .inLen w rest hmove (by decide) (by decide),
      State.regWrite_of_busy { s with host := rest } .inLen w (.inl rfl) hbusy]
  · rw [step_of_regWrite s .outMax w rest hmove (by decide) (by decide),
      State.regWrite_of_busy { s with host := rest } .outMax w (.inr rfl) hbusy]

/-- Acceptance of a command whose input fits (46_orchestrator.md R165). -/
theorem State.accept_of_fitting (s : State) (kind : CmdKind) (hdr : BitVec 4) (h : s.inLen ≤ s.cfg.inCap) :
    s.accept kind hdr = { s.snapshot kind hdr with bestLen := .inf, bestHdr := 0, faulted := false } :=
  if_neg (BitVec.not_lt.2 h)

/-- COMPRESS and ENCODE alike, while idle, are acceptance. -/
theorem exec_command_of_idle (s : State) (i : Instr) (kind : CmdKind) (h : BitVec 4)
    (hi : (i = .compress ∧ kind = .compress ∧ h = 0) ∨ (i = .encode h ∧ kind = .encode))
    (hidle : s.status.busy = false) : exec i s = .next (s.accept kind h) := by
  rcases hi with ⟨rfl, rfl, rfl⟩ | ⟨rfl, rfl⟩
  · exact exec_compress_of_idle s hidle
  · exact exec_encode_of_idle s h hidle

/-- Settles O9: the accepted state's fields are read off the snapshot. -/
theorem commandsAreAccepted : Obligations.CommandsAreAccepted := by
  intro s hidle hlen i kind h hi
  refine ⟨_, exec_command_of_idle s i kind h hi hidle, ?_⟩
  rw [State.accept_of_fitting s kind h hlen]
  exact ⟨rfl, fun j => State.snapshot_attempt s kind h j, rfl, outLimitOf_toNat _ _, rfl, rfl, rfl, rfl, rfl⟩

/-! ### Register reads -/

/-- STATUS's fields stand in their places, and bits 31:8 are 0 (10_state.md R23). -/
theorem statusWord_fields (st : Status) :
    (statusWord st).getLsbD 0 = st.busy ∧ (statusWord st).getLsbD 1 = st.done ∧ (statusWord st).getLsbD 2 = st.err ∧
      (statusWord st).getLsbD 3 = st.ovr ∧ (statusWord st).extractLsb' 4 4 = st.errcode ∧
      (statusWord st).extractLsb' 8 24 = 0 := by
  obtain ⟨busy, done, err, ovr, errcode⟩ := st
  revert busy done err ovr errcode
  decide

/-- A field zero-extended to a register: the field in the low bits, 0 above. -/
theorem setWidth_fields {n : Nat} (x : BitVec n) (h : n ≤ 32) :
    (x.setWidth 32).extractLsb' 0 n = x ∧ (x.setWidth 32).extractLsb' n (32 - n) = 0 := by
  constructor
  · apply BitVec.eq_of_getLsbD_eq
    intro i hi
    rw [BitVec.getLsbD_extractLsb', Nat.zero_add, BitVec.getLsbD_setWidth]
    simp [hi, show i < 32 by omega]
  · apply BitVec.eq_of_getLsbD_eq
    intro i hi
    rw [BitVec.getLsbD_extractLsb', BitVec.getLsbD_setWidth, BitVec.getLsbD_of_ge x (n + i) (by omega)]
    simp

/-- An aligned 32-bit read puts the register's value in the host's log, and has no other effect (20_memory.md R68). -/
theorem step_of_regRead (s : State) (off : Nat) (rest : List HostMove)
    (h : s.hostMakes (.regRead .w32 off) rest) (hal : off % 4 = 0) :
    step s = .next { s with host := rest, reads := .reg off (s.regRead off) :: s.reads } := by
  rw [step_of_hostMakes s _ rest h]
  simp only [State.hostTurn, regAccess, hal, beq_self_eq_true, Bool.and_self, if_true]
  rfl

/-- A read at a register's offset returns the register's value. -/
theorem State.regRead_offset (s : State) (r : RegName) : s.regRead r.offset = s.regValue r := by
  simp only [State.regRead, regAt_offset]

/-- No register stands at a reserved offset (10_state.md R31). -/
theorem regAt_of_reserved (off : Nat) (h : (0x20 ≤ off ∧ off ≤ 0x3C) ∨ 0x80 ≤ off) : regAt off = none := by
  cases hreg : regAt off with
  | none => rfl
  | some r =>
    have hoff := offset_of_regAt off r hreg
    cases r with
    | attemptLen j =>
      have := j.isLt
      simp only [RegName.offset] at hoff
      omega
    | _ =>
      simp only [RegName.offset] at hoff
      omega

/-- A reserved offset reads 0 (10_state.md R31). -/
theorem State.regRead_of_reserved (s : State) (off : Nat) (h : (0x20 ≤ off ∧ off ≤ 0x3C) ∨ 0x80 ≤ off) :
    s.regRead off = 0 := by
  simp only [State.regRead, regAt_of_reserved off h]

/-- Settles O16: the read's one next state, and the value at each register's own offset. -/
theorem registerReads : Obligations.RegisterReads := by
  intro s off rest hmove hal
  refine ⟨s.regRead off, step_of_regRead s off rest hmove hal, ?cmd, ?status, ?inLen, ?outMax, ?outLen, ?resultHdr,
    ?irqEn, ?caps, ?attempt, s.regRead_of_reserved off⟩
  case cmd => rintro rfl; exact s.regRead_offset .cmd
  case status =>
    rintro rfl
    exact statusWord_fields s.status
  case inLen => rintro rfl; exact s.regRead_offset .inLen
  case outMax => rintro rfl; exact s.regRead_offset .outMax
  case outLen => rintro rfl; exact s.regRead_offset .outLen
  case resultHdr => rintro rfl; exact setWidth_fields s.resultHdr (by decide)
  case irqEn =>
    rintro rfl
    refine ⟨?_, (setWidth_fields (BitVec.ofBool s.ie) (by decide)).2⟩
    change ((BitVec.ofBool s.ie).setWidth 32).getLsbD 0 = s.ie
    simp
  case caps => rintro rfl; exact s.regRead_offset .caps
  case attempt => rintro h rfl; exact s.regRead_offset (.attemptLen h)

/-! ### IN and OUT -/

/-- Settles O18: the three branches of a write to IN, with read after write for the byte written. -/
theorem inputWrites : Obligations.InputWrites := by
  intro s k v rest hmove
  rw [step_of_hostMakes s _ rest hmove]
  refine ⟨fun hbusy => ?_, fun hidle hk => ?_, fun hidle hk hwf => ?_⟩
  · exact if_pos hbusy
  · simp only [State.hostTurn, hidle, Bool.false_eq_true, if_false, if_neg (Nat.not_lt.2 hk)]
  · refine ⟨{ s with host := rest, inMem := Memory.write s.inMem k v }, ?_, Memory.read_write_same _ _ _ hwf,
      fun j hj => Memory.read_write_other _ _ _ _ hj, rfl⟩
    simp only [State.hostTurn, hidle, Bool.false_eq_true, if_false, if_pos hk]

/-- Settles O19: the three branches of a read of OUT. -/
theorem outputReads : Obligations.OutputReads := by
  intro s k rest hmove
  rw [step_of_hostMakes s _ rest hmove]
  refine ⟨fun hk => if_neg (Nat.not_lt.2 hk), fun hk hidle => ?_, fun hk hbusy => ⟨Config.outDraw s.draws, ?_⟩⟩
  · simp only [State.hostTurn, if_pos hk, hidle, Bool.false_eq_true, if_false]
    rfl
  · simp only [State.hostTurn, if_pos hk, hbusy, if_true]
    rfl

/-! ### System addresses -/

/-- A misshapen REG access is refused (20_memory.md R63). -/
theorem State.hostTurn_of_misshapen (s : State) (width : AccessWidth) (off : Nat) (v : Word)
    (h : width ≠ .w32 ∨ off % 4 ≠ 0) :
    s.hostTurn (.regWrite width off v) = .refused .regAccessShape ∧
      s.hostTurn (.regRead width off) = .refused .regAccessShape := by
  have hshape : ¬ regAccess width off = true := by
    simp only [regAccess, Bool.and_eq_true, beq_iff_eq, not_and]
    rintro rfl
    exact h.resolve_left (by simp)
  exact ⟨if_neg hshape, if_neg hshape⟩

/-- A system-address access that the platform places nowhere in the block stops the machine (log 13, log 22). -/
theorem step_of_strayAccess (s : State) (m : HostMove) (rest : List HostMove) (addr : Nat) (width : AccessWidth) (v : Word)
    (hm : m = .busWrite width addr v ∨ m = .busRead width addr) (hhost : s.host = m :: rest)
    (hplaced : m.placed s.cfg = m) : step s = strayAccess s.cfg addr := by
  rw [step_of_hostMakes s m rest ⟨m, hhost, hplaced⟩]
  rcases hm with rfl | rfl <;> rfl

/-- An address in none of the three spaces is located nowhere (20_memory.md R69). -/
theorem locate_of_outside (cfg : Config) (addr : Nat)
    (hr : addr < cfg.regBase ∨ cfg.regBase + regSpan ≤ addr)
    (hi : addr < cfg.inBase ∨ cfg.inBase + cfg.inCap.toNat ≤ addr)
    (ho : addr < cfg.outBase ∨ cfg.outBase + cfg.outCap.toNat ≤ addr) : locate cfg addr = none := by
  have offsetIn_none (base span : Nat) (h : addr < base ∨ base + span ≤ addr) : offsetIn base span addr = none :=
    if_neg (by omega)
  simp only [locate, offsetIn_none _ _ hr, offsetIn_none _ _ hi, offsetIn_none _ _ ho, Option.map_none]

/-- Settles O17: shapes by REG's own check, placed accesses by where the platform locates their address, the rest as stray. -/
theorem hostAccessesLandOrStop : Obligations.HostAccessesLandOrStop := by
  intro s width off v rest
  refine ⟨fun hshape hmove => ?shape, fun hapart => ⟨fun hoff hhost => ?regWrite, fun hoff hhost => ?regRead,
    fun hoff hhost => ?inWrite, fun hoff hhost => ?outRead, fun hoff hhost => ?inStray, fun hoff hhost => ?outStray⟩,
    fun addr hr hi ho hhost => ?nowhere⟩
  case shape =>
    rcases hmove with hmove | hmove <;> rw [step_of_hostMakes s _ rest hmove]
    · exact (State.hostTurn_of_misshapen _ width off v hshape).1
    · exact (State.hostTurn_of_misshapen _ width off v hshape).2
  case regWrite => exact ⟨_, hhost, by simp only [HostMove.placed, locate_reg s.cfg off hoff]⟩
  case regRead => exact ⟨_, hhost, by simp only [HostMove.placed, locate_reg s.cfg off hoff]⟩
  case inWrite =>
    refine ⟨_, hhost, ?_⟩
    simp only [HostMove.placed, locate_input s.cfg off hapart hoff, if_true, BitVec.setWidth_eq_extractLsb' (show 8 ≤ 32 by decide)]
  case outRead => exact ⟨_, hhost, by simp only [HostMove.placed, locate_output s.cfg off hapart hoff, if_true]⟩
  case inStray =>
    have hloc := locate_input s.cfg off hapart hoff
    have hstray : step s = strayAccess s.cfg (s.cfg.inBase + off) := by
      rcases hhost with hhost | ⟨hw, hhost⟩
      · exact step_of_strayAccess s _ rest _ width v (.inr rfl) hhost (by simp only [HostMove.placed, hloc])
      · exact step_of_strayAccess s _ rest _ width v (.inl rfl) hhost (by simp only [HostMove.placed, hloc, if_neg hw])
    rw [hstray, strayAccess, hloc]
    rfl
  case outStray =>
    have hloc := locate_output s.cfg off hapart hoff
    have hstray : step s = strayAccess s.cfg (s.cfg.outBase + off) := by
      rcases hhost with hhost | ⟨hw, hhost⟩
      · exact step_of_strayAccess s _ rest _ width v (.inl rfl) hhost (by simp only [HostMove.placed, hloc])
      · exact step_of_strayAccess s _ rest _ width v (.inr rfl) hhost (by simp only [HostMove.placed, hloc, if_neg hw])
    rw [hstray, strayAccess, hloc]
    rfl
  case nowhere =>
    have hloc := locate_of_outside s.cfg addr hr hi ho
    have hstray : step s = strayAccess s.cfg addr := by
      rcases hhost with hhost | hhost
      · exact step_of_strayAccess s _ rest _ width v (.inl rfl) hhost (by simp only [HostMove.placed, hloc])
      · exact step_of_strayAccess s _ rest _ width v (.inr rfl) hhost (by simp only [HostMove.placed, hloc])
    rw [hstray, strayAccess, hloc]
    rfl

/-! ### The interrupt -/

/-- The interrupt line is low while DONE is 0 (60_exceptions.md R196). -/
theorem irq_of_not_done (s : State) (h : s.status.done = false) : irq s = false := by
  rw [irq, h, Bool.false_and]

/-- Settles O20: IRQ is DONE and IE; CLEAR and acceptance take DONE away, and both waits end where they see it. -/
theorem interruptFollowsDoneAndEnable : Obligations.InterruptFollowsDoneAndEnable := by
  refine ⟨fun s v rest hmove => ?enable, fun s rest hdone => ⟨fun hmove hie => ?waitIrq, fun hmove => ?waitDone⟩⟩
  case enable =>
    refine ⟨{ s with host := rest, ie := v.getLsbD 0 },
      by rw [step_of_regWrite s .irqEn v rest hmove (by decide) (by decide), State.regWrite_irqEn], rfl, ?_,
      fun hidle => ⟨_, exec_clear_of_idle _ hidle, irq_of_not_done _ rfl⟩, fun hidle hlen i hi => ?_⟩
    · simp only [irq, Bool.and_eq_true]
    · obtain ⟨kind, h, hcmd⟩ : ∃ kind h, (i = .compress ∧ kind = CmdKind.compress ∧ h = 0) ∨ (i = .encode h ∧ kind = .encode) := by
        rcases hi with rfl | ⟨h, rfl⟩
        · exact ⟨.compress, 0, .inl ⟨rfl, rfl, rfl⟩⟩
        · exact ⟨.encode, h, .inr ⟨rfl, rfl⟩⟩
      refine ⟨_, exec_command_of_idle _ i kind h hcmd hidle, irq_of_not_done _ ?_⟩
      rw [State.accept_of_fitting { s with host := rest, ie := v.getLsbD 0 } kind h hlen]
      rfl
  case waitIrq =>
    have hirq : irq ({ s with host := rest } : State) = true := by simp only [irq, hdone, hie, Bool.and_self]
    rw [step_of_hostMakes s _ rest hmove]
    simp only [State.hostTurn, hirq, if_true]
    rfl
  case waitDone =>
    obtain ⟨hbusy, hd, hrest⟩ := statusWord_fields s.status
    refine ⟨statusWord s.status, ?_, hbusy, hd.trans hdone, hrest⟩
    rw [step_of_hostMakes s _ rest hmove]
    simp only [State.hostTurn, hdone, if_true]
    rfl

end Sys2Proof.Machine
end

section
/-! The splitter and the modeler as the sequencer runs them: their INITs, the splitter loop and its fault, and the plane sequences in closed form (41_splitter.md R110 to R116, 42_context_modeler.md R120 to R122, 70_reset_and_hazards.md R213). -/

namespace Sys2Proof.Machine

/-! ### The INITs -/

/-- The start values of the two selectors, by planeMode (R110, R120). -/
theorem selStart_values (pm : BitVec 2) :
    (pm = 0 → selStart pm = 1) ∧ (pm = 1 → selStart pm = 7) ∧ (pm = 2 → selStart pm = 3) ∧
      (pm = 3 → selStart pm = 0) := by
  revert pm
  decide

/-- The state SPL_INIT hands to the splitter loop (R110). -/
def State.splStart (s : State) : State :=
  { s with
    planes := vec8 fun p => { s.plane p with mem := [], wpos := 0 }
    splitSel := selStart s.pm }

/-- SPL_INIT always answers a next state. -/
theorem exec_splInit (s : State) : exec .splInit s = .next (s.splStart.splLoop 0) := rfl

/-- Every plane is empty, its read cursor where it was. -/
theorem State.splStart_plane (s : State) (p : BitVec 3) :
    s.splStart.plane p = { s.plane p with mem := [], wpos := 0 } :=
  State.plane_vec8 s.splStart (fun p => { s.plane p with mem := [], wpos := 0 }) rfl p

/-- A loop over no bytes is over at once. -/
theorem word_pos_iff (w : Word) : 0 < w ↔ w ≠ 0 := by
  rw [BitVec.lt_def, ne_eq, ← BitVec.toNat_inj]
  exact Nat.pos_iff_ne_zero

/-- SEQ after the splitter loop's test, label and index apart. -/
theorem State.splLoop_seq_fields (s : State) (k : Word) : (s.splLoop k).seq =
    { s.seq with
      uop := if k < s.lenSnap then (if s.pm = 3 then Label.splBits else Label.splByte) else Label.cmInit
      idx := if k < s.lenSnap then k else 0 } := by
  rw [State.splLoop_seq]
  by_cases hmore : k < s.lenSnap
  · simp only [if_pos hmore]
  · simp only [if_neg hmore]

/-- Settles O21: the planes are new and empty, and the loop starts at byte 0. -/
theorem splInitClearsThePlanes : Obligations.SplInitClearsThePlanes := by
  intro s
  obtain ⟨h0, h1, h2, h3⟩ := selStart_values s.pm
  refine ⟨_, exec_splInit s, fun p => ?_, ?_, ?_, ?_, ?_, ?_, ?_⟩
  · rw [State.splLoop_plane, State.splStart_plane]
    exact ⟨rfl, rfl, Memory.bitRead_nil⟩
  · rw [State.splLoop_splitSel]; exact h0
  · rw [State.splLoop_splitSel]; exact h1
  · rw [State.splLoop_splitSel]; exact h2
  · rw [State.splLoop_splitSel]; exact h3
  · have hnone : 0 < s.lenSnap ↔ ¬ s.lenSnap = 0 := word_pos_iff _
    rw [State.splLoop_seq_fields]
    change ({ s.seq with uop := (if 0 < s.lenSnap then (if s.pm = 3 then Label.splBits else Label.splByte) else Label.cmInit),
                         idx := (if 0 < s.lenSnap then 0 else 0) } : Seq) = _
    simp only [hnone, ite_not, ite_self]
    rfl
  · rw [State.splLoop_planes, State.splLoop_splitSel]
    exact State.splLoop_eq _ _

/-- The state CM_INIT leaves (R120). -/
def State.cmStart (s : State) : State :=
  { s with
    modelSel := selStart s.pm
    nbit := 0
    hist := Vector.replicate 8 0
    planes := vec8 fun p => { s.plane p with rpos := 0 } }

/-- CM_INIT always answers a next state. -/
theorem exec_cmInit (s : State) : exec .cmInit s = .next (s.cmStart.goto Label.pemInit 0) := rfl

/-- Every plane is to be read from its start; its bits stay. -/
theorem State.cmStart_plane (s : State) (p : BitVec 3) : s.cmStart.plane p = { s.plane p with rpos := 0 } :=
  State.plane_vec8 s.cmStart (fun p => { s.plane p with rpos := 0 }) rfl p

/-- Settles O26: CM_INIT's one next state, field by field. -/
theorem cmInitResetsTheModeler : Obligations.CmInitResetsTheModeler := by
  intro s
  obtain ⟨h0, h1, h2, h3⟩ := selStart_values s.pm
  exact ⟨_, exec_cmInit s, h0, h1, h2, h3, rfl, fun p => ⟨Vector.getElem_replicate _, s.cmStart_plane p⟩, rfl, rfl⟩

/-! ### The splitter loop -/

/-- SPL_BYTE with no such byte in IN, or no room in the plane NextSel names, is INTERNAL_FAULT (log 20, log 21). -/
theorem exec_splByte_of_noRoom (s : State) (k : Word)
    (h : ¬ (k < s.cfg.inCap ∧ (s.plane (nextSel s.pm s.splitSel k)).wpos.toNat + 8 ≤ 8 * s.cfg.planeCap)) :
    exec (.splByte k) s = .next s.internalFault :=
  if_neg h

/-- SPL_BITS with no such byte in IN, or a plane with no room, is INTERNAL_FAULT (log 20, log 21). -/
theorem exec_splBits_of_noRoom (s : State) (k : Word)
    (h : ¬ (k < s.cfg.inCap ∧ ∀ p, (s.plane p).wpos.toNat + 1 ≤ 8 * s.cfg.planeCap)) :
    exec (.splBits k) s = .next s.internalFault := by
  refine if_neg fun hroom => h ⟨hroom.1, ?_⟩
  exact (s.forall_mem_planes_iff fun b => b.wpos.toNat + 1 ≤ 8 * s.cfg.planeCap).mp hroom.2

/-- SPL_BYTE and SPL_BITS alike: with the byte in IN, planes and selector move and the loop goes on; else INTERNAL_FAULT. -/
theorem exec_splitter_cases (s : State) (k : Word) (i : Instr) (hi : i = .splByte k ∨ i = .splBits k) :
    (k < s.cfg.inCap ∧ ∃ planes sel,
        exec i s = .next (({ s with planes := planes, splitSel := sel } : State).splLoop (k + 1))) ∨
      exec i s = .next s.internalFault := by
  rcases hi with rfl | rfl
  · by_cases hroom : k < s.cfg.inCap ∧ (s.plane (nextSel s.pm s.splitSel k)).wpos.toNat + 8 ≤ 8 * s.cfg.planeCap
    · exact .inl ⟨hroom.1, _, _, exec_splByte_of_room s k hroom.1 hroom.2⟩
    · exact .inr (exec_splByte_of_noRoom s k hroom)
  · by_cases hroom : k < s.cfg.inCap ∧ ∀ p, (s.plane p).wpos.toNat + 1 ≤ 8 * s.cfg.planeCap
    · exact .inl ⟨hroom.1, _, s.splitSel, exec_splBits_of_room s k hroom.1 hroom.2⟩
    · exact .inr (exec_splBits_of_noRoom s k hroom)

/-- Settles O24: the loop's next label by whether byte k + 1 is below L, or INTERNAL_FAULT, which a missing byte makes certain. -/
theorem splitterLoopAndItsFault : Obligations.SplitterLoopAndItsFault := by
  intro s k i hi
  rcases exec_splitter_cases s k i hi with ⟨hin, planes, sel, hexec⟩ | hexec
  · refine ⟨_, hexec, .inl ⟨?_, State.splLoop_faulted _ _, State.splLoop_alen _ _⟩,
      fun hout => absurd hin (BitVec.not_lt.2 hout)⟩
    exact State.splLoop_seq_fields _ _
  · exact ⟨_, hexec, .inr rfl, fun _ => rfl⟩

/-! ### The plane sequences -/

/-- The plane of pair number `a` with parity `b`, for planeMode other than 3: all pairs are pair 0, or there are four of them,
or two (R114). -/
def planeAt (pm : BitVec 2) (a b : Nat) : Nat :=
  if pm = 0 then b else if pm = 1 then (2 * a + b) % 8 else 2 * (a % 2) + b

theorem planeOfByte_eq_planeAt (pm : BitVec 2) (k : Nat) : planeOfByte pm k = planeAt pm (k / 16) (k % 2) := rfl

/-- Four pairs on, the sequence is at the same pair again. -/
theorem planeAt_add_four (pm : BitVec 2) (a b : Nat) : planeAt pm (a + 4) b = planeAt pm a b := by
  unfold planeAt
  split
  · rfl
  · split <;> omega

/-- Every pair's planes have the parity of the position in the pair. -/
theorem planeAt_mod_two (pm : BitVec 2) (a b : Nat) (hb : b < 2) : planeAt pm a b % 2 = b := by
  unfold planeAt
  split
  · omega
  · split <;> omega

/-- A selector's move by its arithmetic: the low bit flips, and an advance adds 2 modulo 8, or flips bit 1 (R111). -/
theorem toggleAdvance_toNat (pm : BitVec 2) (sel : BitVec 3) (advance : Bool) :
    (toggleAdvance pm sel advance).toNat =
      let x := if sel.toNat % 2 = 0 then sel.toNat + 1 else sel.toNat - 1
      if advance = true ∧ pm = 1 then (x + 2) % 8
      else if advance = true ∧ pm = 2 then (if x / 2 % 2 = 0 then x + 2 else x - 2)
      else x := by
  revert pm sel advance
  decide

theorem planeMode_cases (pm : BitVec 2) (hpm : pm ≠ 3) : pm = 0 ∨ pm = 1 ∨ pm = 2 := by
  revert pm
  decide

/-- One move of a selector: the parity flips, and where the pair advances the pair is the next one (R111). -/
theorem toggleAdvance_planeAt (pm : BitVec 2) (sel : BitVec 3) (advance : Bool) (a b : Nat) (hb : b < 2)
    (h : sel.toNat = planeAt pm a b) (hpm : pm ≠ 3) :
    (toggleAdvance pm sel advance).toNat = planeAt pm (if advance then a + 1 else a) (1 - b) := by
  rw [toggleAdvance_toNat, h]
  rcases planeMode_cases pm hpm with rfl | rfl | rfl
  · cases advance <;> simp [planeAt] <;> split_ifs <;> omega
  · cases advance <;> simp [planeAt] <;> split_ifs <;> omega
  · cases advance <;> simp [planeAt] <;> split_ifs <;> omega

/-- The selectors start at the last plane of a pair, pair 3 (R110, R120). -/
theorem selStart_planeAt (pm : BitVec 2) (hpm : pm ≠ 3) : (selStart pm).toNat = planeAt pm 3 1 := by
  revert pm
  decide

/-- The low `m` bits of a 32-bit index are those of the number. -/
theorem low_bits_ofNat_eq_zero_iff (k m : Nat) (hm : m ≤ 32) :
    ((BitVec.ofNat 32 k).extractLsb' 0 m == 0) = decide (k % 2 ^ m = 0) := by
  have hdvd : 2 ^ m ∣ 2 ^ 32 := Nat.pow_dvd_pow 2 hm
  rw [Bool.eq_iff_iff, beq_iff_eq, decide_eq_true_iff, low_bits_eq_zero_iff, BitVec.toNat_ofNat, Nat.mod_mod_of_dvd _ hdvd]

/-- SPLIT_SEL after byte `k`, in pairs of planes that start at pair 4. -/
theorem splitSelAfter_planeAt (pm : BitVec 2) (hpm : pm ≠ 3) (k : Nat) :
    (splitSelAfter pm (k + 1)).toNat = planeAt pm (k / 16 + 4) (k % 2) := by
  induction k with
  | zero => exact toggleAdvance_planeAt pm _ true 3 1 (by decide) (selStart_planeAt pm hpm) hpm
  | succ k ih =>
    have hstep := toggleAdvance_planeAt pm _ (decide ((k + 1) % 16 = 0)) _ _ (Nat.mod_lt k (by decide)) ih hpm
    rw [splitSelAfter, nextSel, low_bits_ofNat_eq_zero_iff (k + 1) 4 (by decide)]
    refine hstep.trans ?_
    by_cases hlast : (k + 1) % 16 = 0
    · simp only [hlast, decide_true, if_true, show (k + 1) / 16 = k / 16 + 1 by omega, show (k + 1) % 2 = 1 - k % 2 by omega]
    · simp only [hlast, decide_false, Bool.false_eq_true, if_false, show (k + 1) / 16 = k / 16 by omega,
        show (k + 1) % 2 = 1 - k % 2 by omega]

/-- Settles O25: by induction on the byte index; the four pairs the start is ahead of pair 0 make no difference. -/
theorem splitterFollowsPlaneOfByte : Obligations.SplitterFollowsPlaneOfByte := by
  intro pm k hpm
  rw [splitSelAfter_planeAt pm hpm, planeAt_add_four, planeOfByte_eq_planeAt]

/-- MODEL_SEL after bit `n` is the plane bit `n` came from, for planeMode other than 3 (R121). -/
theorem modelSelAfter_succ (pm : BitVec 2) (hpm : pm ≠ 3) (n : Nat) : modelSelAfter pm (n + 1) = modelPlane pm n := by
  rw [modelSelAfter, selectPlane_snd, if_neg hpm, modelPlane]

/-- The plane of bit `n`, in pairs of planes that start at pair 4. -/
theorem modelPlane_planeAt (pm : BitVec 2) (hpm : pm ≠ 3) (n : Nat) :
    (modelPlane pm n).toNat = planeAt pm (n / 128 + 4) (n % 2) := by
  have hmove (sel : BitVec 3) (n : Nat) : (selectPlane pm sel (BitVec.ofNat 32 n)).1 =
      toggleAdvance pm sel (decide (n % 128 = 0)) := by
    rw [selectPlane, if_neg hpm, low_bits_ofNat_eq_zero_iff n 7 (by decide)]
    rfl
  induction n with
  | zero =>
    rw [modelPlane, hmove]
    exact toggleAdvance_planeAt pm _ true 3 1 (by decide) (selStart_planeAt pm hpm) hpm
  | succ n ih =>
    have hstep := toggleAdvance_planeAt pm _ (decide ((n + 1) % 128 = 0)) _ _ (Nat.mod_lt n (by decide)) ih hpm
    rw [modelPlane, modelSelAfter_succ pm hpm, hmove]
    refine hstep.trans ?_
    by_cases hlast : (n + 1) % 128 = 0
    · simp only [hlast, decide_true, if_true, show (n + 1) / 128 = n / 128 + 1 by omega, show (n + 1) % 2 = 1 - n % 2 by omega]
    · simp only [hlast, decide_false, Bool.false_eq_true, if_false, show (n + 1) / 128 = n / 128 by omega,
        show (n + 1) % 2 = 1 - n % 2 by omega]

/-- In planeMode 3 bit `n` comes from plane `n` mod 8 (R121). -/
theorem modelPlane_three (n : Nat) : (modelPlane 3 n).toNat = n % 8 := by
  rw [modelPlane, selectPlane_fst, if_pos rfl, BitVec.extractLsb'_toNat, BitVec.toNat_ofNat, Nat.shiftRight_zero,
    Nat.mod_mod_of_dvd _ (by decide)]

/-- Settles O29: the modeler's pairs advance every 128 bits as the splitter's do every 16 bytes. -/
theorem modelerFollowsSplitter : Obligations.ModelerFollowsSplitter := by
  intro pm n
  refine ⟨fun hpm => ?_, fun hpm => ?_⟩
  · rw [modelPlane_planeAt pm hpm, planeAt_add_four, planeOfByte_eq_planeAt]
    congr 1 <;> omega
  · subst hpm
    exact modelPlane_three n

/-- The plane of bit `n` has the parity of `n`, in every planeMode. -/
theorem modelPlane_parity (pm : BitVec 2) (n : Nat) : (modelPlane pm n).toNat % 2 = n % 2 := by
  by_cases hpm : pm = 3
  · subst hpm
    rw [modelPlane_three]
    omega
  · rw [modelPlane_planeAt pm hpm, planeAt_mod_two _ _ _ (Nat.mod_lt n (by decide))]

/-- Settles O30: the contexts' bit 4 is the parity of the plane, which alternates. -/
theorem consecutiveBitsDifferInContext : Obligations.ConsecutiveBitsDifferInContext := by
  intro pm cm n h h' heq
  have hparity : (modelPlane pm n).getLsbD 0 = (modelPlane pm (n + 1)).getLsbD 0 := by
    rw [← contextOf_getLsbD_four _ cm h, heq, contextOf_getLsbD_four]
  have hn := modelPlane_parity pm n
  have hn1 := modelPlane_parity pm (n + 1)
  simp only [BitVec.getLsbD, Nat.testBit_zero, decide_eq_decide] at hparity
  omega

end Sys2Proof.Machine
end

section
/-! The estimator and the Golomb encoder as the sequencer runs them: the INITs, PEM_STEP with the symbol it hands over, GCE_FINISH, and the want of room (43_probability_estimator.md R136 to R141, 44_golomb_encoder.md R145 to R151). -/

namespace Sys2Proof.Machine

/-! ### The modelling loop -/

/-- SEQ after the modelling loop's test, label and index apart. -/
theorem State.bitLoop_seq_fields (s : State) (n : Word) : (s.bitLoop n).seq =
    { s.seq with uop := if n < s.nb then Label.cmBit else Label.gceFinish, idx := if n < s.nb then n else 0 } := by
  rw [State.bitLoop_seq]
  by_cases hmore : n < s.nb
  · simp only [if_pos hmore]
  · simp only [if_neg hmore]

/-- The modelling loop moves SEQ only. -/
theorem State.bitLoop_eq (s : State) (n : Word) : s.bitLoop n = { s with seq := (s.bitLoop n).seq } := by
  unfold State.bitLoop
  split <;> rfl

/-! ### The INITs -/

/-- PEM_INIT always answers a next state. -/
theorem exec_pemInit (s : State) : exec .pemInit s =
    .next (({ s with slots := Vector.replicate 32 { state := 0, mps := 0 } } : State).goto Label.gceInit 0) := rfl

/-- Settles O32: PEM_INIT's one next state, field by field. -/
theorem pemInitResetsTheSlots : Obligations.PemInitResetsTheSlots := fun s =>
  ⟨_, exec_pemInit s, fun _ => Vector.getElem_replicate _, rfl, rfl⟩

/-- The state GCE_INIT hands to the modelling loop (R145). -/
def State.gceStart (s : State) : State :=
  { s with runcnt := Vector.replicate 8 0, chans := Vector.replicate 8 BitBuf.empty, tags := [] }

/-- GCE_INIT always answers a next state. -/
theorem exec_gceInit (s : State) : exec .gceInit s = .next (s.gceStart.bitLoop 0) := rfl

@[simp] theorem State.gceStart_count (s : State) (c : BitVec 3) : s.gceStart.count c = 0 := Vector.getElem_replicate _

@[simp] theorem State.gceStart_chan (s : State) (c : BitVec 3) : s.gceStart.chan c = BitBuf.empty :=
  Vector.getElem_replicate _

/-- Settles O35: the counters, channels and tags are new, and the loop starts at bit 0. -/
theorem gceInitEmptiesTheChannels : Obligations.GceInitEmptiesTheChannels := by
  intro s
  refine ⟨_, exec_gceInit s, fun c => ?_, State.bitLoop_tags _ _, ?_, ?_⟩
  · rw [State.bitLoop_count, State.bitLoop_chan, State.gceStart_count, State.gceStart_chan]
    exact ⟨rfl, rfl, rfl, Memory.bitRead_nil⟩
  · have hnone : 0 < s.nb ↔ ¬ s.nb = 0 := word_pos_iff _
    rw [State.bitLoop_seq_fields]
    change ({ s.seq with uop := (if 0 < s.nb then Label.cmBit else Label.gceFinish),
                         idx := (if 0 < s.nb then 0 else 0) } : Seq) = _
    simp only [hnone, ite_not, ite_self]
    rfl
  · rw [State.bitLoop_runcnt, State.bitLoop_chans, State.bitLoop_tags]
    exact State.bitLoop_eq _ _

/-! ### GCE_PUTBIT and PEM_STEP, with room and without -/

/-- GCE_PUTBIT with room, as PEM_STEP takes it over: the state but for the wire eor, and eor (R148). -/
theorem State.putBit_of_room (s : State) (c : BitVec 3) (sym : Bit) (h : s.gceRoom c sym = true) :
    s.putBit c sym = .ok ({ s.afterPutBit c sym with wires := s.wires }, endOfRun c sym (s.count c)) := by
  cases hput : s.putBit c sym with
  | error u =>
    obtain ⟨hno, -⟩ := State.putBit_error s c sym u hput
    exact absurd h (by rw [hno]; decide)
  | ok p =>
    obtain ⟨u, eor⟩ := p
    obtain ⟨-, rfl, rfl⟩ := State.putBit_ok s c sym u eor hput
    rfl

theorem State.putBit_of_noRoom (s : State) (c : BitVec 3) (sym : Bit) (h : s.gceRoom c sym = false) :
    s.putBit c sym = .error s.internalFault :=
  if_neg (by rw [h]; decide)

/-- GCE_PUTBIT without room is INTERNAL_FAULT (60_exceptions.md R190). -/
theorem exec_gcePutbit_of_noRoom (s : State) (c : BitVec 3) (sym : Bit) (h : s.gceRoom c sym = false) :
    exec (.gcePutbit c sym) s = .next s.internalFault := by
  change execGcePutbit c sym s = _
  simp only [execGcePutbit, State.putBit_of_noRoom s c sym h]

/-- The symbol PEM_STEP hands to the encoder for a bit in a context (R138). -/
def State.symbolFor (s : State) (bit : Bit) (ctx : BitVec 5) : Bit := symbolOf bit (s.slot ctx).mps

/-- The state PEM_STEP hands to the modelling loop, for a slot whose row is `row` (R138, R139). -/
def State.afterPemStep (s : State) (bit : Bit) (ctx : BitVec 5) (row : StRow) : State :=
  { s.afterPutBit row.runClass (s.symbolFor bit ctx) with
    slots :=
      if endOfRun row.runClass (s.symbolFor bit ctx) (s.count row.runClass) = 1 then
        s.slots.set ctx.toNat (slotAfter row (s.slot ctx) (s.symbolFor bit ctx))
      else s.slots
    wires := { s.wires with
      cls := row.runClass, sym := s.symbolFor bit ctx
      eor := endOfRun row.runClass (s.symbolFor bit ctx) (s.count row.runClass) } }

/-- PEM_STEP is GCE_PUTBIT with its wires, and, when the run has ended, a write of the slot (R138, R139). -/
theorem State.afterPemStep_eq (s : State) (bit : Bit) (ctx : BitVec 5) (row : StRow) :
    s.afterPemStep bit ctx row =
      let sym := s.symbolFor bit ctx
      let eor := endOfRun row.runClass sym (s.count row.runClass)
      let v : State := { s.afterPutBit row.runClass sym with
        wires := { s.wires with cls := row.runClass, sym := sym, eor := eor } }
      if eor = 1 then v.setSlot ctx (slotAfter row (s.slot ctx) sym) else v := by
  unfold State.afterPemStep
  by_cases hend : endOfRun row.runClass (s.symbolFor bit ctx) (s.count row.runClass) = 1
  · simp only [if_pos hend]
    rfl
  · simp only [if_neg hend]
    rfl

/-- PEM_STEP with room for its symbol goes on with the modelling loop (R138, 46_orchestrator.md R168). -/
theorem exec_pemStep_of_room (s : State) (bit : Bit) (ctx : BitVec 5) (h : (s.slot ctx).state.toNat < 33)
    (hroom : s.gceRoom (s.cfg.st[(s.slot ctx).state.toNat]).runClass (s.symbolFor bit ctx) = true) :
    exec (.pemStep bit ctx) s =
      .next ((s.afterPemStep bit ctx s.cfg.st[(s.slot ctx).state.toNat]).bitLoop (s.seq.idx + 1)) := by
  change execPemStep bit ctx s = _
  have hput := s.putBit_of_room _ _ hroom
  simp only [State.symbolFor] at hput
  simp only [execPemStep, dif_pos h, hput, State.afterPemStep_eq, State.symbolFor]
  rfl

/-- PEM_STEP without room for its symbol is INTERNAL_FAULT (60_exceptions.md R190). -/
theorem exec_pemStep_of_noRoom (s : State) (bit : Bit) (ctx : BitVec 5) (h : (s.slot ctx).state.toNat < 33)
    (hroom : s.gceRoom (s.cfg.st[(s.slot ctx).state.toNat]).runClass (s.symbolFor bit ctx) = false) :
    exec (.pemStep bit ctx) s = .next s.internalFault := by
  change execPemStep bit ctx s = _
  have hput := s.putBit_of_noRoom _ _ hroom
  simp only [State.symbolFor] at hput
  simp only [execPemStep, dif_pos h, hput]

/-- PEM_STEP at a slot state above 32 is INTERNAL_FAULT (R140). -/
theorem exec_pemStep_of_badSlot (s : State) (bit : Bit) (ctx : BitVec 5) (h : 32 < (s.slot ctx).state.toNat) :
    exec (.pemStep bit ctx) s = .next s.internalFault :=
  dif_neg (by omega)

/-- Everything PEM_STEP can answer: INTERNAL_FAULT, or the slot's symbol encoded and the modelling loop gone on with. -/
theorem exec_pemStep_cases (s : State) (bit : Bit) (ctx : BitVec 5) :
    exec (.pemStep bit ctx) s = .next s.internalFault ∨
    ∃ h : (s.slot ctx).state.toNat < 33,
      s.gceRoom (s.cfg.st[(s.slot ctx).state.toNat]).runClass (s.symbolFor bit ctx) = true ∧
      exec (.pemStep bit ctx) s =
        .next ((s.afterPemStep bit ctx s.cfg.st[(s.slot ctx).state.toNat]).bitLoop (s.seq.idx + 1)) := by
  by_cases h : (s.slot ctx).state.toNat < 33
  · cases hroom : s.gceRoom (s.cfg.st[(s.slot ctx).state.toNat]).runClass (s.symbolFor bit ctx) with
    | true => exact .inr ⟨h, hroom, exec_pemStep_of_room s bit ctx h hroom⟩
    | false => exact .inl (exec_pemStep_of_noRoom s bit ctx h hroom)
  · exact .inl (exec_pemStep_of_badSlot s bit ctx (by omega))

section AfterPemStep

variable (s : State) (bit : Bit) (ctx : BitVec 5) (row : StRow)

theorem State.afterPemStep_slot_same : (s.afterPemStep bit ctx row).slot ctx =
    if endOfRun row.runClass (s.symbolFor bit ctx) (s.count row.runClass) = 1 then
      slotAfter row (s.slot ctx) (s.symbolFor bit ctx)
    else s.slot ctx := by
  by_cases hend : endOfRun row.runClass (s.symbolFor bit ctx) (s.count row.runClass) = 1
  · rw [if_pos hend, ← State.slot_setSlot_same s ctx (slotAfter row (s.slot ctx) (s.symbolFor bit ctx))]
    simp only [State.afterPemStep, if_pos hend, State.slot, State.setSlot]
  · rw [if_neg hend]
    simp only [State.afterPemStep, if_neg hend, State.slot]

theorem State.afterPemStep_slot_other (x : BitVec 5) (hx : x ≠ ctx) :
    (s.afterPemStep bit ctx row).slot x = s.slot x := by
  by_cases hend : endOfRun row.runClass (s.symbolFor bit ctx) (s.count row.runClass) = 1
  · rw [← State.slot_setSlot_other s ctx x (slotAfter row (s.slot ctx) (s.symbolFor bit ctx)) hx]
    simp only [State.afterPemStep, if_pos hend, State.slot, State.setSlot]
  · simp only [State.afterPemStep, if_neg hend, State.slot]

end AfterPemStep

/-- A bit is 0 or 1. -/
theorem bit_cases (b : Bit) : b = 0 ∨ b = 1 := by
  revert b
  decide

/-- A slot after the end of a run, with the adaptive states as numbers (R138, R139). -/
theorem slotAfter_eq (row : StRow) (sl : Slot) (sym : Bit) : slotAfter row sl sym =
    if sym = 0 then { state := row.nextIfMatch, mps := sl.mps }
    else { state := row.nextIfMismatch, mps := if sl.state.toNat ≤ 1 then sl.mps ^^^ 1 else sl.mps } := by
  rcases bit_cases sym with rfl | rfl
  · rfl
  · simp only [slotAfter, if_true, adaptive_iff]
    rfl

/-- Settles O34: a bad slot state faults; else GCE_PUTBIT has room, and PEM_STEP adds the slot and the loop to its state. -/
theorem pemStepUpdatesTheSlot : Obligations.PemStepUpdatesTheSlot := by
  intro s bit ctx
  refine ⟨exec_pemStep_of_badSlot s bit ctx, fun h => ?_⟩
  intro row sym w htag hmismatch hfull
  have hroom : s.gceRoom row.runClass sym = true := (s.gceRoom_iff row.runClass sym).mpr ⟨htag, hmismatch, hfull⟩
  refine ⟨_, _, exec_gcePutbit_of_room s row.runClass sym hroom, exec_pemStep_of_room s bit ctx h hroom,
    ?_, ?_, fun x hx => ?_, State.bitLoop_seq_fields _ _, ?_⟩
  · rw [State.bitLoop_wires]
    rfl
  · rw [State.bitLoop_slot, State.afterPemStep_slot_same, slotAfter_eq]
    change (if endOfRun row.runClass sym (s.count row.runClass) = 1 then _ else _) =
      if endOfRun row.runClass sym (s.count row.runClass) = 0 then _ else _
    rcases bit_cases (endOfRun row.runClass sym (s.count row.runClass)) with hend | hend
    · rw [hend]
      rfl
    · rw [hend]
      rfl
  · rw [State.bitLoop_slot, State.afterPemStep_slot_other s bit ctx _ x hx]
  · rw [State.bitLoop_slots, State.bitLoop_wires]
    exact State.bitLoop_eq _ _

/-- Settles O31: the padding bit is the slot's own prediction, so the symbol is 0 where PEM_STEP does not fault. -/
theorem paddingBitIsAMatch : Obligations.PaddingBitIsAMatch := by
  intro s t u n hcm hpad hstep
  rw [exec_cmBit s n _ rfl] at hcm
  cases hcm
  rw [State.afterCmBit_wires] at hpad hstep
  generalize (selectPlane s.pm s.modelSel n).1 = p at hpad hstep
  have hexhausted : (s.plane p).exhausted = true := by
    cases hx : (s.plane p).exhausted with
    | true => rfl
    | false =>
      rw [hx] at hpad
      change BitVec.ofBool false = 1 at hpad
      exact absurd hpad (by decide)
  rcases exec_pemStep_cases (s.afterCmBit n p (contextOf p s.cm (s.history p)))
      (s.replayedBit p (contextOf p s.cm (s.history p))) (contextOf p s.cm (s.history p)) with hfault | ⟨h, -, hnext⟩
  · rw [hfault] at hstep
    cases hstep
    exact .inr ⟨rfl, rfl⟩
  · rw [hnext] at hstep
    cases hstep
    left
    rw [State.bitLoop_wires]
    change symbolOf (s.replayedBit p _) (s.slot _).mps = 0
    rw [State.replayedBit_of_exhausted s p _ ((BitBuf.exhausted_iff _).1 hexhausted), symbolOf]
    exact BitVec.xor_self

/-! ### The count in a mismatch codeword -/

/-- The digits of a count below 2^n, least significant first, sum to it. -/
theorem sum_digits_eq_mod (k : BitVec 8) (n : Nat) :
    ((List.range n).map fun i => (k.getLsbD i).toNat * 2 ^ i).sum = k.toNat % 2 ^ n := by
  induction n with
  | zero => simp [Nat.mod_one]
  | succ n ih =>
    rw [List.range_succ, List.map_append, List.sum_append, ih, Nat.mod_pow_succ]
    simp [BitVec.getLsbD, Nat.toNat_testBit, Nat.mul_comm]

/-- Settles O38: each magnitude bit is the complement of a digit, and the digits sum to the count. -/
theorem mismatchCodewordCarriesTheCount : Obligations.MismatchCodewordCarriesTheCount := by
  intro c k hk
  have hlen := mismatchWord_length c k
  refine ⟨(mismatchWord c k).tail, rfl, by rw [List.length_tail, hlen, Nat.add_sub_cancel], ?_⟩
  rw [← Nat.mod_eq_of_lt hk, ← sum_digits_eq_mod]
  congr 1
  refine List.map_congr_left fun i hi => ?_
  have hlt : i < c.toNat := List.mem_range.1 hi
  have hget : (mismatchWord c k).tail.getD i 0 = if k.getLsbD i then 0 else 1 := by
    rw [List.getD_eq_getElem _ _ (by rw [List.length_tail, hlen]; omega), List.getElem_tail,
      mismatchWord_getElem_succ c k i hlt]
  rw [hget]
  cases k.getLsbD i <;> rfl

/-! ### GCE_FINISH -/

/-- The state GCE_FINISH leaves but for SEQ, when every pending run's channel has room (R151). -/
def State.afterFinish (s : State) : State :=
  { s with
    chans := vec8 fun c => if s.count c = 0 then s.chan c else (s.chan c).append 0
    runcnt := Vector.replicate 8 0 }

theorem State.afterFinish_chan (s : State) (c : BitVec 3) :
    s.afterFinish.chan c = if s.count c = 0 then s.chan c else (s.chan c).append 0 :=
  State.chan_vec8 s.afterFinish (fun c => if s.count c = 0 then s.chan c else (s.chan c).append 0) rfl c

@[simp] theorem State.afterFinish_count (s : State) (c : BitVec 3) : s.afterFinish.count c = 0 :=
  Vector.getElem_replicate _

/-- GCE_FINISH checks the room of every channel with a pending run (log 21). -/
theorem finishRoom_iff (s : State) :
    ((List.range 8).all fun c =>
      s.count (BitVec.ofNat 3 c) == 0 ||
        decide ((s.chan (BitVec.ofNat 3 c)).wpos.toNat + 1 ≤ s.cfg.chanCap)) = true ↔
    ∀ c, s.count c ≠ 0 → (s.chan c).wpos.toNat + 1 ≤ s.cfg.chanCap := by
  rw [List.all_eq_true]
  simp only [Bool.or_eq_true, beq_iff_eq, decide_eq_true_eq]
  rw [forall_channel_iff fun _ c => s.count c = 0 ∨ (s.chan c).wpos.toNat + 1 ≤ s.cfg.chanCap]
  exact forall_congr' fun c => Decidable.or_iff_not_imp_left

theorem exec_gceFinish_of_room (s : State) (h : ∀ c, s.count c ≠ 0 → (s.chan c).wpos.toNat + 1 ≤ s.cfg.chanCap) :
    exec .gceFinish s = .next (s.afterFinish.goto Label.ilInit 0) :=
  if_pos ((finishRoom_iff s).mpr h)

theorem exec_gceFinish_of_noRoom (s : State)
    (h : ¬ ∀ c, s.count c ≠ 0 → (s.chan c).wpos.toNat + 1 ≤ s.cfg.chanCap) :
    exec .gceFinish s = .next s.internalFault :=
  if_neg (mt (finishRoom_iff s).mp h)

/-- Settles O39: with room, each channel by whether its counter is 0. -/
theorem gceFinishFlushesPartialRuns : Obligations.GceFinishFlushesPartialRuns := by
  intro s hcap hroom
  refine ⟨_, exec_gceFinish_of_room s fun c hc => (hroom c hc).2, fun c => ?_, rfl, rfl⟩
  rw [State.goto_count, State.goto_chan, State.afterFinish_count, State.afterFinish_chan]
  by_cases hc : s.count c = 0
  · rw [if_pos hc]
    exact ⟨rfl, rfl, fun _ => rfl, fun h => absurd hc h⟩
  · obtain ⟨hwf, hfits⟩ := hroom c hc
    rw [if_neg hc]
    refine ⟨rfl, rfl, fun h => absurd h hc, fun _ => ⟨?_, BitBuf.bitRead_append _ _ hwf⟩⟩
    rw [BitBuf.append_wpos, word_succ, Nat.mod_eq_of_lt (by omega)]

end Sys2Proof.Machine
end

section
/-! The interleaver and the orchestrator as the sequencer runs them, what each shared operation's INTERNAL_FAULT leaves, and the state after reset (45_interleaver.md R155 to R159, 46_orchestrator.md R168 to R171, 60_exceptions.md R190). -/

namespace Sys2Proof.Machine

/-! ### IL_MOVEBIT -/

/-- The state IL_MOVEBIT leaves but for the wire it returns the bit on (R156). -/
def State.afterMove (s : State) (c : BitVec 3) : State :=
  { s with
    chans := s.chans.set c.toNat (s.chan c).advance
    att := Memory.bitWrite s.att s.opos.toNat (s.chan c).peek
    opos := s.opos + 1 }

theorem State.afterMove_chan (s : State) (c d : BitVec 3) :
    (s.afterMove c).chan d = if d = c then (s.chan c).advance else s.chan d :=
  State.chan_setChan s c d _

theorem exec_ilMovebit_of_lt (s : State) (c : BitVec 3) (h : (s.chan c).rpos < (s.chan c).wpos)
    (hroom : s.opos.toNat / 8 ≤ s.cfg.outCap.toNat) :
    exec (.ilMovebit c) s =
      .next { s.afterMove c with wires := { s.wires with bit := (s.chan c).peek } } := by
  change execIlMovebit c s = _
  simp only [execIlMovebit, s.moveBit_of_lt c h hroom]
  rfl

/-- IL_MOVEBIT with no bit left, or no room in ATT, fails into INTERNAL_FAULT (R156, 60_exceptions.md R190). -/
theorem State.moveBit_of_none (s : State) (c : BitVec 3)
    (h : (s.chan c).wpos ≤ (s.chan c).rpos ∨ s.cfg.outCap.toNat < s.opos.toNat / 8) :
    s.moveBit c = .error s.internalFault := by
  refine if_neg fun ⟨hbit, hroom⟩ => ?_
  rcases h with h | h
  · exact absurd hbit (BitVec.not_lt.2 h)
  · omega

theorem exec_ilMovebit_of_none (s : State) (c : BitVec 3)
    (h : (s.chan c).wpos ≤ (s.chan c).rpos ∨ s.cfg.outCap.toNat < s.opos.toNat / 8) :
    exec (.ilMovebit c) s = .next s.internalFault := by
  change execIlMovebit c s = _
  simp only [execIlMovebit, s.moveBit_of_none c h]

/-- Settles O41: the moved bit by the bit buffer's read after write, and the fault when none is left. -/
theorem ilMovebitMovesOneBit : Obligations.IlMovebitMovesOneBit := by
  intro s c hwf hroom
  refine ⟨fun hbit => ?_, fun hnone => exec_ilMovebit_of_none s c (.inl hnone)⟩
  refine ⟨_, exec_ilMovebit_of_lt s c hbit hroom, rfl, fun pos => Memory.bitRead_bitWrite _ _ _ _ hwf, rfl, ?_,
    fun d hd => ?_, rfl⟩
  · exact (s.afterMove_chan c c).trans (if_pos rfl)
  · exact (s.afterMove_chan c d).trans (if_neg hd)

/-! ### IL_TAG and the tag loop -/

/-- Where bits run out or ATT ends, the bits already moved stay, and the rest is INTERNAL_FAULT (log 21). -/
theorem State.moveBits_error (n : Nat) (s u : State) (c : BitVec 3) (h : s.moveBits c n = .error u) :
    u = ({ s with chans := u.chans, att := u.att, opos := u.opos } : State).internalFault := by
  induction n generalizing s with
  | zero => cases h
  | succ n ih =>
    simp only [State.moveBits] at h
    cases hm : s.moveBit c with
    | error e =>
      rw [hm] at h
      cases h
      obtain ⟨-, rfl⟩ := State.moveBit_error _ _ _ hm
      rfl
    | ok p =>
      obtain ⟨v, b⟩ := p
      rw [hm] at h
      obtain ⟨-, -, -, hv⟩ := State.moveBit_ok _ _ _ _ hm
      have hrest := ih v h
      rw [hv] at hrest
      exact hrest

/-- IL_TAG that lacks a tag, a bit or room is INTERNAL_FAULT behind the bits it has moved (log 20, log 21). -/
theorem State.moveTag_error (s u : State) (t : Word) (h : s.moveTag t = .error u) :
    u = ({ s with chans := u.chans, att := u.att, opos := u.opos } : State).internalFault := by
  cases htag : s.tags[t.toNat]? with
  | none =>
    simp only [State.moveTag, htag] at h
    cases h
    rfl
  | some c =>
    rw [State.moveTag_eq_moveBits s t c htag] at h
    exact State.moveBits_error _ s u c h

/-- IL_TAG always answers a next state: the fault, or the tag loop gone on with. -/
theorem exec_ilTag_cases (s t : State) (k : Word) (h : exec (.ilTag k) s = .next t) :
    s.moveTag k = .error t ∨ ∃ u, s.moveTag k = .ok u ∧ t = u.tagLoop (k + 1) := by
  change execIlTag k s = _ at h
  unfold execIlTag at h
  split at h
  next u hu => cases h; exact .inl hu
  next u hu => cases h; exact .inr ⟨u, hu, rfl⟩

/-- The loop's three outcomes, by the tags left and the output's length against OUT_LIMIT (R159). -/
theorem State.tagLoop_outcomes (s : State) (k : Word) :
    (s.tags.length ≤ k.toNat → (s.tagLoop k).seq = { s.seq with uop := 0x53, idx := 0 } ∧ (s.tagLoop k).alen = s.alen) ∧
    (k.toNat < s.tags.length → (s.opos.toNat + 7) / 8 ≤ s.outLimit.toNat →
      (s.tagLoop k).seq = { s.seq with uop := 0x51, idx := k } ∧ (s.tagLoop k).alen = s.alen) ∧
    (k.toNat < s.tags.length → s.outLimit.toNat < (s.opos.toNat + 7) / 8 →
      (s.tagLoop k).seq = { s.seq with uop := 0x61, idx := 0 } ∧ (s.tagLoop k).alen = .inf) := by
  have hover : s.overLimit = decide (s.outLimit.toNat < (s.opos.toNat + 7) / 8) := by
    simp only [State.overLimit, BitVec.lt_def, byteLen_toNat]
  rcases s.tagLoop_cases k with ⟨hlen, hloop⟩ | ⟨hlen, hlim, hloop⟩ | ⟨hlen, hlim, hloop⟩
  · rw [hloop]
    exact ⟨fun _ => ⟨rfl, rfl⟩, fun h => absurd h (by omega), fun h => absurd h (by omega)⟩
  · rw [hover, decide_eq_false_iff_not] at hlim
    rw [hloop]
    exact ⟨fun h => absurd h (by omega), fun _ _ => ⟨rfl, rfl⟩, fun _ h => absurd h hlim⟩
  · rw [hover, decide_eq_true_iff] at hlim
    rw [hloop]
    exact ⟨fun h => absurd h (by omega), fun _ h => absurd h (by omega), fun _ _ => ⟨rfl, rfl⟩⟩

/-- Settles O43: IL_INIT and an IL_TAG that moves its codeword go on with the tag loop; one that does not faults. -/
theorem tagLoopAndEarlyStop : Obligations.TagLoopAndEarlyStop := by
  intro s t i next hi hexec
  rcases hi with ⟨rfl, rfl⟩ | ⟨k, rfl, rfl⟩
  · rw [exec_ilInit] at hexec
    cases hexec
    left
    obtain ⟨hover, hon, hstop⟩ := s.ilStart.tagLoop_outcomes 0
    rw [State.tagLoop_tags, State.tagLoop_opos, State.tagLoop_outLimit, State.tagLoop_faulted]
    exact ⟨hover, hon, hstop, rfl⟩
  · rcases exec_ilTag_cases s t k hexec with herror | ⟨u, hok, rfl⟩
    · right
      rw [State.moveTag_error s t k herror]
      exact ⟨by simp, rfl, rfl, rfl⟩
    · left
      have hframe := State.moveTag_frame s u k hok
      obtain ⟨hover, hon, hstop⟩ := u.tagLoop_outcomes (k + 1)
      rw [State.tagLoop_tags, State.tagLoop_opos, State.tagLoop_outLimit, State.tagLoop_faulted]
      have hseq : u.seq = s.seq := by rw [hframe]
      have halen : u.alen = s.alen := by rw [hframe]
      have hfaulted : u.faulted = s.faulted := by rw [hframe]
      rw [hseq, halen] at hover hon
      rw [hseq] at hstop
      exact ⟨hover, hon, hstop, hfaulted⟩

/-- IL_LEN always answers a next state. -/
theorem exec_ilLen (s : State) : exec .ilLen s =
    .next (({ s with alen := limitLen s.outLimit (byteLen s.opos) } : State).goto Label.orcSelect 0) := rfl

/-- Settles O44: the length is the ceiling, cut by the limit. -/
theorem ilLenComputesTheLength : Obligations.IlLenComputesTheLength := by
  intro s
  have hlen := byteLen_toNat s.opos
  refine ⟨_, exec_ilLen s, fun hfits => ?_, fun hover => ?_, rfl, rfl⟩
  · change limitLen s.outLimit (byteLen s.opos) = _
    rw [limitLen, if_neg (by rw [BitVec.lt_def]; omega), ← hlen, BitVec.ofNat_toNat, BitVec.setWidth_eq]
  · exact if_pos (by rw [BitVec.lt_def]; omega)

/-! ### The orchestrator -/

/-- ORC_BEGIN always answers a next state. -/
theorem exec_orcBegin (s : State) (h : BitVec 4) : exec (.orcBegin h) s = .next { s with
    hdr := h, seq := { s.seq with hcur := h, uop := Label.splInit, idx := 0 } } := rfl

/-- Settles O45: ORC_BEGIN's one next state. -/
theorem orcBeginLoadsTheHeader : Obligations.OrcBeginLoadsTheHeader := exec_orcBegin

/-- The attempt is the command's first, or shorter than the best so far (R170). -/
def State.keeps (s : State) : Bool := s.firstAttempt || lenLt s.alen s.bestLen

theorem State.keeps_iff (s : State) : s.keeps = true ↔
    (s.seq.kind = .encode ∨ s.seq.hcur = 0) ∨
      ∃ n, s.alen = .bytes n ∧ (s.bestLen = .inf ∨ ∃ m, s.bestLen = .bytes m ∧ n < m) := by
  simp only [State.keeps, State.firstAttempt, Bool.or_eq_true, beq_iff_eq, lenLt_iff]

/-- BEST after the attempt's bytes are copied over it, where it has a length (R170). -/
def State.keptBest (s : State) : Memory :=
  match s.alen with
  | .bytes n => Memory.copy s.att n.toNat s.best
  | .inf => s.best

theorem State.keptBest_inf (s : State) (h : s.alen = .inf) : s.keptBest = s.best := by
  simp only [State.keptBest, h]

theorem State.keptBest_read (s : State) (n : Word) (h : s.alen = .bytes n) (hwf : Memory.wf s.best) (k : Nat) :
    Memory.read s.keptBest k = if k < n.toNat then Memory.read s.att k else Memory.read s.best k := by
  simp only [State.keptBest, h, Memory.read_copy _ _ _ hwf]

/-- The state ORC_SELECT hands to the choice of the next attempt (R170). -/
def State.afterSelect (s : State) : State :=
  { s.setAttempt s.hdr (lenWord s.alen) with
    best := if s.keeps then s.keptBest else s.best
    bestLen := if s.keeps then s.alen else s.bestLen
    bestHdr := if s.keeps then s.hdr else s.bestHdr }

/-- ORC_SELECT with room in BEST for what it keeps. -/
theorem exec_orcSelect_of_room (s : State) (h : s.keeps = true → s.bestRoom = true) :
    exec .orcSelect s = .next s.afterSelect.nextAttempt := by
  change execOrcSelect s = _
  unfold execOrcSelect
  change Host.Outcome.next (if (s.keeps && !s.bestRoom) = true then _ else
    (if s.keeps = true then _ else _ : State).nextAttempt) = _
  cases hk : s.keeps with
  | true =>
    rw [h hk]
    simp only [State.afterSelect, hk]
    rfl
  | false =>
    simp only [State.afterSelect, hk]
    rfl

/-- ORC_SELECT without room in BEST for what it is to keep is INTERNAL_FAULT (log 21). -/
theorem exec_orcSelect_of_noRoom (s : State) (hk : s.keeps = true) (h : s.bestRoom = false) :
    exec .orcSelect s = .next s.internalFault := by
  change Host.Outcome.next (if (s.keeps && !s.bestRoom) = true then s.internalFault else _) = _
  rw [hk, h]
  rfl

/-- The next attempt, or the end of the command, moves SEQ only. -/
theorem State.nextAttempt_eq (s : State) : s.nextAttempt = { s with seq := s.nextAttempt.seq } := by
  unfold State.nextAttempt
  split <;> rfl

/-- Settles O46: by whether BEST has room for what is kept, and then by whether the attempt is kept. -/
theorem orcSelectKeepsTheShorter : Obligations.OrcSelectKeepsTheShorter := by
  intro s hwf first shorter
  have hkeeps : s.keeps = true ↔ first ∨ shorter := s.keeps_iff
  clear_value first shorter
  refine ⟨fun hkeep ⟨n, hn, hcap⟩ => ?_, fun hroom => ?_⟩
  · refine exec_orcSelect_of_noRoom s (hkeeps.mpr hkeep) ?_
    rw [← Bool.not_eq_true, s.bestRoom_iff]
    exact fun h => absurd (h n hn) (BitVec.not_le.2 hcap)
  · have hfits : s.keeps = true → s.bestRoom = true := fun hk =>
      s.bestRoom_iff.mpr (hroom.resolve_left fun hno => hno (hkeeps.mp hk))
    refine ⟨_, exec_orcSelect_of_room s hfits, ?_⟩
    rw [State.nextAttempt_best, State.nextAttempt_bestLen, State.nextAttempt_bestHdr, State.nextAttempt_seq,
      State.nextAttempt_attemptLen]
    have hattempt (h : BitVec 4) : s.afterSelect.nextAttempt.attempt h = if h = s.hdr then lenWord s.alen else s.attempt h :=
      (State.nextAttempt_attempt _ h).trans (s.attempt_setAttempt s.hdr h _)
    refine ⟨fun hinf => ?_, fun n hn => ?_, fun h hh => ?_, fun hk => ?_, fun hk hinf => ?_, fun hno => ?_,
      fun hmore => if_pos hmore, fun hlast => if_neg hlast, ?_⟩
    · rw [hattempt, if_pos rfl, hinf]; rfl
    · rw [hattempt, if_pos rfl, hn]; rfl
    · rw [hattempt, if_neg hh]
    · simp only [State.afterSelect, hkeeps.mpr hk, if_true]
      exact ⟨trivial, trivial, fun n hn k => s.keptBest_read n hn hwf k⟩
    · simp only [State.afterSelect, hkeeps.mpr hk, if_true]
      exact s.keptBest_inf hinf
    · simp only [State.afterSelect, if_neg (mt hkeeps.mp hno)]
      exact ⟨trivial, trivial, trivial⟩
    · rw [State.nextAttempt_eq, State.nextAttempt_seq]
      rfl

/-- The state ORC_DONE leaves when the best attempt has a length (R171). -/
def State.afterDone (s : State) (n : Word) : State :=
  { s with
    outMem := Memory.copy s.best n.toNat s.outMem
    outLen := n
    resultHdr := s.bestHdr
    status := statusCompleted s.status
    seq := { s.seq with phase := .idle } }

theorem exec_orcDone_of_bytes (s : State) (n : Word) (h : s.bestLen = .bytes n) :
    exec .orcDone s = .next (s.afterDone n) := by
  change execOrcDone s = _
  unfold execOrcDone
  split
  next hinf =>
    rw [h] at hinf
    cases hinf
  next m hm =>
    rw [h] at hm
    cases hm
    rfl

theorem exec_orcDone_of_inf (s : State) (h : s.bestLen = .inf) :
    exec .orcDone s = .next (s.failCommand (if s.faulted then .internalFault else .bufferTooSmallOut)) := by
  change execOrcDone s = _
  simp only [execOrcDone, h]

/-- Settles O47: by whether the best attempt has a length. -/
theorem orcDoneFinishesTheCommand : Obligations.OrcDoneFinishesTheCommand := by
  intro s hwf
  refine ⟨fun n hn => ⟨_, exec_orcDone_of_bytes s n hn, fun k => Memory.read_copy _ _ _ hwf k, rfl⟩, fun hinf => ?_⟩
  rw [exec_orcDone_of_inf s hinf, State.failCommand_eq]
  cases s.faulted <;> rfl

/-! ### Want of room, and the reset state -/

/-- Settles O37: each micro-operation's own rule for where it has no room or no bit. -/
theorem overflowIsInternalFault : Obligations.OverflowIsInternalFault := by
  intro s i h
  change exec i s = .next s.internalFault
  rcases h with ⟨c, sym, hi, hfull⟩ | ⟨rfl, c, hc, hfull⟩ | ⟨k, rfl, hfull⟩ | ⟨k, p, rfl, hfull⟩ | ⟨c, rfl, hfull⟩ |
    ⟨t, rfl, hfull⟩
  · have hroom : s.gceRoom c sym = false := by
      rw [← Bool.not_eq_true, s.gceRoom_iff]
      rintro ⟨htag, hmismatch, hrun⟩
      rcases hfull with ⟨h0, hcap⟩ | ⟨hs, hcap⟩ | ⟨hlast, hcap⟩
      · exact absurd (htag h0) (by omega)
      · exact absurd (hmismatch hs) (by omega)
      · exact absurd (hrun hlast) (by omega)
    rcases hi with rfl | ⟨bit, ctx, hstate, rfl, rfl, rfl⟩
    · exact exec_gcePutbit_of_noRoom s c sym hroom
    · exact exec_pemStep_of_noRoom s bit ctx hstate hroom
  · exact exec_gceFinish_of_noRoom s fun hroom => absurd (hroom c hc) (by omega)
  · refine exec_splByte_of_noRoom s k fun hroom => absurd hroom.2 ?_
    exact Nat.not_le.2 hfull
  · exact exec_splBits_of_noRoom s k fun hroom => absurd (hroom.2 p) (by omega)
  · exact exec_ilMovebit_of_none s c (.inr hfull)
  · change execIlTag t s = _
    have herror : s.moveTag t = .error s.internalFault := by
      cases htag : s.tags[t.toNat]? with
      | none => simp only [State.moveTag, htag]
      | some c =>
        have hnone : (s.chan c).wpos ≤ (s.chan c).rpos ∨ s.cfg.outCap.toNat < s.opos.toNat / 8 := by
          rcases hfull with hlen | hcap | ⟨d, hd, hempty⟩
          · rw [List.getElem?_eq_none hlen] at htag
            cases htag
          · exact .inr hcap
          · rw [hd] at htag
            cases htag
            exact .inl hempty
        simp only [State.moveTag, htag, s.moveBit_of_none c hnone]
    simp only [execIlTag, herror]

/-- The parameters' defaults are legal (00_scope.md R7). -/
theorem defaultConfig_legal : legalConfig defaultConfig := by decide

theorem State.reset_canonical : State.reset.canonical := by
  unfold State.canonical
  decide

theorem State.reset_statusLawful : State.reset.statusLawful := by
  unfold State.statusLawful
  decide

theorem State.reset_withinSizes : State.reset.withinSizes := by
  refine ⟨by decide, by decide, by decide, by decide, by decide, by decide, by decide, by decide, by decide, ?_, ?_⟩
  · intro n h
    cases h
    decide
  · intro n h
    cases h

theorem State.reset_unitsLawful : State.reset.unitsLawful := by
  unfold State.unitsLawful
  decide

/-- Settles O49: the reset state is closed data, so each part is evaluated. -/
theorem resetIsSound : Obligations.ResetIsSound :=
  ⟨State.reset_canonical, State.reset_statusLawful, State.reset_withinSizes, State.reset_unitsLawful,
    defaultConfig_legal⟩

end Sys2Proof.Machine
end

section
/-! What one step can do to the block, in four kinds: the reset input, a command taken while idle, a quiet move of the host, and a micro-operation, whose effects are listed once (00_scope.md R16). -/

namespace Sys2Proof.Machine

/-! ### The kinds of a step -/

/-- From `s` to `t` nothing of the block moves but what the host may set while nothing runs: IN_LEN, OUT_MAX, a byte of IN, IE,
OVR raised, and the host's own moves and log. -/
structure Quiet (s t : State) : Prop where
  frame : t = { s with
    status := { s.status with ovr := t.status.ovr }
    inLen := t.inLen, outMax := t.outMax, ie := t.ie, inMem := t.inMem
    host := t.host, reads := t.reads, draws := t.draws }
  ovr : s.status.ovr = true → t.status.ovr = true
  input : t.inMem = s.inMem ∨ ∃ k v rest, s.hostMakes (.inWrite k v) rest ∧ k < s.cfg.inCap.toNat ∧
    t.inMem = Memory.write s.inMem k v

/-- A move taken from the host's list is quiet. -/
theorem Quiet.ofHost (s : State) (moves : List HostMove) : Quiet s { s with host := moves } :=
  ⟨rfl, id, .inl rfl⟩

/-- An overrun is quiet. -/
theorem Quiet.ofOverrun (s : State) (rest : List HostMove) : Quiet s ({ s with host := rest } : State).overrun :=
  ⟨rfl, fun _ => rfl, .inl rfl⟩

/-- A write to a register other than CMD is quiet (46_orchestrator.md R174). -/
theorem Quiet.ofRegWrite (s : State) (rest : List HostMove) (r : RegName) (v : Word) :
    Quiet s (({ s with host := rest } : State).regWrite r v) := by
  cases r with
  | inLen =>
    cases hb : s.status.busy with
    | true => rw [State.regWrite_of_busy { s with host := rest } _ v (.inl rfl) hb]; exact Quiet.ofOverrun s rest
    | false => rw [State.regWrite_inLen_of_idle { s with host := rest } v hb]; exact ⟨rfl, id, .inl rfl⟩
  | outMax =>
    cases hb : s.status.busy with
    | true => rw [State.regWrite_of_busy { s with host := rest } _ v (.inr rfl) hb]; exact Quiet.ofOverrun s rest
    | false => rw [State.regWrite_outMax_of_idle { s with host := rest } v hb]; exact ⟨rfl, id, .inl rfl⟩
  | _ => exact ⟨rfl, id, .inl rfl⟩

/-- What a command word, legal or not, does while idle: acceptance, the acknowledgement of CLEAR, or ILLEGAL_COMMAND. -/
def CommandEffect (w : Word) (s t : State) : Prop :=
  (∃ kind h, t = s.accept kind h) ∨ (w = 0x00000030 ∧ t = s.acknowledge) ∨
    t = { s with outLen := 0, resultHdr := 0, status := { s.status with done := true, err := true, errcode := 3 } }

/-- A legal command while idle has its effect (46_orchestrator.md R165, R172). -/
theorem commandEffect_of_decode (s t : State) (w : Word) (i : Instr) (hd : decodeCommand w = .ok i)
    (hidle : s.status.busy = false) (h : exec i s = .next t) : CommandEffect w s t := by
  rcases decodeCommand_cases w i hd with ⟨rfl, -⟩ | ⟨rfl, -⟩ | ⟨rfl, -⟩
  · rw [exec_compress_of_idle s hidle] at h
    cases h
    exact .inl ⟨_, _, rfl⟩
  · rw [exec_encode_of_idle s _ hidle] at h
    cases h
    exact .inl ⟨_, _, rfl⟩
  · rw [exec_clear_of_idle s hidle] at h
    cases h
    have hw : Encoding.cmdWord 0x00000030 = .cmdWord w := encode_of_decodeCommand w .clear hd
    exact .inr (.inl ⟨(Encoding.cmdWord.inj hw).symm, rfl⟩)

/-- A step is the reset input, a command while idle, quiet, or one turn of a running engine. -/
theorem step_kinds (s t : State) (h : step s = .next t) :
    (∃ rest, s.hostMakes .reset rest ∧ t = ({ s with host := rest } : State).deviceReset) ∨
    (∃ w rest, s.hostMakes (.regWrite .w32 0 w) rest ∧ s.status.busy = false ∧ CommandEffect w { s with host := rest } t) ∨
    Quiet s t ∨
    ∃ moves, s.seq.phase = .run ∧ ({ s with host := moves } : State).engineTurn = .next t := by
  have engine (moves : List HostMove) (h : ({ s with host := moves } : State).engineTurn = .next t) :
      Quiet s t ∨ ∃ moves, s.seq.phase = .run ∧ ({ s with host := moves } : State).engineTurn = .next t := by
    cases hp : s.seq.phase with
    | idle =>
      rw [State.engineTurn_of_idle { s with host := moves } hp] at h
      cases h
      exact .inl (Quiet.ofHost s moves)
    | run => exact .inr ⟨moves, rfl, h⟩
  rcases step_cases s t h with ⟨rest, hm, rfl⟩ | ⟨w, rest, i, hm, hd, hx⟩ | ⟨w, rest, e, hm, hd, rfl⟩ |
    ⟨off, v, rest, r, -, -, -, rfl⟩ | ⟨off, v, rest, -, -, rfl⟩ | ⟨off, rest, v, -, rfl⟩ | ⟨k, v, rest, hm, -, hk, rfl⟩ |
    ⟨k, rest, b, d, -, rfl⟩ | ⟨rest, r, -, rfl⟩ | ⟨-, hx⟩ | ⟨rest, -, hx⟩ | ⟨rest, -, hx⟩
  · exact .inl ⟨rest, hm, rfl⟩
  · cases hb : s.status.busy with
    | false => exact .inr (.inl ⟨w, rest, hm, rfl, commandEffect_of_decode { s with host := rest } t w i hd hb hx⟩)
    | true =>
      have hcmd := State.writeCmd_of_busy { s with host := rest } w hb
      simp only [State.writeCmd, hd] at hcmd
      rw [hcmd] at hx
      cases hx
      exact .inr (.inr (.inl (Quiet.ofOverrun s rest)))
  · cases hb : s.status.busy with
    | false =>
      refine .inr (.inl ⟨w, rest, hm, rfl, .inr (.inr ?_)⟩)
      exact State.illegalCommand_of_idle { s with host := rest } hb
    | true =>
      rw [State.illegalCommand_of_busy { s with host := rest } hb]
      exact .inr (.inr (.inl (Quiet.ofOverrun s rest)))
  · exact .inr (.inr (.inl (Quiet.ofRegWrite s rest r v)))
  · exact .inr (.inr (.inl (Quiet.ofHost s rest)))
  · exact .inr (.inr (.inl ⟨rfl, id, .inl rfl⟩))
  · exact .inr (.inr (.inl ⟨rfl, id, .inr ⟨k, v, rest, hm, hk, rfl⟩⟩))
  · exact .inr (.inr (.inl ⟨rfl, id, .inl rfl⟩))
  · exact .inr (.inr (.inl ⟨rfl, id, .inl rfl⟩))
  · exact .inr (.inr (engine s.host hx))
  · exact .inr (.inr (engine s.host hx))
  · exact .inr (.inr (engine rest hx))

/-! ### The effects of the micro-operations -/

/-- `u` is `s` after some bits of channel `c` have been moved to the output, each with a bit to move and room for it. -/
inductive Moved (c : BitVec 3) : State → State → Prop where
  | none (s : State) : Moved c s s
  | bit (s u : State) (hbit : (s.chan c).rpos < (s.chan c).wpos) (hroom : s.opos.toNat / 8 ≤ s.cfg.outCap.toNat)
      (h : Moved c (s.afterMove c) u) : Moved c s u

/-- Moving several bits gets that far, and, where it fails, to INTERNAL_FAULT from there. -/
theorem State.moveBits_moved (n : Nat) (s u : State) (c : BitVec 3) :
    (s.moveBits c n = .ok u → Moved c s u) ∧
      (s.moveBits c n = .error u → ∃ v, Moved c s v ∧ u = v.internalFault) := by
  induction n generalizing s with
  | zero => exact ⟨fun h => by cases h; exact .none _, fun h => by cases h⟩
  | succ n ih =>
    simp only [State.moveBits]
    cases hm : s.moveBit c with
    | error e =>
      obtain ⟨-, rfl⟩ := State.moveBit_error _ _ _ hm
      exact ⟨fun h => (by cases h), fun h => ⟨s, .none s, by cases h; rfl⟩⟩
    | ok p =>
      obtain ⟨v, b⟩ := p
      obtain ⟨hbit, hroom, rfl, rfl⟩ := State.moveBit_ok _ _ _ _ hm
      obtain ⟨hok, herror⟩ := ih (s.afterMove c)
      refine ⟨fun h => .bit s u hbit hroom (hok h), fun h => ?_⟩
      obtain ⟨w, hw, hu⟩ := herror h
      exact ⟨w, .bit s w hbit hroom hw, hu⟩

/-- The loops end in a label and an index, and the tag loop may set ALEN to INF. -/
theorem State.splLoop_goto (s : State) (k : Word) : ∃ l j, s.splLoop k = s.goto l j := by
  unfold State.splLoop
  split <;> exact ⟨_, _, rfl⟩

theorem State.bitLoop_goto (s : State) (n : Word) : ∃ l j, s.bitLoop n = s.goto l j := by
  unfold State.bitLoop
  split <;> exact ⟨_, _, rfl⟩

theorem State.nextAttempt_goto (s : State) : ∃ h l j, s.nextAttempt = { s with seq := { s.seq with hcur := h, uop := l, idx := j } } := by
  unfold State.nextAttempt
  split <;> exact ⟨_, _, _, rfl⟩

theorem State.tagLoop_goto (s : State) (t : Word) :
    ∃ l j a, (a = s.alen ∨ a = .inf) ∧ s.tagLoop t = { s.goto l j with alen := a } := by
  rcases s.tagLoop_cases t with ⟨-, h⟩ | ⟨-, -, h⟩ | ⟨-, -, h⟩
  · exact ⟨Label.ilLen, 0, s.alen, .inl rfl, h⟩
  · exact ⟨Label.ilTag, t, s.alen, .inl rfl, h⟩
  · exact ⟨Label.orcSelect, 0, .inf, .inr rfl, h⟩

/-- Everything a micro-operation can do to a state, the sequencer's next label and index left open where a loop gives them. -/
inductive Effect (s : State) : Instr → State → Prop where
  | fault (i : Instr) : Effect s i s.internalFault
  | splInit (l j) : Effect s .splInit (s.splStart.goto l j)
  | splByte (k : Word) (p : BitVec 3) (l j) (hroom : (s.plane p).wpos.toNat + 8 ≤ 8 * s.cfg.planeCap) :
      Effect s (.splByte k) ((({ s with splitSel := p } : State).setPlane p
        ((s.plane p).appendAll (byteBits (Memory.read s.inMem k.toNat)))).goto l j)
  | splBits (k : Word) (l j) (hroom : ∀ p, (s.plane p).wpos.toNat + 1 ≤ 8 * s.cfg.planeCap) :
      Effect s (.splBits k) (({ s with
        planes := vec8 fun p =>
          (s.plane p).append ((Memory.read s.inMem k.toNat).extractLsb' p.toNat 1) } : State).goto l j)
  | cmInit : Effect s .cmInit (s.cmStart.goto Label.pemInit 0)
  | cmBit (n : Word) (p : BitVec 3) (ctx : BitVec 5) : Effect s (.cmBit n) (s.afterCmBit n p ctx)
  | pemInit : Effect s .pemInit
      (({ s with slots := Vector.replicate 32 { state := 0, mps := 0 } } : State).goto Label.gceInit 0)
  | pemPredict (ctx : BitVec 5) : Effect s (.pemPredict ctx) { s with wires := { s.wires with bit := s.predict ctx } }
  | pemStep (bit : Bit) (ctx : BitVec 5) (l j) (h : (s.slot ctx).state.toNat < 33)
      (hroom : s.gceRoom (s.cfg.st[(s.slot ctx).state.toNat]).runClass (s.symbolFor bit ctx) = true) :
      Effect s (.pemStep bit ctx) ((s.afterPemStep bit ctx s.cfg.st[(s.slot ctx).state.toNat]).goto l j)
  | gceInit (l j) : Effect s .gceInit (s.gceStart.goto l j)
  | gcePutbit (c : BitVec 3) (sym : Bit) (hroom : s.gceRoom c sym = true) :
      Effect s (.gcePutbit c sym) (s.afterPutBit c sym)
  | gceFinish (hroom : ∀ c, s.count c ≠ 0 → (s.chan c).wpos.toNat + 1 ≤ s.cfg.chanCap) :
      Effect s .gceFinish (s.afterFinish.goto Label.ilInit 0)
  | ilInit (l j a) (ha : a = s.alen ∨ a = .inf) : Effect s .ilInit { s.ilStart.goto l j with alen := a }
  | ilTag (t : Word) (c : BitVec 3) (u : State) (hu : Moved c s u) (l j a) (ha : a = u.alen ∨ a = .inf) :
      Effect s (.ilTag t) { u.goto l j with alen := a }
  | ilTagFault (t : Word) (c : BitVec 3) (u : State) (hu : Moved c s u) : Effect s (.ilTag t) u.internalFault
  | ilMovebit (c : BitVec 3) (hbit : (s.chan c).rpos < (s.chan c).wpos)
      (hroom : s.opos.toNat / 8 ≤ s.cfg.outCap.toNat) :
      Effect s (.ilMovebit c) { s.afterMove c with wires := { s.wires with bit := (s.chan c).peek } }
  | ilLen : Effect s .ilLen
      (({ s with alen := limitLen s.outLimit (byteLen s.opos) } : State).goto Label.orcSelect 0)
  | orcBegin (h : BitVec 4) : Effect s (.orcBegin h)
      { s with hdr := h, seq := { s.seq with hcur := h, uop := Label.splInit, idx := 0 } }
  | orcSelect (hroom : s.keeps = true → s.bestRoom = true) (h : BitVec 4) (l j) :
      Effect s .orcSelect { s.afterSelect with seq := { s.seq with hcur := h, uop := l, idx := j } }
  | orcDone (n : Word) (hn : s.bestLen = .bytes n) : Effect s .orcDone (s.afterDone n)
  | orcFail (e : CommandError) (hn : s.bestLen = .inf) (he : e = .internalFault ∨ e = .bufferTooSmallOut) :
      Effect s .orcDone (s.failCommand e)

/-- The micro-operations, as against the host's three commands. -/
def Instr.isUop : Instr → Bool
  | .compress => false
  | .encode _ => false
  | .clear => false
  | _ => true

/-- A micro-operation has one of the listed effects. -/
theorem exec_effect (i : Instr) (s t : State) (hi : Instr.isUop i = true) (h : exec i s = .next t) : Effect s i t := by
  cases i with
  | compress => cases hi
  | encode _ => cases hi
  | clear => cases hi
  | splInit =>
    rw [exec_splInit] at h
    cases h
    obtain ⟨l, j, hl⟩ := s.splStart.splLoop_goto 0
    rw [hl]
    exact .splInit l j
  | splByte k =>
    by_cases hroom : k < s.cfg.inCap ∧ (s.plane (nextSel s.pm s.splitSel k)).wpos.toNat + 8 ≤ 8 * s.cfg.planeCap
    · rw [exec_splByte_of_room s k hroom.1 hroom.2] at h
      cases h
      obtain ⟨l, j, hl⟩ := State.splLoop_goto _ (k + 1)
      rw [hl]
      exact .splByte k _ l j hroom.2
    · rw [exec_splByte_of_noRoom s k hroom] at h
      cases h
      exact .fault _
  | splBits k =>
    by_cases hroom : k < s.cfg.inCap ∧ ∀ p, (s.plane p).wpos.toNat + 1 ≤ 8 * s.cfg.planeCap
    · rw [exec_splBits_of_room s k hroom.1 hroom.2] at h
      cases h
      obtain ⟨l, j, hl⟩ := State.splLoop_goto _ (k + 1)
      rw [hl]
      exact .splBits k l j hroom.2
    · rw [exec_splBits_of_noRoom s k hroom] at h
      cases h
      exact .fault _
  | cmInit => cases h; exact .cmInit
  | cmBit n => cases h; exact .cmBit n _ _
  | pemInit => cases h; exact .pemInit
  | pemPredict ctx => cases h; exact .pemPredict ctx
  | pemStep bit ctx =>
    rcases exec_pemStep_cases s bit ctx with hfault | ⟨hstate, hroom, hnext⟩
    · rw [hfault] at h
      cases h
      exact .fault _
    · rw [hnext] at h
      cases h
      obtain ⟨l, j, hl⟩ := State.bitLoop_goto (s.afterPemStep bit ctx s.cfg.st[(s.slot ctx).state.toNat]) (s.seq.idx + 1)
      rw [hl]
      exact .pemStep bit ctx l j hstate hroom
  | gceInit =>
    rw [exec_gceInit] at h
    cases h
    obtain ⟨l, j, hl⟩ := s.gceStart.bitLoop_goto 0
    rw [hl]
    exact .gceInit l j
  | gcePutbit c sym =>
    cases hroom : s.gceRoom c sym with
    | true =>
      rw [exec_gcePutbit_of_room s c sym hroom] at h
      cases h
      exact .gcePutbit c sym hroom
    | false =>
      rw [exec_gcePutbit_of_noRoom s c sym hroom] at h
      cases h
      exact .fault _
  | gceFinish =>
    by_cases hroom : ∀ c, s.count c ≠ 0 → (s.chan c).wpos.toNat + 1 ≤ s.cfg.chanCap
    · rw [exec_gceFinish_of_room s hroom] at h
      cases h
      exact .gceFinish hroom
    · rw [exec_gceFinish_of_noRoom s hroom] at h
      cases h
      exact .fault _
  | ilInit =>
    rw [exec_ilInit] at h
    cases h
    obtain ⟨l, j, a, ha, hl⟩ := s.ilStart.tagLoop_goto 0
    rw [hl]
    exact .ilInit l j a ha
  | ilTag k =>
    cases htag : s.tags[k.toNat]? with
    | none =>
      change execIlTag k s = _ at h
      simp only [execIlTag, State.moveTag, htag] at h
      cases h
      exact .fault _
    | some c =>
      obtain herror | ⟨u, hok, rfl⟩ := exec_ilTag_cases s t k h
      · rw [State.moveTag_eq_moveBits s k c htag] at herror
        obtain ⟨v, hv, rfl⟩ := (State.moveBits_moved _ s t c).2 herror
        exact .ilTagFault k c v hv
      · rw [State.moveTag_eq_moveBits s k c htag] at hok
        obtain ⟨l, j, a, ha, hl⟩ := u.tagLoop_goto (k + 1)
        rw [hl]
        exact .ilTag k c u ((State.moveBits_moved _ s u c).1 hok) l j a ha
  | ilMovebit c =>
    by_cases hroom : (s.chan c).rpos < (s.chan c).wpos ∧ s.opos.toNat / 8 ≤ s.cfg.outCap.toNat
    · rw [exec_ilMovebit_of_lt s c hroom.1 hroom.2] at h
      cases h
      exact .ilMovebit c hroom.1 hroom.2
    · rw [exec_ilMovebit_of_none s c (by rwa [not_and_or, BitVec.not_lt, Nat.not_le] at hroom)] at h
      cases h
      exact .fault _
  | ilLen => cases h; exact .ilLen
  | orcBegin hdr => cases h; exact .orcBegin hdr
  | orcSelect =>
    by_cases hroom : s.keeps = true → s.bestRoom = true
    · rw [exec_orcSelect_of_room s hroom] at h
      cases h
      obtain ⟨hdr, l, j, hl⟩ := s.afterSelect.nextAttempt_goto
      rw [hl]
      exact .orcSelect hroom hdr l j
    · rw [exec_orcSelect_of_noRoom s (by by_contra hk; exact hroom fun h => absurd h hk)
        (by by_contra hb; exact hroom fun _ => by simpa using hb)] at h
      cases h
      exact .fault _
  | orcDone =>
    cases hbest : s.bestLen with
    | bytes n =>
      rw [exec_orcDone_of_bytes s n hbest] at h
      cases h
      exact .orcDone n hbest
    | inf =>
      rw [exec_orcDone_of_inf s hbest] at h
      cases h
      refine .orcFail _ hbest ?_
      cases s.faulted
      · exact .inr rfl
      · exact .inl rfl

/-- A label decodes to a micro-operation only. -/
theorem isUop_of_decodeUop (l : BitVec 8) (ops : UopOperands) (i : Instr) (h : decodeUop l ops = .ok i) :
    Instr.isUop i = true := by
  obtain ⟨ops', henc, -⟩ := encode_of_decodeUop l ops i h
  cases i with
  | compress => cases henc
  | encode _ => cases henc
  | clear => cases henc
  | _ => rfl

/-- A turn of a running engine has the effect of the micro-operation its label decodes to, or is INTERNAL_FAULT. -/
theorem engineTurn_effect (s t : State) (hp : s.seq.phase = .run) (h : s.engineTurn = .next t) :
    t = s.internalFault ∨ ∃ i, decodeUop s.seq.uop s.operands = .ok i ∧ Effect s i t := by
  rcases s.engineTurn_cases t h with ⟨hidle, -⟩ | ⟨-, -, rfl⟩ | ⟨i, -, hf, hx⟩
  · rw [hp] at hidle
    cases hidle
  · exact .inl rfl
  · obtain ⟨hd, -⟩ := s.fetch_some i hf
    exact .inr ⟨i, hd, exec_effect i s t (isUop_of_decodeUop _ _ _ hd) hx⟩

end Sys2Proof.Machine
end

section
/-! What every step keeps: the status bits, the memories' canonical form and sizes, the slots and counters, and which step alone can write OUT, change HDR, clear OVR or end a command (10_state.md R23, R33, R51, 20_memory.md R60, R61, 60_exceptions.md R193, R204). -/

namespace Sys2Proof.Machine

/-! ### Frames of the micro-operations -/

/-- From `s` to `t` only the data path and the sequencer's place in the attempt move. -/
def DataPath (s t : State) : Prop :=
  t = { s with
    seq := { s.seq with uop := t.seq.uop, idx := t.seq.idx }
    splitSel := t.splitSel, planes := t.planes, modelSel := t.modelSel, nbit := t.nbit, hist := t.hist
    slots := t.slots, runcnt := t.runcnt, chans := t.chans, tags := t.tags, att := t.att, opos := t.opos
    alen := t.alen, faulted := t.faulted, wires := t.wires }

/-- Moving bits touches the channels, the output and its position. -/
theorem Moved.frame {c : BitVec 3} {s u : State} (h : Moved c s u) :
    ∃ chans att opos, u = { s with chans := chans, att := att, opos := opos } := by
  induction h with
  | none s => exact ⟨s.chans, s.att, s.opos, rfl⟩
  | bit s u _ _ _ ih =>
    obtain ⟨chans, att, opos, rfl⟩ := ih
    exact ⟨chans, att, opos, rfl⟩

/-- A micro-operation moves only the data path, but for the Orchestrator's three. -/
theorem Effect.kinds {s t : State} {i : Instr} (h : Effect s i t) :
    DataPath s t ∨
    (∃ hdr, i = .orcBegin hdr ∧
      t = { s with hdr := hdr, seq := { s.seq with hcur := hdr, uop := Label.splInit, idx := 0 } }) ∨
    (i = .orcSelect ∧ (s.keeps = true → s.bestRoom = true) ∧
      ∃ hdr l j, t = { s.afterSelect with seq := { s.seq with hcur := hdr, uop := l, idx := j } }) ∨
    (i = .orcDone ∧ ((∃ n, s.bestLen = .bytes n ∧ t = s.afterDone n) ∨
      s.bestLen = .inf ∧ ∃ e, (e = .internalFault ∨ e = .bufferTooSmallOut) ∧ t = s.failCommand e)) := by
  cases h with
  | orcBegin hdr => exact .inr (.inl ⟨hdr, rfl, rfl⟩)
  | orcSelect hroom hdr l j => exact .inr (.inr (.inl ⟨rfl, hroom, hdr, l, j, rfl⟩))
  | orcDone n hn => exact .inr (.inr (.inr ⟨rfl, .inl ⟨n, hn, rfl⟩⟩))
  | orcFail e hn he => exact .inr (.inr (.inr ⟨rfl, .inr ⟨hn, e, he, rfl⟩⟩))
  | ilTag k c u hu l j a _ =>
    obtain ⟨chans, att, opos, rfl⟩ := hu.frame
    exact .inl rfl
  | ilTagFault k c u hu =>
    obtain ⟨chans, att, opos, rfl⟩ := hu.frame
    exact .inl rfl
  | _ => exact .inl rfl

/-- Every way a step can answer a next state, with a turn of the engine by its effect: the data path alone, or one of the
Orchestrator's three micro-operations at its label. `moves` are the host's moves left. -/
theorem step_effects (s t : State) (h : step s = .next t) :
    (∃ rest, s.hostMakes .reset rest ∧ t = ({ s with host := rest } : State).deviceReset) ∨
    (∃ w rest, s.hostMakes (.regWrite .w32 0 w) rest ∧ s.status.busy = false ∧ CommandEffect w { s with host := rest } t) ∨
    Quiet s t ∨
    ∃ moves, s.seq.phase = .run ∧
      (DataPath { s with host := moves } t ∨
      (s.seq.uop = Label.orcBegin ∧ t = { s with
        host := moves, hdr := s.seq.hcur, seq := { s.seq with uop := Label.splInit, idx := 0 } }) ∨
      (s.seq.uop = Label.orcSelect ∧ (s.keeps = true → s.bestRoom = true) ∧ ∃ hdr l j, t = { s.afterSelect with
        host := moves, seq := { s.seq with hcur := hdr, uop := l, idx := j } }) ∨
      (s.seq.uop = Label.orcDone ∧ ((∃ n, s.bestLen = .bytes n ∧ t = { s.afterDone n with host := moves }) ∨
        s.bestLen = .inf ∧ ∃ e, (e = .internalFault ∨ e = .bufferTooSmallOut) ∧
          t = { s.failCommand e with host := moves }))) := by
  rcases step_kinds s t h with hreset | hcommand | hquiet | ⟨moves, hp, hturn⟩
  · exact .inl hreset
  · exact .inr (.inl hcommand)
  · exact .inr (.inr (.inl hquiet))
  · refine .inr (.inr (.inr ⟨moves, hp, ?_⟩))
    rcases engineTurn_effect { s with host := moves } t hp hturn with rfl | ⟨i, hd, heffect⟩
    · exact .inl rfl
    · have hlabel := decodeUop_cases _ _ i hd
      rcases heffect.kinds with hdata | ⟨hdr, rfl, rfl⟩ | ⟨rfl, hroom, hdr, l, j, rfl⟩ | ⟨rfl, hdone⟩
      · exact .inl hdata
      · simp only [reduceCtorEq, and_false, false_or, or_false, Instr.orcBegin.injEq] at hlabel
        obtain ⟨hl, rfl⟩ := hlabel
        exact .inr (.inl ⟨hl, rfl⟩)
      · simp only [reduceCtorEq, and_false, false_or, or_false, and_true] at hlabel
        exact .inr (.inr (.inl ⟨hlabel, hroom, hdr, l, j, rfl⟩))
      · simp only [reduceCtorEq, and_false, false_or, and_true] at hlabel
        exact .inr (.inr (.inr ⟨hlabel, hdone⟩))

/-! ### OVR, BUSY, HDR, IN and OUT -/

/-- Acceptance, of an input that fits or not, keeps OVR (60_exceptions.md R204). -/
theorem State.accept_ovr (s : State) (kind : CmdKind) (h : BitVec 4) : (s.accept kind h).status.ovr = s.status.ovr := by
  unfold State.accept
  split <;> rfl

/-- Settles O13: of all a step can do, only the device reset and CLEAR while idle write OVR to 0. -/
theorem overrunIsSticky : Obligations.OverrunIsSticky := by
  intro s t hstep hovr
  rcases step_effects s t hstep with ⟨rest, hm, -⟩ | ⟨w, rest, hm, hidle, hcmd⟩ | hquiet | ⟨moves, -, hengine⟩
  · exact .inr (.inl ⟨rest, hm⟩)
  · rcases hcmd with ⟨kind, h, rfl⟩ | ⟨rfl, -⟩ | rfl
    · exact .inl ((State.accept_ovr _ kind h).trans hovr)
    · exact .inr (.inr ⟨rest, hm, hidle⟩)
    · exact .inl hovr
  · exact .inl (hquiet.ovr hovr)
  · left
    rcases hengine with hdata | ⟨-, rfl⟩ | ⟨-, -, hdr, l, j, rfl⟩ | ⟨-, ⟨n, -, rfl⟩ | ⟨-, e, -, rfl⟩⟩
    · rw [hdata]
      exact hovr
    · exact hovr
    · exact hovr
    · exact hovr
    · exact hovr

/-- Settles O14: a running command's BUSY is kept by all but the device reset and ORC_DONE. -/
theorem onlyCompletionOrResetEndsACommand : Obligations.OnlyCompletionOrResetEndsACommand := by
  intro s t hstep hbusy hidle
  rcases step_effects s t hstep with ⟨rest, hm, -⟩ | ⟨w, rest, -, hnot, -⟩ | hquiet | ⟨moves, hp, hengine⟩
  · exact .inl ⟨rest, hm⟩
  · rw [hbusy] at hnot
    cases hnot
  · rw [hquiet.frame] at hidle
    exact absurd (hbusy.symm.trans hidle) (by decide)
  · rcases hengine with hdata | ⟨-, rfl⟩ | ⟨-, -, hdr, l, j, rfl⟩ | ⟨hl, ⟨n, -, rfl⟩ | ⟨-, e, -, rfl⟩⟩
    · rw [hdata] at hidle
      exact absurd (hbusy.symm.trans hidle) (by decide)
    · exact absurd (hbusy.symm.trans hidle) (by decide)
    · exact absurd (hbusy.symm.trans hidle) (by decide)
    · exact .inr ⟨hp, hl, rfl, rfl⟩
    · exact .inr ⟨hp, hl, rfl, rfl⟩

/-- Acceptance leaves HDR, IN and OUT alone. -/
theorem State.accept_frame (s : State) (kind : CmdKind) (h : BitVec 4) :
    (s.accept kind h).hdr = s.hdr ∧ (s.accept kind h).inMem = s.inMem ∧ (s.accept kind h).outMem = s.outMem := by
  unfold State.accept
  split <;> exact ⟨rfl, rfl, rfl⟩

/-- Settles O53: of all a step can do, only the device reset and ORC_BEGIN write HDR. -/
theorem headerChangesOnlyAtOrcBegin : Obligations.HeaderChangesOnlyAtOrcBegin := by
  intro s t hstep hne
  rcases step_effects s t hstep with ⟨rest, hm, -⟩ | ⟨w, rest, -, -, hcmd⟩ | hquiet | ⟨moves, hp, hengine⟩
  · exact .inr ⟨rest, hm⟩
  · rcases hcmd with ⟨kind, h, rfl⟩ | ⟨-, rfl⟩ | rfl
    · exact absurd (State.accept_frame _ kind h).1 hne
    · exact absurd rfl hne
    · exact absurd rfl hne
  · rw [hquiet.frame] at hne
    exact absurd rfl hne
  · rcases hengine with hdata | ⟨hl, rfl⟩ | ⟨-, -, hdr, l, j, rfl⟩ | ⟨-, ⟨n, -, rfl⟩ | ⟨-, e, -, rfl⟩⟩
    · rw [hdata] at hne
      exact absurd rfl hne
    · exact .inl ⟨hp, hl, rfl⟩
    · exact absurd rfl hne
    · exact absurd rfl hne
    · exact absurd rfl hne

/-- Settles O52: IN is written by its host move, OUT by ORC_DONE, and both by the device reset. -/
theorem onlyCompletionWritesOut : Obligations.OnlyCompletionWritesOut := by
  intro s t hstep
  rcases step_effects s t hstep with ⟨rest, hm, -⟩ | ⟨w, rest, -, -, hcmd⟩ | hquiet | ⟨moves, hp, hengine⟩
  · exact ⟨.inr (.inl ⟨rest, hm⟩), .inr (.inl ⟨rest, hm⟩)⟩
  · rcases hcmd with ⟨kind, h, rfl⟩ | ⟨-, rfl⟩ | rfl
    · exact ⟨.inl (State.accept_frame _ kind h).2.1, .inl (State.accept_frame _ kind h).2.2⟩
    · exact ⟨.inl rfl, .inl rfl⟩
    · exact ⟨.inl rfl, .inl rfl⟩
  · refine ⟨?_, .inl (by rw [hquiet.frame])⟩
    rcases hquiet.input with hin | ⟨k, v, rest, hm, -⟩
    · exact .inl hin
    · exact .inr (.inr ⟨k, v, rest, hm⟩)
  · rcases hengine with hdata | ⟨-, rfl⟩ | ⟨-, -, hdr, l, j, rfl⟩ | ⟨hl, ⟨n, hn, rfl⟩ | ⟨-, e, -, rfl⟩⟩
    · rw [hdata]
      exact ⟨.inl rfl, .inl rfl⟩
    · exact ⟨.inl rfl, .inl rfl⟩
    · exact ⟨.inl rfl, .inl rfl⟩
    · exact ⟨.inl rfl, .inr (.inr ⟨n, hp, hl, hn, rfl, fun hwf k => Memory.read_copy _ _ _ hwf k⟩)⟩
    · exact ⟨.inl rfl, .inl rfl⟩

/-! ### The status bits -/

/-- Every error has a code in 1..4 (60_exceptions.md R186). -/
theorem errorCode_range (e : CommandError) : 1 ≤ (errorCode e).toNat ∧ (errorCode e).toNat ≤ 4 := by
  cases e <;> decide

/-- Acceptance leaves the status bits lawful, whether the input fits or not. -/
theorem State.accept_statusLawful (s : State) (kind : CmdKind) (h : BitVec 4) : (s.accept kind h).statusLawful := by
  unfold State.accept
  split
  · exact ⟨by simp [statusFailed], fun h => (by cases h),
      fun _ => ⟨rfl, rfl, rfl, errorCode_range .bufferTooSmallIn⟩, fun h => (by cases h)⟩
  · exact ⟨by simp [State.snapshot, statusAccepted], fun _ => ⟨rfl, rfl⟩, fun h => (by cases h), fun _ => rfl⟩

/-- A step keeps the status bits in agreement with each other, the sequencer and the result registers (10_state.md R23). -/
theorem step_keeps_statusLawful (s t : State) (hs : s.statusLawful) (hstep : step s = .next t) : t.statusLawful := by
  rcases step_effects s t hstep with ⟨rest, -, rfl⟩ | ⟨w, rest, -, hidle, hcmd⟩ | hquiet | ⟨moves, hp, hengine⟩
  · exact State.reset_statusLawful
  · rcases hcmd with ⟨kind, h, rfl⟩ | ⟨-, rfl⟩ | rfl
    · exact State.accept_statusLawful _ kind h
    · exact ⟨hs.1, fun _ => ⟨rfl, rfl⟩, fun h => (by cases h), fun _ => rfl⟩
    · exact ⟨hs.1, fun h => absurd (hidle.symm.trans h) (by decide),
        fun _ => ⟨rfl, rfl, rfl, errorCode_range .illegalCommand⟩, fun h => (by cases h)⟩
  · rw [hquiet.frame]
    exact hs
  · obtain ⟨hbusy, hexcl, herr, hcode⟩ := hs
    rcases hengine with hdata | ⟨-, rfl⟩ | ⟨-, -, hdr, l, j, rfl⟩ | ⟨-, ⟨n, -, rfl⟩ | ⟨-, e, -, rfl⟩⟩
    · rw [hdata]
      exact ⟨hbusy, hexcl, herr, hcode⟩
    · exact ⟨hbusy, hexcl, herr, hcode⟩
    · exact ⟨hbusy, hexcl, herr, hcode⟩
    · obtain ⟨-, hnoerr⟩ := hexcl (hbusy.mpr hp)
      exact ⟨by simp [State.afterDone, statusCompleted], fun h => (by cases h),
        fun h => absurd (hnoerr.symm.trans h) (by decide), fun _ => hcode hnoerr⟩
    · exact ⟨by simp [statusFailed], fun h => (by cases h), fun _ => ⟨rfl, rfl, rfl, errorCode_range e⟩,
        fun h => (by cases h)⟩

/-! ### Laws of the memories -/

/-- A condition on each memory of the block, and on the lengths OUT is written by. -/
structure MemoryLaw where
  input : Memory → Prop
  output : Memory → Prop
  att : Memory → Prop
  best : Memory → Prop
  plane : Memory → Prop
  chan : Memory → Prop
  length : Word → Prop

/-- Every memory of the block meets its condition. -/
def State.obeys (s : State) (M : MemoryLaw) : Prop :=
  M.input s.inMem ∧ M.output s.outMem ∧ M.att s.att ∧ M.best s.best ∧
    (∀ p, M.plane (s.plane p).mem) ∧ ∀ c, M.chan (s.chan c).mem

/-- The writes the block makes keep the conditions: each with the room the block checks. -/
structure MemoryLaw.Kept (M : MemoryLaw) (cfg : Config) : Prop where
  nil : M.input [] ∧ M.output [] ∧ M.att [] ∧ M.best [] ∧ M.plane [] ∧ M.chan []
  input_write (m : Memory) (k : Nat) (v : Byte) : M.input m → k < cfg.inCap.toNat → M.input (Memory.write m k v)
  output_copy (src m : Memory) (n : Word) : M.output m → M.length n → M.output (Memory.copy src n.toNat m)
  best_copy (src m : Memory) (n : Word) : M.best m → n ≤ cfg.outCap → M.best (Memory.copy src n.toNat m)
  att_header (v : Byte) : M.att (Memory.write [] 0 v)
  att_bit (m : Memory) (pos : Nat) (v : Bit) : M.att m → pos / 8 ≤ cfg.outCap.toNat → M.att (Memory.bitWrite m pos v)
  plane_append (b : BitBuf) (vs : List Bit) : M.plane b.mem → b.wpos.toNat + vs.length ≤ 8 * cfg.planeCap →
    M.plane (b.appendAll vs).mem
  chan_append (b : BitBuf) (vs : List Bit) : M.chan b.mem → b.wpos.toNat + vs.length ≤ cfg.chanCap →
    M.chan (b.appendAll vs).mem

/-- With room for a symbol, the channel emits nothing or has room for what it emits (44_golomb_encoder.md R148). -/
theorem State.chanRoom_of_gceRoom (s : State) (c : BitVec 3) (sym : Bit) (h : s.gceRoom c sym = true) :
    emitted c sym (s.count c) = [] ∨
      (s.chan c).wpos.toNat + (emitted c sym (s.count c)).length ≤ s.cfg.chanCap := by
  simp only [State.gceRoom, Bool.and_eq_true, Bool.or_eq_true, List.isEmpty_iff, decide_eq_true_eq] at h
  exact h.2

/-- A symbol's bits keep the channels' condition. -/
theorem State.afterPutBit_chan_obeys (s : State) (M : MemoryLaw) (hM : M.Kept s.cfg) (c : BitVec 3) (sym : Bit)
    (hroom : s.gceRoom c sym = true) (hchans : ∀ d, M.chan (s.chan d).mem) (d : BitVec 3) :
    M.chan ((s.afterPutBit c sym).chan d).mem := by
  by_cases hd : d = c
  · subst hd
    rw [State.afterPutBit_chan_same]
    rcases s.chanRoom_of_gceRoom d sym hroom with hnone | hfits
    · rw [hnone]
      exact hchans d
    · exact hM.chan_append _ _ (hchans d) hfits
  · rw [State.afterPutBit_chan_other s c sym d hd]
    exact hchans d

/-- Moved bits keep the conditions. -/
theorem Moved.obeys {c : BitVec 3} {s u : State} (h : Moved c s u) (M : MemoryLaw) (hM : M.Kept s.cfg)
    (hs : s.obeys M) : u.obeys M := by
  induction h with
  | none s => exact hs
  | bit s u _ hroom _ ih =>
    obtain ⟨hin, hout, hatt, hbest, hplanes, hchans⟩ := hs
    refine ih hM ⟨hin, hout, hM.att_bit _ _ _ hatt hroom, hbest, hplanes, fun d => ?_⟩
    rw [State.afterMove_chan]
    split
    · exact hchans c
    · exact hchans d

/-- Every micro-operation keeps the conditions. -/
theorem Effect.obeys {s t : State} {i : Instr} (h : Effect s i t) (M : MemoryLaw) (hM : M.Kept s.cfg)
    (hlen : ∀ n, s.bestLen = .bytes n → M.length n) (hs : s.obeys M) : t.obeys M := by
  obtain ⟨hin, hout, hatt, hbest, hplanes, hchans⟩ := hs
  have hnil := hM.nil.2.2.2.2
  cases h with
  | fault => exact ⟨hin, hout, hatt, hbest, hplanes, hchans⟩
  | splInit l j =>
    refine ⟨hin, hout, hatt, hbest, fun p => ?_, hchans⟩
    rw [State.goto_plane, State.splStart_plane]
    exact hnil.1
  | splByte k p l j hroom =>
    refine ⟨hin, hout, hatt, hbest, fun q => ?_, hchans⟩
    rw [State.goto_plane, State.plane_setPlane]
    split
    · exact hM.plane_append _ _ (hplanes p) hroom
    · exact hplanes q
  | splBits k l j hroom =>
    refine ⟨hin, hout, hatt, hbest, fun q => ?_, hchans⟩
    rw [State.goto_plane, State.plane_with_vec8]
    exact hM.plane_append (s.plane q) [_] (hplanes q) (hroom q)
  | cmInit =>
    refine ⟨hin, hout, hatt, hbest, fun q => ?_, hchans⟩
    rw [State.goto_plane, State.cmStart_plane]
    exact hplanes q
  | cmBit n p ctx =>
    refine ⟨hin, hout, hatt, hbest, fun q => ?_, hchans⟩
    by_cases hq : q = p
    · subst hq
      rw [State.afterCmBit_plane_same, BitBuf.afterReplay]
      split <;> exact hplanes q
    · rw [State.afterCmBit_plane_other _ _ _ _ q hq]
      exact hplanes q
  | pemInit => exact ⟨hin, hout, hatt, hbest, hplanes, hchans⟩
  | pemPredict ctx => exact ⟨hin, hout, hatt, hbest, hplanes, hchans⟩
  | pemStep bit ctx l j _ hroom =>
    exact ⟨hin, hout, hatt, hbest, hplanes, s.afterPutBit_chan_obeys M hM _ _ hroom hchans⟩
  | gceInit l j =>
    refine ⟨hin, hout, hatt, hbest, hplanes, fun c => ?_⟩
    rw [State.goto_chan, State.gceStart_chan]
    exact hnil.2
  | gcePutbit c sym hroom =>
    exact ⟨hin, hout, hatt, hbest, hplanes, s.afterPutBit_chan_obeys M hM c sym hroom hchans⟩
  | gceFinish hroom =>
    refine ⟨hin, hout, hatt, hbest, hplanes, fun c => ?_⟩
    rw [State.goto_chan, State.afterFinish_chan]
    split
    · exact hchans c
    next hc => exact hM.chan_append (s.chan c) [0] (hchans c) (hroom c hc)
  | ilInit l j a _ =>
    refine ⟨hin, hout, hM.att_header _, hbest, hplanes, fun c => ?_⟩
    change M.chan (s.ilStart.chan c).mem
    rw [State.ilStart_chan]
    exact hchans c
  | ilTag k c u hu l j a _ => exact hu.obeys M hM ⟨hin, hout, hatt, hbest, hplanes, hchans⟩
  | ilTagFault k c u hu => exact hu.obeys M hM ⟨hin, hout, hatt, hbest, hplanes, hchans⟩
  | ilMovebit c hbit hroom =>
    exact (Moved.bit s _ hbit hroom (.none _)).obeys M hM ⟨hin, hout, hatt, hbest, hplanes, hchans⟩
  | ilLen => exact ⟨hin, hout, hatt, hbest, hplanes, hchans⟩
  | orcBegin hdr => exact ⟨hin, hout, hatt, hbest, hplanes, hchans⟩
  | orcSelect hroom hdr l j =>
    refine ⟨hin, hout, hatt, ?_, hplanes, hchans⟩
    change M.best (if s.keeps then s.keptBest else s.best)
    split
    next hk =>
      have hfits := s.bestRoom_iff.mp (hroom hk)
      cases ha : s.alen with
      | inf =>
        rw [s.keptBest_inf ha]
        exact hbest
      | bytes n =>
        simp only [State.keptBest, ha]
        exact hM.best_copy _ _ _ hbest (hfits n ha)
    next => exact hbest
  | orcDone n hn => exact ⟨hin, hM.output_copy _ _ _ hout (hlen n hn), hatt, hbest, hplanes, hchans⟩
  | orcFail e _ _ => exact ⟨hin, hout, hatt, hbest, hplanes, hchans⟩

/-- The state after the device reset meets every condition that an empty memory meets. -/
theorem State.deviceReset_obeys (s : State) (M : MemoryLaw) (cfg : Config) (hM : M.Kept cfg) : s.deviceReset.obeys M := by
  obtain ⟨hin, hout, hatt, hbest, hplane, hchan⟩ := hM.nil
  have hp (p : BitVec 3) : s.deviceReset.plane p = BitBuf.empty := Vector.getElem_replicate _
  have hc (c : BitVec 3) : s.deviceReset.chan c = BitBuf.empty := Vector.getElem_replicate _
  exact ⟨hin, hout, hatt, hbest, fun p => by rw [hp]; exact hplane, fun c => by rw [hc]; exact hchan⟩

/-- Acceptance leaves every memory alone. -/
theorem State.accept_obeys (s : State) (M : MemoryLaw) (kind : CmdKind) (h : BitVec 4) (hs : s.obeys M) :
    (s.accept kind h).obeys M := by
  unfold State.accept
  split <;> exact hs

/-- A step keeps every condition that the block's writes keep. -/
theorem step_keeps_obeys (s t : State) (M : MemoryLaw) (hM : M.Kept s.cfg)
    (hlen : ∀ n, s.bestLen = .bytes n → M.length n) (hs : s.obeys M) (hstep : step s = .next t) : t.obeys M := by
  rcases step_kinds s t hstep with ⟨rest, -, rfl⟩ | ⟨w, rest, -, -, hcmd⟩ | hquiet | ⟨moves, hp, hturn⟩
  · exact State.deviceReset_obeys _ M s.cfg hM
  · rcases hcmd with ⟨kind, h, rfl⟩ | ⟨-, rfl⟩ | rfl
    · exact State.accept_obeys _ M kind h hs
    · exact hs
    · exact hs
  · obtain ⟨hin, hrest⟩ := hs
    rw [hquiet.frame]
    refine ⟨?_, hrest⟩
    change M.input t.inMem
    rcases hquiet.input with heq | ⟨k, v, -, -, hk, heq⟩
    · rw [heq]
      exact hin
    · rw [heq]
      exact hM.input_write _ _ _ hin hk
  · rcases engineTurn_effect { s with host := moves } t hp hturn with rfl | ⟨i, -, heffect⟩
    · exact hs
    · exact heffect.obeys M hM hlen hs

/-! ### Canonical memories -/

/-- The canonical form as a condition on every memory. -/
def canonicalLaw : MemoryLaw :=
  { input := Memory.wf, output := Memory.wf, att := Memory.wf, best := Memory.wf, plane := Memory.wf, chan := Memory.wf
    length := fun _ => True }

theorem canonicalLaw_kept (cfg : Config) : canonicalLaw.Kept cfg where
  nil := ⟨Memory.nil_wf, Memory.nil_wf, Memory.nil_wf, Memory.nil_wf, Memory.nil_wf, Memory.nil_wf⟩
  input_write m k v h _ := Memory.write_wf m k v h
  output_copy src m n h _ := Memory.copy_wf src n.toNat m h
  best_copy src m n h _ := Memory.copy_wf src n.toNat m h
  att_header v := Memory.write_wf [] 0 v Memory.nil_wf
  att_bit m pos v h _ := Memory.bitWrite_wf m pos v h
  plane_append b vs h _ := b.appendAll_wf vs h
  chan_append b vs h _ := b.appendAll_wf vs h

/-- A step keeps every memory in its canonical form. -/
theorem step_keeps_canonical (s t : State) (hs : s.canonical) (hstep : step s = .next t) : t.canonical :=
  step_keeps_obeys s t canonicalLaw (canonicalLaw_kept s.cfg) (fun _ _ => trivial) hs hstep

/-- Settles O48: the memories by the writes' own laws, the status bits by what a step can do to them. -/
theorem stepKeepsCanonicalAndLawful : Obligations.StepKeepsCanonicalAndLawful := fun s t hcanonical hlawful hstep =>
  ⟨step_keeps_canonical s t hcanonical hstep, step_keeps_statusLawful s t hlawful hstep⟩

/-! ### Sizes -/

/-- The sizes of the memories as a condition on each (20_memory.md R60, 10_state.md R42, R44). -/
def sizeLaw (cfg : Config) : MemoryLaw :=
  { input := fun m => ∀ c ∈ m, c.1 < cfg.inCap.toNat
    output := fun m => ∀ c ∈ m, c.1 < cfg.outCap.toNat
    att := fun m => ∀ c ∈ m, c.1 ≤ cfg.outCap.toNat
    best := fun m => ∀ c ∈ m, c.1 < cfg.outCap.toNat
    plane := fun m => ∀ c ∈ m, c.1 < cfg.planeCap
    chan := fun m => ∀ c ∈ m, 8 * c.1 < cfg.chanCap
    length := fun n => n ≤ cfg.outCap }

/-- A copy of no more bytes than the destination has stays inside it. -/
theorem mem_copy_lt (src m : Memory) (n cap : Word) (hm : ∀ c ∈ m, c.1 < cap.toNat) (hn : n ≤ cap) :
    ∀ c ∈ Memory.copy src n.toNat m, c.1 < cap.toNat := by
  intro c hc
  rcases Memory.mem_copy src _ m c hc with h | h
  · exact Nat.lt_of_lt_of_le h (BitVec.le_def.1 hn)
  · exact hm c h

theorem sizeLaw_kept (cfg : Config) : (sizeLaw cfg).Kept cfg where
  nil := ⟨by simp [sizeLaw], by simp [sizeLaw], by simp [sizeLaw], by simp [sizeLaw], by simp [sizeLaw], by simp [sizeLaw]⟩
  input_write m k v h hk c hc := by
    rcases Memory.mem_write m k v c hc with ⟨rfl, -⟩ | hc
    · exact hk
    · exact h c hc
  output_copy src m n h hn := mem_copy_lt src m n cfg.outCap h hn
  best_copy src m n h hn := mem_copy_lt src m n cfg.outCap h hn
  att_header v c hc := by
    rcases Memory.mem_write [] 0 v c hc with ⟨rfl, -⟩ | hc
    · exact Nat.zero_le _
    · cases hc
  att_bit m pos v h hroom c hc := by
    rcases Memory.mem_bitWrite m pos v c hc with hc | hc
    · rw [hc]
      exact hroom
    · exact h c hc
  plane_append b vs h hroom c hc := by
    rcases b.mem_appendAll vs (8 * cfg.planeCap) hroom c hc with hc | hc
    · exact Nat.lt_of_mul_lt_mul_left hc
    · exact h c hc
  chan_append b vs h hroom c hc := by
    rcases b.mem_appendAll vs cfg.chanCap hroom c hc with hc | hc
    · exact hc
    · exact h c hc

/-- The tags and the lengths are within their bounds. -/
def State.lengthsWithin (s : State) : Prop :=
  s.tags.length ≤ s.cfg.tagCap ∧ s.outLimit ≤ s.cfg.outCap ∧ s.outLen ≤ s.cfg.outCap ∧
    lenWithin s.alen s.cfg.outCap ∧ lenWithin s.bestLen s.cfg.outCap

/-- Being within the sizes is the sizes' law with the lengths' bounds. -/
theorem State.withinSizes_iff (s : State) : s.withinSizes ↔ s.obeys (sizeLaw s.cfg) ∧ s.lengthsWithin := by
  constructor
  · rintro ⟨hin, hout, hbest, hatt, hplanes, hchans, hlengths⟩
    exact ⟨⟨hin, hout, hatt, hbest, hplanes, hchans⟩, hlengths⟩
  · rintro ⟨⟨hin, hout, hatt, hbest, hplanes, hchans⟩, hlengths⟩
    exact ⟨hin, hout, hbest, hatt, hplanes, hchans, hlengths⟩

theorem word_zero_le (w : Word) : 0 ≤ w := BitVec.le_def.2 (Nat.zero_le _)

theorem lenWithin_inf (cap : Word) : lenWithin .inf cap := fun _ h => by cases h

/-- A length cut by the limit is within every bound the limit is within. -/
theorem lenWithin_limitLen (limit len cap : Word) (h : limit ≤ cap) : lenWithin (limitLen limit len) cap := by
  intro n hn
  obtain ⟨rfl, hle⟩ := limitLen_bytes _ _ _ hn
  exact BitVec.le_trans hle h

/-- With room for a symbol there is room for its tag. -/
theorem State.afterPutBit_tags_le (s : State) (c : BitVec 3) (sym : Bit) (hroom : s.gceRoom c sym = true)
    (h : s.tags.length ≤ s.cfg.tagCap) : (s.afterPutBit c sym).tags.length ≤ s.cfg.tagCap := by
  obtain ⟨htag, -⟩ := (s.gceRoom_iff c sym).mp hroom
  change (if s.count c = 0 then s.tags ++ [c] else s.tags).length ≤ _
  by_cases hc : s.count c = 0
  · rw [if_pos hc, List.length_append]
    exact htag hc
  · rw [if_neg hc]
    exact h

/-- Every micro-operation keeps the tags and the lengths within their bounds. -/
theorem Effect.lengthsWithin {s t : State} {i : Instr} (h : Effect s i t) (hs : s.lengthsWithin) : t.lengthsWithin := by
  obtain ⟨htags, hlimit, hout, halen, hbest⟩ := hs
  cases h with
  | fault => exact ⟨htags, hlimit, hout, lenWithin_inf _, hbest⟩
  | pemStep bit ctx l j _ hroom => exact ⟨s.afterPutBit_tags_le _ _ hroom htags, hlimit, hout, halen, hbest⟩
  | gceInit l j => exact ⟨Nat.zero_le _, hlimit, hout, halen, hbest⟩
  | gcePutbit c sym hroom => exact ⟨s.afterPutBit_tags_le c sym hroom htags, hlimit, hout, halen, hbest⟩
  | ilInit l j a ha =>
    refine ⟨htags, hlimit, hout, ?_, hbest⟩
    rcases ha with rfl | rfl
    · exact halen
    · exact lenWithin_inf _
  | ilTag k c u hu l j a ha =>
    obtain ⟨chans, att, opos, rfl⟩ := hu.frame
    refine ⟨htags, hlimit, hout, ?_, hbest⟩
    rcases ha with rfl | rfl
    · exact halen
    · exact lenWithin_inf _
  | ilTagFault k c u hu =>
    obtain ⟨chans, att, opos, rfl⟩ := hu.frame
    exact ⟨htags, hlimit, hout, lenWithin_inf _, hbest⟩
  | ilLen => exact ⟨htags, hlimit, hout, lenWithin_limitLen _ _ _ hlimit, hbest⟩
  | orcSelect hroom hdr l j =>
    refine ⟨htags, hlimit, hout, halen, ?_⟩
    change lenWithin (if s.keeps then s.alen else s.bestLen) _
    split
    · exact halen
    · exact hbest
  | orcDone n hn => exact ⟨htags, hlimit, hbest n hn, halen, hbest⟩
  | orcFail e _ _ => exact ⟨htags, hlimit, word_zero_le _, halen, hbest⟩
  | _ => exact ⟨htags, hlimit, hout, halen, hbest⟩

/-- No micro-operation changes a parameter. -/
theorem Effect.cfg {s t : State} {i : Instr} (h : Effect s i t) : t.cfg = s.cfg := by
  rcases h.kinds with hdata | ⟨hdr, -, rfl⟩ | ⟨-, -, hdr, l, j, rfl⟩ | ⟨-, ⟨n, -, rfl⟩ | ⟨-, e, -, rfl⟩⟩
  · rw [hdata]
  · rfl
  · rfl
  · rfl
  · rfl

/-- Acceptance keeps the lengths within their bounds, and the parameters. -/
theorem State.accept_lengthsWithin (s : State) (kind : CmdKind) (h : BitVec 4) (hs : s.lengthsWithin) :
    (s.accept kind h).lengthsWithin ∧ (s.accept kind h).cfg = s.cfg := by
  obtain ⟨htags, -, hout, halen, hbest⟩ := hs
  unfold State.accept
  split
  · exact ⟨⟨htags, outLimitOf_le _ _, word_zero_le _, halen, hbest⟩, rfl⟩
  · exact ⟨⟨htags, outLimitOf_le _ _, hout, halen, lenWithin_inf _⟩, rfl⟩

/-- A step keeps the tags and the lengths within their bounds, and the parameters. -/
theorem step_keeps_lengthsWithin (s t : State) (hs : s.lengthsWithin) (hstep : step s = .next t) :
    t.lengthsWithin ∧ t.cfg = s.cfg := by
  rcases step_kinds s t hstep with ⟨rest, -, rfl⟩ | ⟨w, rest, -, -, hcmd⟩ | hquiet | ⟨moves, hp, hturn⟩
  · refine ⟨⟨Nat.zero_le _, word_zero_le _, word_zero_le _, fun n hn => ?_, lenWithin_inf _⟩, rfl⟩
    cases hn
    exact word_zero_le _
  · rcases hcmd with ⟨kind, h, rfl⟩ | ⟨-, rfl⟩ | rfl
    · exact State.accept_lengthsWithin _ kind h hs
    · exact ⟨hs, rfl⟩
    · obtain ⟨htags, hlimit, -, halen, hbest⟩ := hs
      exact ⟨⟨htags, hlimit, word_zero_le _, halen, hbest⟩, rfl⟩
  · rw [hquiet.frame]
    exact ⟨hs, rfl⟩
  · rcases engineTurn_effect { s with host := moves } t hp hturn with rfl | ⟨i, -, heffect⟩
    · obtain ⟨htags, hlimit, hout, -, hbest⟩ := hs
      exact ⟨⟨htags, hlimit, hout, lenWithin_inf _, hbest⟩, rfl⟩
    · exact ⟨heffect.lengthsWithin hs, heffect.cfg⟩

/-- Settles O50: the memories by the writes' own laws, the lengths by what a step can do to them. -/
theorem stepStaysWithinSizes : Obligations.StepStaysWithinSizes := by
  intro s t hs hstep
  obtain ⟨hobeys, hlengths⟩ := s.withinSizes_iff.mp hs
  obtain ⟨hlengths', hcfg⟩ := step_keeps_lengthsWithin s t hlengths hstep
  obtain ⟨-, -, -, -, hbest⟩ := hlengths
  refine ⟨t.withinSizes_iff.mpr ⟨?_, hlengths'⟩, hcfg⟩
  rw [hcfg]
  exact step_keeps_obeys s t (sizeLaw s.cfg) (sizeLaw_kept s.cfg) hbest hobeys hstep

/-! ### Slots and counters -/

/-- A symbol keeps every counter below its class limit (44_golomb_encoder.md R149). -/
theorem State.afterPutBit_count_lt (s : State) (c : BitVec 3) (sym : Bit)
    (h : ∀ d : BitVec 3, (s.count d).toNat + 1 ≤ 2 ^ d.toNat) (d : BitVec 3) :
    ((s.afterPutBit c sym).count d).toNat + 1 ≤ 2 ^ d.toNat := by
  by_cases hd : d = c
  · subst hd
    rw [State.afterPutBit_count_same]
    exact countAfter_lt d sym _ (h d)
  · rw [State.afterPutBit_count_other s c sym d hd]
    exact h d

/-- A legal row's next states are in 1..32 (10_state.md R51 (a)). -/
theorem slotAfter_state_le (row : StRow) (sl : Slot) (sym : Bit) (h : rowLegal row) :
    (slotAfter row sl sym).state.toNat ≤ 32 := by
  obtain ⟨-, hmatch, -, hmismatch⟩ := h
  unfold slotAfter
  split
  · exact hmismatch
  · exact hmatch

/-- Every micro-operation keeps slots and counters in range. -/
theorem Effect.unitsLawful {s t : State} {i : Instr} (h : Effect s i t)
    (hrows : ∀ i (h : i < 33), rowLegal s.cfg.st[i]) (hs : s.unitsLawful) : t.unitsLawful := by
  obtain ⟨hslots, hcounts⟩ := hs
  have hzero (c : BitVec 3) : (0#8).toNat + 1 ≤ 2 ^ c.toNat := Nat.two_pow_pos _
  cases h with
  | pemInit =>
    refine ⟨fun x => ?_, hcounts⟩
    have hx : (({ s with slots := Vector.replicate 32 { state := 0, mps := 0 } } : State).goto Label.gceInit 0).slot x =
        { state := 0, mps := 0 } := Vector.getElem_replicate _
    rw [hx]
    exact Nat.zero_le _
  | pemStep bit ctx l j hstate _ =>
    refine ⟨fun x => ?_, s.afterPutBit_count_lt _ _ hcounts⟩
    rw [State.goto_slot]
    by_cases hx : x = ctx
    · subst hx
      rw [State.afterPemStep_slot_same]
      split
      · exact slotAfter_state_le _ _ _ (hrows _ hstate)
      · exact hslots x
    · rw [State.afterPemStep_slot_other s bit ctx _ x hx]
      exact hslots x
  | gceInit l j =>
    refine ⟨hslots, fun c => ?_⟩
    rw [State.goto_count, State.gceStart_count]
    exact hzero c
  | gcePutbit c sym _ => exact ⟨hslots, s.afterPutBit_count_lt c sym hcounts⟩
  | gceFinish _ =>
    refine ⟨hslots, fun c => ?_⟩
    rw [State.goto_count, State.afterFinish_count]
    exact hzero c
  | ilTag k c u hu l j a _ =>
    obtain ⟨chans, att, opos, rfl⟩ := hu.frame
    exact ⟨hslots, hcounts⟩
  | ilTagFault k c u hu =>
    obtain ⟨chans, att, opos, rfl⟩ := hu.frame
    exact ⟨hslots, hcounts⟩
  | _ => exact ⟨hslots, hcounts⟩

/-- Acceptance leaves slots and counters alone. -/
theorem State.accept_unitsLawful (s : State) (kind : CmdKind) (h : BitVec 4) (hs : s.unitsLawful) :
    (s.accept kind h).unitsLawful := by
  unfold State.accept
  split <;> exact hs

/-- Settles O51: only PEM_INIT, PEM_STEP, GCE_INIT, GCE_PUTBIT and GCE_FINISH write a slot or a counter, each in range. -/
theorem stepKeepsUnitsLawful : Obligations.StepKeepsUnitsLawful := by
  intro s t hrows hs hstep
  rcases step_kinds s t hstep with ⟨rest, -, rfl⟩ | ⟨w, rest, -, -, hcmd⟩ | hquiet | ⟨moves, hp, hturn⟩
  · exact State.reset_unitsLawful
  · rcases hcmd with ⟨kind, h, rfl⟩ | ⟨-, rfl⟩ | rfl
    · exact State.accept_unitsLawful _ kind h hs
    · exact hs
    · exact hs
  · rw [hquiet.frame]
    exact hs
  · rcases engineTurn_effect { s with host := moves } t hp hturn with rfl | ⟨i, -, heffect⟩
    · exact hs
    · exact heffect.unitsLawful hrows hs

end Sys2Proof.Machine
end

section
/-! The Golomb channels as sequences of codewords, one per tag: what a symbol appends, what the flush completes and what an IL_TAG takes away (44_golomb_encoder.md R147 to R154, 45_interleaver.md R157, R160). -/

namespace Sys2Proof.Machine

/-! ### Sums over the channels -/

/-- The sum of a number per channel. -/
def sumChannels (f : BitVec 3 → Nat) : Nat := ((List.range 8).map fun c => f (BitVec.ofNat 3 c)).sum

theorem sumChannels_eq (f : BitVec 3 → Nat) :
    sumChannels f = f 0 + f 1 + f 2 + f 3 + f 4 + f 5 + f 6 + f 7 := by
  simp [sumChannels, List.range_succ]
  omega

theorem channel_cases (c : BitVec 3) : c = 0 ∨ c = 1 ∨ c = 2 ∨ c = 3 ∨ c = 4 ∨ c = 5 ∨ c = 6 ∨ c = 7 := by
  revert c
  decide

/-- Each summand is at most the sum. -/
theorem le_sumChannels (f : BitVec 3 → Nat) (c : BitVec 3) : f c ≤ sumChannels f := by
  rw [sumChannels_eq]
  rcases channel_cases c with rfl | rfl | rfl | rfl | rfl | rfl | rfl | rfl <;> omega

theorem sumChannels_mono (f g : BitVec 3 → Nat) (h : ∀ c, f c ≤ g c) : sumChannels f ≤ sumChannels g := by
  rw [sumChannels_eq, sumChannels_eq]
  have := h 0; have := h 1; have := h 2; have := h 3; have := h 4; have := h 5; have := h 6; have := h 7
  omega

/-- At most one more in each channel is at most eight more. -/
theorem sumChannels_le_add_eight (f g : BitVec 3 → Nat) (h : ∀ c, g c ≤ f c + 1) : sumChannels g ≤ sumChannels f + 8 := by
  rw [sumChannels_eq, sumChannels_eq]
  have := h 0; have := h 1; have := h 2; have := h 3; have := h 4; have := h 5; have := h 6; have := h 7
  omega

/-- A change in one channel changes the sum by as much. -/
theorem sumChannels_change (f g : BitVec 3 → Nat) (c : BitVec 3) (n : Nat) (hc : g c = f c + n)
    (h : ∀ d, d ≠ c → g d = f d) : sumChannels g = sumChannels f + n := by
  have hd (d : BitVec 3) : g d = f d + if d = c then n else 0 := by
    by_cases hdc : d = c
    · rw [if_pos hdc, hdc, hc]
    · rw [if_neg hdc, h d hdc, Nat.add_zero]
  rw [sumChannels_eq, sumChannels_eq, hd 0, hd 1, hd 2, hd 3, hd 4, hd 5, hd 6, hd 7]
  rcases channel_cases c with rfl | rfl | rfl | rfl | rfl | rfl | rfl | rfl <;> simp <;> omega

/-! ### Codewords -/

/-- A codeword of class `c`: a full or flushed run, or a mismatch with its `c` magnitude bits (44_golomb_encoder.md R148, R151). -/
inductive IsCodeword (c : BitVec 3) : List Bit → Prop where
  | run : IsCodeword c [0]
  | mismatch (m : List Bit) (h : m.length = c.toNat) : IsCodeword c (1 :: m)

/-- `bits` are `n` codewords of class `c`, one after the other. -/
inductive Codewords (c : BitVec 3) : Nat → List Bit → Prop where
  | nil : Codewords c 0 []
  | cons (w : List Bit) (n : Nat) (bits : List Bit) (hw : IsCodeword c w) (h : Codewords c n bits) :
      Codewords c (n + 1) (w ++ bits)

/-- One more codeword at the end. -/
theorem Codewords.snoc {c : BitVec 3} {n : Nat} {bits w : List Bit} (h : Codewords c n bits) (hw : IsCodeword c w) :
    Codewords c (n + 1) (bits ++ w) := by
  induction h with
  | nil =>
    have hone := Codewords.cons w 0 [] hw .nil
    rwa [List.append_nil] at hone
  | cons v n bits hv _ ih =>
    rw [List.append_assoc]
    exact .cons v _ _ hv ih

/-- The first of several codewords. -/
theorem Codewords.first {c : BitVec 3} {n : Nat} {bits : List Bit} (h : Codewords c (n + 1) bits) :
    ∃ w rest, IsCodeword c w ∧ bits = w ++ rest ∧ Codewords c n rest := by
  cases h with
  | cons w _ rest hw hrest => exact ⟨w, rest, hw, rfl, hrest⟩

/-- No codewords are no bits. -/
theorem Codewords.eq_nil {c : BitVec 3} {bits : List Bit} (h : Codewords c 0 bits) : bits = [] := by
  cases h
  rfl

/-- What a symbol emits where it ends the run is a codeword (44_golomb_encoder.md R148). -/
theorem emitted_isCodeword (c : BitVec 3) (sym : Bit) (cnt : BitVec 8) (h : endOfRun c sym cnt = 1) :
    IsCodeword c (emitted c sym cnt) := by
  rcases bit_cases sym with rfl | rfl
  · have hfull : cnt + 1 = 1#8 <<< c.toNat := ((endOfRun_eq_one c 0 cnt).mp h).resolve_left (by decide)
    have hbits : emitted c 0 cnt = [0] := if_pos hfull
    rw [hbits]
    exact .run
  · exact .mismatch _ (by simp)

/-! ### The bits of a buffer -/

theorem BitBuf.bits_length (b : BitBuf) : b.bits.length = b.wpos.toNat := by
  rw [BitBuf.bits, List.length_map, List.length_range]

theorem BitBuf.bits_getElem (b : BitBuf) (i : Nat) (h : i < b.bits.length) : b.bits[i] = Memory.bitRead b.mem i := by
  simp only [BitBuf.bits, List.getElem_map, List.getElem_range]

/-- Appended bits follow the bits there are (00_scope.md R12). -/
theorem BitBuf.bits_appendAll (b : BitBuf) (vs : List Bit) (hwf : Memory.wf b.mem)
    (hroom : b.wpos.toNat + vs.length < 2 ^ 32) : (b.appendAll vs).bits = b.bits ++ vs := by
  have hlen : (b.appendAll vs).bits.length = (b.bits ++ vs).length := by
    rw [BitBuf.bits_length, BitBuf.appendAll_wpos_toNat b vs hroom, List.length_append, BitBuf.bits_length]
  refine List.ext_getElem hlen fun i hi hi' => ?_
  rw [BitBuf.bits_getElem, b.bitRead_appendAll vs hwf hroom.le]
  rw [BitBuf.bits_length, BitBuf.appendAll_wpos_toNat b vs hroom] at hi
  by_cases hold : i < b.wpos.toNat
  · rw [dif_neg (by omega), List.getElem_append_left (by rwa [BitBuf.bits_length]), BitBuf.bits_getElem]
  · rw [dif_pos (by omega), List.getElem_append_right (by rw [BitBuf.bits_length]; omega)]
    simp only [BitBuf.bits_length]

/-- The bits behind the read cursor. -/
def BitBuf.unread (b : BitBuf) : List Bit := b.bits.drop b.rpos.toNat

theorem BitBuf.unread_length (b : BitBuf) : b.unread.length = b.wpos.toNat - b.rpos.toNat := by
  rw [BitBuf.unread, List.length_drop, BitBuf.bits_length]

/-- A channel whose unread bits start with a codeword has it whole, and its first bit tells its length
(45_interleaver.md R157). -/
theorem State.codewordLength_of_unread (s : State) (c : BitVec 3) (w bits : List Bit) (hw : IsCodeword c w)
    (h : (s.chan c).unread = w ++ bits) :
    s.codewordLength c = w.length ∧ (s.chan c).rpos.toNat + w.length ≤ (s.chan c).wpos.toNat := by
  have hlen := (s.chan c).unread_length
  rw [h, List.length_append] at hlen
  have hpos : 0 < w.length := by cases hw <;> simp
  refine ⟨?_, by omega⟩
  have hfirst : Memory.bitRead (s.chan c).mem (s.chan c).rpos.toNat = w[0] := by
    have hget : (s.chan c).unread[0]'(by rw [h, List.length_append]; omega) = w[0] := by
      simp only [h, List.getElem_append_left hpos]
    rw [← hget]
    simp only [BitBuf.unread, List.getElem_drop, BitBuf.bits_getElem, Nat.add_zero]
  cases hw with
  | run =>
    rw [State.codewordLength, hfirst]
    rfl
  | mismatch m hm =>
    rw [State.codewordLength, hfirst, List.length_cons, hm]
    rfl

/-! ### The modelling loop's channels -/

/-- How many codewords of class `c` are still to be ended: one while its counter is not 0. -/
def State.pendingRun (s : State) (c : BitVec 3) : Nat := if s.count c = 0 then 0 else 1

/-- The bits in all channels. -/
def State.channelBits (s : State) : Nat := sumChannels fun c => (s.chan c).wpos.toNat

/-- After `n` symbols: a tag and eight bits at most for each, and in every channel a codeword for each of its tags but that of
a pending run (44_golomb_encoder.md R147, R148, R154). -/
def State.encoding (s : State) (n : Nat) : Prop :=
  s.tags.length ≤ n ∧ s.channelBits ≤ 8 * n ∧
    ∀ c, ∃ m, m + s.pendingRun c = s.tags.count c ∧ Codewords c m (s.chan c).bits

/-- After GCE_FINISH: every tag has its codeword, within R154's bounds. -/
def State.encoded (s : State) (n : Nat) : Prop :=
  s.tags.length ≤ n ∧ (∀ c, (s.chan c).wpos.toNat ≤ 8 * n + 1) ∧ s.channelBits ≤ 8 * n + 8 ∧
    ∀ c, Codewords c (s.tags.count c) (s.chan c).bits

/-- GCE_INIT starts with no tag and no bit. -/
theorem State.gceStart_encoding (s : State) : s.gceStart.encoding 0 := by
  refine ⟨Nat.le_refl 0, ?_, fun c => ⟨0, ?_, ?_⟩⟩
  · simp [State.channelBits, sumChannels_eq, BitBuf.empty]
  · rw [State.pendingRun, State.gceStart_count, if_pos rfl]
    rfl
  · rw [State.gceStart_chan]
    exact .nil

/-- The tags of class `d` after a symbol of class `c`. -/
theorem State.afterPutBit_tags_count (s : State) (c : BitVec 3) (sym : Bit) (d : BitVec 3) :
    (s.afterPutBit c sym).tags.count d = s.tags.count d + if d = c ∧ s.count c = 0 then 1 else 0 := by
  change (if s.count c = 0 then s.tags ++ [c] else s.tags).count d = _
  by_cases hc : s.count c = 0
  · by_cases hd : d = c
    · subst hd
      simp [hc]
    · have : c ≠ d := fun h => hd h.symm
      simp [hc, hd, this]
  · rw [if_neg hc, if_neg fun h => hc h.2, Nat.add_zero]

/-- A class's codewords and tags after a symbol: where the run ends its codeword is there, where it goes on it is pending. -/
theorem State.afterPutBit_codewords (s : State) (c : BitVec 3) (sym : Bit) (hwf : Memory.wf (s.chan c).mem)
    (hroom : (s.chan c).wpos.toNat + 8 < 2 ^ 32) (hlt : (s.count c).toNat < 2 ^ c.toNat)
    (h : ∃ m, m + s.pendingRun c = s.tags.count c ∧ Codewords c m (s.chan c).bits) :
    ∃ m, m + (s.afterPutBit c sym).pendingRun c = (s.afterPutBit c sym).tags.count c ∧
      Codewords c m ((s.afterPutBit c sym).chan c).bits := by
  obtain ⟨m, hm, hwords⟩ := h
  have hemit := emitted_length_le c sym (s.count c)
  have hbits : ((s.afterPutBit c sym).chan c).bits = (s.chan c).bits ++ emitted c sym (s.count c) := by
    rw [State.afterPutBit_chan_same, BitBuf.bits_appendAll _ _ hwf (by omega)]
  have hopen : (s.afterPutBit c sym).tags.count c = m + 1 := by
    rw [s.afterPutBit_tags_count c sym c, ← hm, State.pendingRun]
    by_cases hz : s.count c = 0
    · rw [if_pos hz, if_pos ⟨rfl, hz⟩, Nat.add_zero]
    · rw [if_neg hz, if_neg fun h => hz h.2, Nat.add_zero]
  rcases bit_cases (endOfRun c sym (s.count c)) with hgo | hend
  · have hsym : sym = 0 := by
      rcases bit_cases sym with h | rfl
      · exact h
      · rw [(symbol_of_mismatch c _).1] at hgo
        exact absurd hgo (by decide)
    subst hsym
    have hbelow : (s.count c).toNat + 1 < 2 ^ c.toNat := by
      by_contra hfull
      rw [(symbol_of_fullRun c (s.count c) (by omega)).1] at hgo
      exact absurd hgo (by decide)
    obtain ⟨-, hcount, hnone⟩ := symbol_of_match c (s.count c) hbelow
    have hpending : (s.afterPutBit c 0).pendingRun c = 1 := by
      rw [State.pendingRun, State.afterPutBit_count_same, hcount, if_neg]
      intro hz
      have hsucc := count_succ_of_lt c _ hlt
      rw [hz] at hsucc
      exact absurd hsucc (by simp)
    refine ⟨m, by rw [hpending, hopen], ?_⟩
    · rw [hbits, hnone, List.append_nil]
      exact hwords
  · have hpending : (s.afterPutBit c sym).pendingRun c = 0 := by
      rw [State.pendingRun, State.afterPutBit_count_same, countAfter, if_pos hend, if_pos rfl]
    refine ⟨m + 1, by rw [hpending, hopen], ?_⟩
    · rw [hbits]
      exact hwords.snoc (emitted_isCodeword c sym _ hend)

/-- One more symbol. -/
theorem State.afterPutBit_encoding (s : State) (c : BitVec 3) (sym : Bit) (n : Nat) (hwf : Memory.wf (s.chan c).mem)
    (hroom : 8 * n + 8 < 2 ^ 32) (hlt : (s.count c).toNat < 2 ^ c.toNat) (h : s.encoding n) :
    (s.afterPutBit c sym).encoding (n + 1) := by
  obtain ⟨htags, hbits, hwords⟩ := h
  have hc : (s.chan c).wpos.toNat ≤ s.channelBits := le_sumChannels (fun d => (s.chan d).wpos.toNat) c
  have hemit := emitted_length_le c sym (s.count c)
  refine ⟨?_, ?_, fun d => ?_⟩
  · change (if s.count c = 0 then s.tags ++ [c] else s.tags).length ≤ n + 1
    split
    · rw [List.length_append, List.length_singleton]
      omega
    · omega
  · have hsum : (s.afterPutBit c sym).channelBits = s.channelBits + (emitted c sym (s.count c)).length := by
      refine sumChannels_change _ _ c _ ?_ fun d hd => ?_
      · rw [State.afterPutBit_chan_same, BitBuf.appendAll_wpos_toNat _ _ (by omega)]
      · rw [State.afterPutBit_chan_other s c sym d hd]
    omega
  · by_cases hd : d = c
    · subst hd
      exact s.afterPutBit_codewords d sym hwf (by omega) hlt (hwords d)
    · obtain ⟨m, hm, hd'⟩ := hwords d
      refine ⟨m, ?_, ?_⟩
      · rw [State.afterPutBit_tags_count, if_neg (fun h => hd h.1), State.pendingRun,
          State.afterPutBit_count_other s c sym d hd]
        exact hm
      · rw [State.afterPutBit_chan_other s c sym d hd]
        exact hd'

/-- The flush ends every pending run (R151). -/
theorem State.afterFinish_encoded (s : State) (n : Nat) (hwf : ∀ c, Memory.wf (s.chan c).mem) (hroom : 8 * n + 1 < 2 ^ 32)
    (h : s.encoding n) : s.afterFinish.encoded n := by
  obtain ⟨htags, hbits, hwords⟩ := h
  have hc (c : BitVec 3) : (s.chan c).wpos.toNat ≤ s.channelBits := le_sumChannels (fun d => (s.chan d).wpos.toNat) c
  have hwpos (c : BitVec 3) : (s.afterFinish.chan c).wpos.toNat ≤ (s.chan c).wpos.toNat + 1 := by
    have := hc c
    rw [State.afterFinish_chan]
    split
    · omega
    · rw [BitBuf.append_wpos, word_succ]
      omega
  refine ⟨htags, fun c => ?_, ?_, fun c => ?_⟩
  · have := hc c
    have := hwpos c
    omega
  · have hsum : s.afterFinish.channelBits ≤ s.channelBits + 8 := sumChannels_le_add_eight _ _ hwpos
    omega
  · obtain ⟨m, hm, hd⟩ := hwords c
    have := hc c
    change Codewords c (s.tags.count c) _
    rw [State.afterFinish_chan, ← hm, State.pendingRun]
    by_cases hz : s.count c = 0
    · rw [if_pos hz, if_pos hz]
      exact hd
    · have happend : ((s.chan c).append 0).bits = (s.chan c).bits ++ [0] :=
        BitBuf.bits_appendAll _ [0] (hwf c) (by rw [List.length_singleton]; omega)
      rw [if_neg hz, if_neg hz, happend]
      exact hd.snoc .run

/-! ### The tag loop's channels -/

/-- The upper nibble of a memory's first byte. -/
def topNibble (m : Memory) : BitVec 4 := (Memory.read m 0).extractLsb' 4 4

/-- The first four bits are the upper nibble of the first byte (00_scope.md R11). -/
theorem topNibble_congr (m m' : Memory) (h : ∀ pos, pos < 4 → Memory.bitRead m pos = Memory.bitRead m' pos) :
    topNibble m = topNibble m' := by
  apply BitVec.eq_of_getLsbD_eq
  intro i hi
  have hpos := congrArg (fun b : Bit => b.getLsbD 0) (h (3 - i) (by omega))
  simp only [Memory.bitRead, show (3 - i) / 8 = 0 by omega, show 7 - (3 - i) % 8 = 4 + i by omega,
    BitVec.getLsbD_extractLsb'] at hpos
  simpa [topNibble, hi] using hpos

/-- Before tag `t` of at most `n`: every channel's unread bits are the codewords of its tags from `t` on, the output has the
header's nibble and every bit moved so far (45_interleaver.md R155, R157, R160). -/
def State.interleaving (s : State) (n t : Nat) : Prop :=
  s.tags.length ≤ n ∧ (∀ c, (s.chan c).wpos.toNat ≤ 8 * n + 1) ∧ s.channelBits ≤ 8 * n + 8 ∧
    (∀ c, (s.chan c).rpos.toNat ≤ (s.chan c).wpos.toNat) ∧
    (∀ c, Codewords c ((s.tags.drop t).count c) (s.chan c).unread) ∧
    s.opos.toNat = 4 + sumChannels (fun c => (s.chan c).rpos.toNat) ∧ topNibble s.att = s.hdr

/-- The output so far is no longer than the header nibble and all channel bits. -/
theorem State.interleaving.opos_le {s : State} {n t : Nat} (h : s.interleaving n t) :
    4 ≤ s.opos.toNat ∧ s.opos.toNat ≤ 8 * n + 12 := by
  obtain ⟨-, -, hbits, hcursors, -, hopos, -⟩ := h
  have hmono : sumChannels (fun c => (s.chan c).rpos.toNat) ≤ s.channelBits := sumChannels_mono _ _ hcursors
  omega

/-- Bits that a channel still has are part of that output too. -/
theorem State.interleaving.opos_add_le {s : State} {n t : Nat} (h : s.interleaving n t) (c : BitVec 3) (l : Nat)
    (hfits : (s.chan c).rpos.toNat + l ≤ (s.chan c).wpos.toNat) : s.opos.toNat + l ≤ 8 * n + 12 := by
  obtain ⟨-, -, hbits, hcursors, -, hopos, -⟩ := h
  have hsum := sumChannels_change (fun d => (s.chan d).rpos.toNat)
    (fun d => (s.chan d).rpos.toNat + if d = c then l else 0) c l (by rw [if_pos rfl])
    fun d hd => by rw [if_neg hd, Nat.add_zero]
  have hmono : sumChannels (fun d => (s.chan d).rpos.toNat + if d = c then l else 0) ≤ s.channelBits := by
    refine sumChannels_mono _ _ fun d => ?_
    by_cases hd : d = c
    · rw [if_pos hd, hd]
      exact hfits
    · rw [if_neg hd]
      exact hcursors d
  omega

/-- IL_INIT starts with every channel unread. -/
theorem State.ilStart_interleaving (s : State) (n : Nat) (h : s.encoded n) : s.ilStart.interleaving n 0 := by
  obtain ⟨htags, hcap, hbits, hwords⟩ := h
  have hwpos (c : BitVec 3) : (s.ilStart.chan c).wpos = (s.chan c).wpos := by rw [State.ilStart_chan]
  have hrpos (c : BitVec 3) : (s.ilStart.chan c).rpos = 0 := by rw [State.ilStart_chan]
  refine ⟨htags, fun c => by rw [hwpos]; exact hcap c, ?_, fun c => by rw [hrpos]; exact Nat.zero_le _, fun c => ?_, ?_, ?_⟩
  · simpa only [State.channelBits, hwpos] using hbits
  · rw [State.ilStart_chan]
    exact hwords c
  · have hopos : s.ilStart.opos.toNat = 4 := rfl
    rw [hopos]
    simp [hrpos, sumChannels_eq]
  · rw [topNibble, (State.ilStart_att_read s).1]
    exact (nibble_append_zero s.hdr).1

/-- When every tag is done, every channel has been read to its end, and the output holds all their bits
(45_interleaver.md R160). -/
theorem State.interleaving.consumed {s : State} {n : Nat} (h : s.interleaving n s.tags.length) :
    (∀ c, (s.chan c).rpos = (s.chan c).wpos) ∧ s.opos.toNat = 4 + s.channelBits := by
  obtain ⟨-, -, -, hcursors, hwords, hopos, -⟩ := h
  have hread (c : BitVec 3) : (s.chan c).rpos = (s.chan c).wpos := by
    have hnone := hwords c
    rw [List.drop_length, List.count_nil] at hnone
    have hlen := (s.chan c).unread_length
    rw [hnone.eq_nil, List.length_nil] at hlen
    have := hcursors c
    apply BitVec.eq_of_toNat_eq
    omega
  refine ⟨hread, ?_⟩
  rw [hopos, State.channelBits]
  simp only [hread]

/-- Moving the codeword of tag `t` leads to the next tag; a position whose output is within OUT_LIMIT leaves room for it in
ATT's one byte more (45_interleaver.md R157, 10_state.md R44). -/
theorem State.interleaving.move {s : State} {n : Nat} {t : Word} (h : s.interleaving n t.toNat) (hwf : Memory.wf s.att)
    (ht : t.toNat < s.tags.length) (hroom : 8 * n + 12 < 2 ^ 32) (hlimit : (s.opos.toNat + 7) / 8 ≤ s.cfg.outCap.toNat) :
    ∃ c u, s.tags[t.toNat]? = some c ∧ s.moveBits c (s.codewordLength c) = .ok u ∧
      exec (.ilTag t) s = .next (u.tagLoop (t + 1)) ∧ u.interleaving n (t.toNat + 1) := by
  have hopos_le := h.opos_le
  have hadd_le := h.opos_add_le
  obtain ⟨htags, hcap, hbits, hcursors, hwords, hopos, hnibble⟩ := h
  have htag : s.tags[t.toNat]? = some s.tags[t.toNat] := List.getElem?_eq_getElem ht
  generalize s.tags[t.toNat] = c at htag
  have hdrop : s.tags.drop t.toNat = c :: s.tags.drop (t.toNat + 1) := by
    rw [List.drop_eq_getElem_cons ht]
    rw [List.getElem?_eq_getElem ht] at htag
    rw [Option.some.inj htag]
  have hc := hwords c
  rw [hdrop, List.count_cons_self] at hc
  obtain ⟨w, rest, hw, hunread, hrest⟩ := hc.first
  obtain ⟨hlen, hfits⟩ := s.codewordLength_of_unread c w rest hw hunread
  have hwlen : 1 ≤ w.length ∧ w.length ≤ 8 := by
    have hclt : c.toNat < 8 := c.isLt
    cases hw with
    | run => simp
    | mismatch m hm =>
      rw [List.length_cons, hm]
      omega
  have hend := hadd_le c w.length hfits
  obtain ⟨u, hmove, hexec⟩ := exec_ilTag_of_room s t c htag hwf (by omega) (by omega) (by omega)
  refine ⟨c, u, htag, hmove, hexec, ?_⟩
  have hframe := State.moveBits_frame _ s u c hmove
  obtain ⟨-, hopos', hrpos', hmem', hwpos', hother, hatt'⟩ := State.moveBits_reads _ s u c hmove hwf (by omega)
  have hwpos (d : BitVec 3) : (u.chan d).wpos = (s.chan d).wpos := by
    by_cases hd : d = c
    · rw [hd, hwpos']
    · rw [hother d hd]
  have htags' : u.tags = s.tags := by rw [hframe]
  refine ⟨by rw [htags']; exact htags, fun d => by rw [hwpos]; exact hcap d, ?_, fun d => ?_, fun d => ?_, ?_, ?_⟩
  · simpa only [State.channelBits, hwpos] using hbits
  · rw [hwpos]
    by_cases hd : d = c
    · rw [hd]
      omega
    · rw [hother d hd]
      exact hcursors d
  · rw [htags']
    by_cases hd : d = c
    · subst hd
      have hleft : (u.chan d).unread = rest := by
        have hsame : (u.chan d).bits = (s.chan d).bits := by rw [BitBuf.bits, BitBuf.bits, hmem', hwpos']
        rw [BitBuf.unread, hsame, hrpos', hlen, ← List.drop_drop]
        change (s.chan d).unread.drop w.length = rest
        rw [hunread, List.drop_left]
      rw [hleft]
      exact hrest
    · have hcount := hwords d
      rw [hdrop, List.count_cons_of_ne (fun h => hd h.symm)] at hcount
      rw [hother d hd]
      exact hcount
  · have hsum := sumChannels_change (fun d => (s.chan d).rpos.toNat) (fun d => (u.chan d).rpos.toNat) c w.length
      (by rw [hrpos', hlen]) fun d hd => by rw [hother d hd]
    omega
  · have hhdr : u.hdr = s.hdr := by rw [hframe]
    rw [hhdr, ← hnibble]
    refine topNibble_congr _ _ fun pos hpos => ?_
    rw [hatt', if_neg (by omega)]

end Sys2Proof.Machine
end

section
/-! The stages of an attempt: what holds at each label of 46_orchestrator.md R168 from SPL_INIT to ORC_SELECT, with the micro-operations that may still follow in it, and that each micro-operation leads to a stage with fewer (10_state.md R48, R51, 70_reset_and_hazards.md R219). -/

namespace Sys2Proof.Machine

/-! ### What holds in an attempt -/

/-- With bytes 0 .. k-1 split, no plane has more bits than its share: every second byte of its parity, or a bit a byte
(41_splitter.md R112 to R115). -/
def State.splitting (s : State) (k : Nat) : Prop :=
  (s.pm ≠ 3 → s.splitSel.toNat % 2 = (k + 1) % 2 ∧
    ∀ p, (s.plane p).wpos.toNat ≤ 8 * ((k + 1 - p.toNat % 2) / 2)) ∧
  (s.pm = 3 → ∀ p, (s.plane p).wpos.toNat ≤ k)

/-- NBIT and the planes' read cursors are in their ranges (10_state.md R51 (d), (e)). -/
def State.modeling (s : State) : Prop := s.nbit ≤ s.nb ∧ ∀ p, (s.plane p).rpos ≤ (s.plane p).wpos

/-- At ORC_SELECT an attempt with a length has the header's nibble in its first byte, and one that had NB + 2 bytes has a
length (45_interleaver.md R158, 70_reset_and_hazards.md R209). -/
def State.attemptEnded (s : State) : Prop :=
  (∀ a, s.alen = .bytes a → 0 < a.toNat ∧ topNibble s.att = s.hdr) ∧
    (s.nb.toNat + 2 ≤ s.outLimit.toNat → ∃ a, s.alen = .bytes a ∧ a.toNat ≤ s.nb.toNat + 2)

/-- The most bits an attempt can have, whatever its header (00_scope.md R8). -/
def State.bitBound (s : State) : Nat := 8 * (s.lenSnap.toNat + 1)

/-- The stages of an attempt, each with how many micro-operations are left in it at most, ORC_SELECT included. -/
inductive AttemptStage (s : State) : Nat → Prop where
  | splInit (hl : s.seq.uop = Label.splInit) : AttemptStage s (s.lenSnap.toNat + 3 * s.bitBound + 8)
  | split (hl : s.seq.uop = if s.pm = 3 then Label.splBits else Label.splByte) (hk : s.seq.idx < s.lenSnap)
      (hs : s.splitting s.seq.idx.toNat) :
      AttemptStage s (s.lenSnap.toNat - s.seq.idx.toNat + 3 * s.bitBound + 7)
  | cmInit (hl : s.seq.uop = Label.cmInit) : AttemptStage s (3 * s.bitBound + 7)
  | pemInit (hl : s.seq.uop = Label.pemInit) (hm : s.modeling) : AttemptStage s (3 * s.bitBound + 6)
  | gceInit (hl : s.seq.uop = Label.gceInit) (hm : s.modeling) : AttemptStage s (3 * s.bitBound + 5)
  | cmBit (hl : s.seq.uop = Label.cmBit) (hm : s.modeling) (hn : s.seq.idx < s.nb)
      (he : s.encoding s.seq.idx.toNat) : AttemptStage s (2 * (s.bitBound - s.seq.idx.toNat) + s.bitBound + 4)
  | pemStep (hl : s.seq.uop = Label.pemStep) (hm : s.modeling) (hn : s.seq.idx < s.nb)
      (he : s.encoding s.seq.idx.toNat) : AttemptStage s (2 * (s.bitBound - s.seq.idx.toNat) + s.bitBound + 3)
  | gceFinish (hl : s.seq.uop = Label.gceFinish) (hm : s.modeling) (he : s.encoding s.nb.toNat) :
      AttemptStage s (s.bitBound + 4)
  | ilInit (hl : s.seq.uop = Label.ilInit) (hm : s.modeling) (he : s.encoded s.nb.toNat) : AttemptStage s (s.bitBound + 3)
  | ilTag (hl : s.seq.uop = Label.ilTag) (hm : s.modeling) (ht : s.seq.idx.toNat < s.tags.length)
      (hlimit : (s.opos.toNat + 7) / 8 ≤ s.outLimit.toNat) (hi : s.interleaving s.nb.toNat s.seq.idx.toNat) :
      AttemptStage s (s.bitBound - s.seq.idx.toNat + 2)
  | ilLen (hl : s.seq.uop = Label.ilLen) (hm : s.modeling) (hi : s.interleaving s.nb.toNat s.tags.length) :
      AttemptStage s 2
  | select (hl : s.seq.uop = Label.orcSelect) (he : s.attemptEnded) : AttemptStage s 1

/-- A stage is none of what the host may set while nothing runs. -/
theorem AttemptStage.of_quiet {s t : State} {w : Nat} (h : AttemptStage s w) (hq : Quiet s t) : AttemptStage t w := by
  rw [hq.frame]
  cases h with
  | splInit hl => exact .splInit hl
  | split hl hk hs => exact .split hl hk hs
  | cmInit hl => exact .cmInit hl
  | pemInit hl hm => exact .pemInit hl hm
  | gceInit hl hm => exact .gceInit hl hm
  | cmBit hl hm hn he => exact .cmBit hl hm hn he
  | pemStep hl hm hn he => exact .pemStep hl hm hn he
  | gceFinish hl hm he => exact .gceFinish hl hm he
  | ilInit hl hm he => exact .ilInit hl hm he
  | ilTag hl hm ht hlimit hi => exact .ilTag hl hm ht hlimit hi
  | ilLen hl hm hi => exact .ilLen hl hm hi
  | select hl he => exact .select hl he

/-- What the block keeps in every state with legal parameters. -/
structure Sound (s : State) : Prop where
  legal : legalConfig s.cfg
  canonical : s.canonical
  sizes : s.withinSizes
  units : s.unitsLawful

/-! ### The quantities of an attempt -/

/-- Padding adds at most one byte (00_scope.md R8). -/
theorem paddedLen_le (pm : BitVec 2) (l : Word) : (paddedLen pm l).toNat ≤ l.toNat + 1 := by
  unfold paddedLen
  split
  · rw [word_succ]
    omega
  · omega

theorem State.nb_le (s : State) : s.nb.toNat ≤ s.bitBound := by
  have hpad := paddedLen_le s.pm s.lenSnap
  have hmul : s.nb.toNat = 8 * (paddedLen s.pm s.lenSnap).toNat % 2 ^ 32 := BitVec.toNat_mul _ _
  have hmod := Nat.mod_le (8 * (paddedLen s.pm s.lenSnap).toNat) (2 ^ 32)
  rw [hmul, State.bitBound]
  omega

/-- The bits of an attempt are within every capacity (00_scope.md R7). -/
theorem State.nb_bounds (s : State) (hlegal : legalConfig s.cfg) (hfits : s.lenSnap ≤ s.cfg.inCap) :
    s.nb.toNat ≤ s.cfg.tagCap ∧ 8 * s.nb.toNat + 1 ≤ s.cfg.chanCap ∧ 8 * s.nb.toNat + 12 < 2 ^ 32 := by
  obtain ⟨-, htag, hchan, -, -, -, hword, -, -⟩ := hlegal
  have hnb := s.nb_le
  have hlen : s.lenSnap.toNat ≤ s.cfg.inCap.toNat := BitVec.le_def.1 hfits
  unfold State.bitBound at hnb
  unfold nbMax at htag hchan hword
  omega

/-- A word below another is at least one below it. -/
theorem word_succ_of_lt {a b : Word} (h : a < b) : (a + 1).toNat = a.toNat + 1 ∧ a.toNat + 1 ≤ b.toNat := by
  have hlt : a.toNat < b.toNat := h
  have := b.isLt
  rw [word_succ, Nat.mod_eq_of_lt (by omega)]
  exact ⟨rfl, hlt⟩

/-! ### The splitter's stage -/

/-- SPL_INIT starts with empty planes. -/
theorem State.splStart_splitting (s : State) : s.splStart.splitting 0 := by
  have hwpos (p : BitVec 3) : (s.splStart.plane p).wpos.toNat = 0 := by
    rw [State.splStart_plane]
    rfl
  refine ⟨fun hpm => ⟨?_, fun p => ?_⟩, fun _ p => ?_⟩
  · change (selStart s.pm).toNat % 2 = 1
    have hpm' : s.pm ≠ 3 := hpm
    generalize s.pm = pm at hpm'
    revert pm
    decide
  · rw [hwpos]
    exact Nat.zero_le _
  · rw [hwpos]

/-- The splitter's selector alternates in parity (41_splitter.md R111). -/
theorem nextSel_parity (pm : BitVec 2) (sel : BitVec 3) (k : Word) :
    (nextSel pm sel k).toNat % 2 = (sel.toNat + 1) % 2 := by
  rw [nextSel]
  generalize (k.extractLsb' 0 4 == 0) = advance
  revert pm sel advance
  decide

/-- SPL_BYTE k finds room in its plane and takes one byte more (41_splitter.md R115). -/
theorem State.splitting.splByte {s : State} {k : Word} (h : s.splitting k.toNat) (hpm : s.pm ≠ 3) (hk : k < s.lenSnap)
    (hlegal : legalConfig s.cfg) (hfits : s.lenSnap ≤ s.cfg.inCap) :
    ∃ u : State, exec (.splByte k) s = .next (u.splLoop (k + 1)) ∧ u.splitting (k.toNat + 1) ∧
      u.seq = s.seq ∧ u.lenSnap = s.lenSnap ∧ u.faulted = s.faulted := by
  obtain ⟨hsel, hplanes⟩ := h.1 hpm
  obtain ⟨hcap, -, -, hword, -⟩ := hlegal
  have hklt : k.toNat < s.lenSnap.toNat := hk
  have hlen : s.lenSnap.toNat ≤ s.cfg.inCap.toNat := BitVec.le_def.1 hfits
  have hparity := nextSel_parity s.pm s.splitSel k
  generalize hp : nextSel s.pm s.splitSel k = p at hparity
  have hpp : p.toNat % 2 = k.toNat % 2 := by omega
  have hold := hplanes p
  have hroom : (s.plane p).wpos.toNat + 8 ≤ 8 * s.cfg.planeCap := by omega
  have hexec := exec_splByte_of_room s k (by rw [BitVec.lt_def]; omega) (by rw [hp]; exact hroom)
  rw [hp] at hexec
  refine ⟨_, hexec, ⟨fun _ => ⟨?_, fun q => ?_⟩, fun h3 => absurd h3 hpm⟩, rfl, rfl, rfl⟩
  · rw [State.setPlane_splitSel]
    change p.toNat % 2 = _
    omega
  · by_cases hq : q = p
    · subst hq
      rw [State.plane_setPlane_same, BitBuf.appendAll_wpos_toNat _ _ (by rw [byteBits_length]; omega), byteBits_length]
      omega
    · rw [State.plane_setPlane_other _ _ _ _ hq]
      have := hplanes q
      change (s.plane q).wpos.toNat ≤ _
      omega

/-- SPL_BITS k finds room in every plane and gives each one bit more (41_splitter.md R113, R115). -/
theorem State.splitting.splBits {s : State} {k : Word} (h : s.splitting k.toNat) (hpm : s.pm = 3) (hk : k < s.lenSnap)
    (hlegal : legalConfig s.cfg) (hfits : s.lenSnap ≤ s.cfg.inCap) :
    ∃ u : State, exec (.splBits k) s = .next (u.splLoop (k + 1)) ∧ u.splitting (k.toNat + 1) ∧
      u.seq = s.seq ∧ u.lenSnap = s.lenSnap ∧ u.faulted = s.faulted := by
  have hplanes := h.2 hpm
  obtain ⟨hcap, -, -, hword, -⟩ := hlegal
  have hklt : k.toNat < s.lenSnap.toNat := hk
  have hlen : s.lenSnap.toNat ≤ s.cfg.inCap.toNat := BitVec.le_def.1 hfits
  have hexec := exec_splBits_of_room s k (by rw [BitVec.lt_def]; omega) fun p => by have := hplanes p; omega
  refine ⟨_, hexec, ⟨fun h3 => absurd hpm h3, fun _ p => ?_⟩, rfl, rfl, rfl⟩
  have := hplanes p
  rw [State.plane_with_vec8, BitBuf.append_wpos, word_succ]
  omega

/-- The splitter loop leads to the next byte, or to CM_INIT. -/
theorem AttemptStage.of_splLoop (u : State) (k : Word) (h : u.splitting k.toNat) :
    ∃ w, w ≤ u.lenSnap.toNat - k.toNat + 3 * u.bitBound + 7 ∧ AttemptStage (u.splLoop k) w := by
  unfold State.splLoop
  split
  next hmore => exact ⟨_, le_refl _, .split rfl hmore h⟩
  next => exact ⟨3 * u.bitBound + 7, by omega, .cmInit rfl⟩

/-! ### The modeler's stage -/

/-- CM_INIT sets every read cursor and NBIT to 0. -/
theorem State.cmStart_modeling (s : State) : s.cmStart.modeling := by
  refine ⟨word_zero_le _, fun p => ?_⟩
  rw [State.cmStart_plane]
  exact word_zero_le _

/-- CM_BIT of a bit below NB keeps NBIT and the planes' cursors in their ranges. -/
theorem State.afterCmBit_modeling (s : State) (n : Word) (p : BitVec 3) (ctx : BitVec 5) (hn : n < s.nb)
    (h : s.modeling) : (s.afterCmBit n p ctx).modeling := by
  refine ⟨?_, fun q => ?_⟩
  · change n + 1 ≤ s.nb
    obtain ⟨hsucc, hle⟩ := word_succ_of_lt hn
    rw [BitVec.le_def, hsucc]
    exact hle
  · by_cases hq : q = p
    · subst hq
      rw [State.afterCmBit_plane_same]
      by_cases hread : (s.plane q).rpos < (s.plane q).wpos
      · obtain ⟨hsucc, hle⟩ := word_succ_of_lt hread
        rw [BitBuf.afterReplay_of_unread _ hread, BitVec.le_def, hsucc]
        exact hle
      · rw [BitBuf.afterReplay_of_exhausted _ (BitVec.not_lt.1 hread)]
        exact h.2 q
    · rw [State.afterCmBit_plane_other _ _ _ _ q hq]
      exact h.2 q

/-- PEM_STEP of a bit below NB finds its slot in range and room for its symbol, and encodes one symbol more. -/
theorem State.encoding.pemStep {s : State} {n : Nat} (h : s.encoding n) (hn : n < s.nb.toNat) (hs : Sound s)
    (hfits : s.lenSnap ≤ s.cfg.inCap) (bit : Bit) (ctx : BitVec 5) :
    ∃ row, exec (.pemStep bit ctx) s = .next ((s.afterPemStep bit ctx row).bitLoop (s.seq.idx + 1)) ∧
      (s.afterPemStep bit ctx row).encoding (n + 1) := by
  obtain ⟨hslots, hcounts⟩ := hs.units
  obtain ⟨htagCap, hchanCap, hword⟩ := s.nb_bounds hs.legal hfits
  obtain ⟨-, -, -, -, -, hchans⟩ := hs.canonical
  have hstate : (s.slot ctx).state.toNat < 33 := Nat.lt_succ_of_le (hslots ctx)
  have hc (c : BitVec 3) : (s.chan c).wpos.toNat ≤ s.channelBits := le_sumChannels (fun d => (s.chan d).wpos.toNat) c
  have htags := h.1
  have hbits := h.2.1
  refine ⟨s.cfg.st[(s.slot ctx).state.toNat], exec_pemStep_of_room s bit ctx hstate ?_, ?_⟩
  · have := hc (s.cfg.st[(s.slot ctx).state.toNat]).runClass
    exact s.gceRoom_of_le _ _ (by omega) (by omega)
  · exact s.afterPutBit_encoding _ (s.symbolFor bit ctx) n (hchans _) (by omega) (hcounts _) h

/-- The modelling loop leads to the next bit, or to GCE_FINISH. -/
theorem AttemptStage.of_bitLoop (u : State) (n : Word) (hm : u.modeling) (hn : n.toNat ≤ u.nb.toNat)
    (h : u.encoding n.toNat) :
    ∃ w, w ≤ 2 * (u.bitBound - n.toNat) + u.bitBound + 4 ∧ AttemptStage (u.bitLoop n) w := by
  unfold State.bitLoop
  split
  next hmore => exact ⟨_, le_refl _, .cmBit rfl hm hmore h⟩
  next hlast =>
    have heq : n.toNat = u.nb.toNat := by
      rw [BitVec.lt_def] at hlast
      omega
    rw [heq] at h
    exact ⟨u.bitBound + 4, by omega, .gceFinish rfl hm h⟩

/-! ### The interleaver's stage -/

/-- The tag loop leads to the next tag, to IL_LEN, or, where the output already exceeds OUT_LIMIT, to ORC_SELECT: then OUT_LIMIT
is below NB + 2 (45_interleaver.md R159, R160). -/
theorem AttemptStage.of_tagLoop (u : State) (t : Word) (hm : u.modeling) (ht : t.toNat ≤ u.tags.length)
    (h : u.interleaving u.nb.toNat t.toNat) :
    ∃ w, w ≤ u.bitBound - t.toNat + 2 ∧ AttemptStage (u.tagLoop t) w := by
  have hover : u.overLimit = decide (u.outLimit.toNat < (u.opos.toNat + 7) / 8) := by
    simp only [State.overLimit, BitVec.lt_def, byteLen_toNat]
  have htags := h.1
  have hnb := u.nb_le
  rcases u.tagLoop_cases t with ⟨hlast, hloop⟩ | ⟨hmore, hlimit, hloop⟩ | ⟨hmore, hlimit, hloop⟩
  · have heq : t.toNat = u.tags.length := by omega
    rw [heq] at h
    rw [hloop]
    exact ⟨_, by omega, .ilLen rfl hm h⟩
  · rw [hover, decide_eq_false_iff_not, Nat.not_lt] at hlimit
    rw [hloop]
    exact ⟨_, le_refl _, .ilTag rfl hm hmore hlimit h⟩
  · rw [hover, decide_eq_true_iff] at hlimit
    obtain ⟨-, hopos⟩ := h.opos_le
    rw [hloop]
    refine ⟨1, by omega, .select rfl ⟨fun a ha => (by cases ha), fun henough => ?_⟩⟩
    change u.nb.toNat + 2 ≤ u.outLimit.toNat at henough
    omega

/-- IL_LEN gives the attempt a length where OUT_LIMIT lets it (45_interleaver.md R158, R159). -/
theorem State.interleaving.ended {s : State} {n t : Nat} (h : s.interleaving n t) (hn : n = s.nb.toNat) :
    (({ s with alen := limitLen s.outLimit (byteLen s.opos) } : State).goto Label.orcSelect 0).attemptEnded := by
  obtain ⟨hlow, hhigh⟩ := h.opos_le
  obtain ⟨-, -, -, -, -, -, hnibble⟩ := h
  have hlen := byteLen_toNat s.opos
  refine ⟨fun a ha => ?_, fun henough => ⟨byteLen s.opos, ?_, ?_⟩⟩
  · obtain ⟨rfl, -⟩ := limitLen_bytes _ _ _ ha
    exact ⟨by omega, hnibble⟩
  · change s.nb.toNat + 2 ≤ s.outLimit.toNat at henough
    exact if_neg (by rw [BitVec.lt_def]; omega)
  · change (byteLen s.opos).toNat ≤ s.nb.toNat + 2
    omega

/-! ### One micro-operation -/

/-- In a sound state whose modeler is in range every invariant of 10_state.md R51 holds. -/
theorem State.invariantsHold_of_sound (s : State) (hs : Sound s) (hm : s.modeling) : s.invariantsHold = true :=
  s.invariantsHold_iff.mpr ⟨hs.units.1, hs.units.2, hm.1, hm.2⟩

/-- The micro-operations of the data path, as against commands and the Orchestrator's. -/
def Instr.isDataPath : Instr → Bool
  | .orcBegin _ => false
  | .orcSelect => false
  | .orcDone => false
  | i => Instr.isUop i

/-- A micro-operation of the data path moves the data path only. -/
theorem dataPath_of_exec (s t : State) (i : Instr) (hi : Instr.isDataPath i = true) (h : exec i s = .next t) :
    DataPath s t := by
  have huop : Instr.isUop i = true := by
    cases i with
    | compress => cases hi
    | encode _ => cases hi
    | clear => cases hi
    | _ => rfl
  rcases (exec_effect i s t huop h).kinds with hdata | ⟨hdr, rfl, -⟩ | ⟨rfl, -⟩ | ⟨rfl, -⟩
  · exact hdata
  · cases hi
  · cases hi
  · cases hi

/-- The engine's turn at a label of the data path whose micro-operation leads to a stage with less to do. -/
theorem AttemptStage.advance_of_exec {s t : State} {i : Instr} {w w' : Nat} (hp : s.seq.phase = .run)
    (hd : decodeUop s.seq.uop s.operands = .ok i) (hlive : attemptLive i = true → s.invariantsHold = true)
    (hi : Instr.isDataPath i = true) (hexec : exec i s = .next t) (hfaulted : t.faulted = s.faulted)
    (hstage : AttemptStage t w') (hw : w' < w) :
    ∃ t w', s.engineTurn = .next t ∧ DataPath s t ∧ t.faulted = s.faulted ∧ w' < w ∧ AttemptStage t w' :=
  ⟨t, w', by rw [State.engineTurn_of_fetch s i hp (s.fetch_of_decode i hd hlive), hexec],
    dataPath_of_exec s t i hi hexec, hfaulted, hw, hstage⟩

/-- Before ORC_SELECT every stage leads to a stage with less to do, without a fault. -/
theorem AttemptStage.advance {s : State} {w : Nat} (h : AttemptStage s w) (hs : Sound s)
    (hfits : s.lenSnap ≤ s.cfg.inCap) (hp : s.seq.phase = .run) (hsel : s.seq.uop ≠ Label.orcSelect) :
    ∃ t w', s.engineTurn = .next t ∧ DataPath s t ∧ t.faulted = s.faulted ∧ w' < w ∧ AttemptStage t w' := by
  obtain ⟨htagCap, hchanCap, hword⟩ := s.nb_bounds hs.legal hfits
  have hnb := s.nb_le
  obtain ⟨-, -, hatt, -, -, hchans⟩ := hs.canonical
  cases h with
  | splInit hl =>
    obtain ⟨w', hw, hstage⟩ := AttemptStage.of_splLoop s.splStart 0 s.splStart_splitting
    change w' ≤ s.lenSnap.toNat - 0 + 3 * s.bitBound + 7 at hw
    exact AttemptStage.advance_of_exec (i := .splInit) hp (by rw [hl]; rfl) (fun h => by cases h) rfl (exec_splInit s)
      (State.splLoop_faulted _ _) hstage (by omega)
  | split hl hk hsplit =>
    obtain ⟨hsucc, hle⟩ := word_succ_of_lt hk
    have hlen : s.lenSnap.toNat - s.seq.idx.toNat ≠ 0 := by omega
    by_cases hpm : s.pm = 3
    · rw [if_pos hpm] at hl
      obtain ⟨u, hexec, hu, hseq, hlenu, hfaulted⟩ := hsplit.splBits hpm hk hs.legal hfits
      obtain ⟨w', hw, hstage⟩ := AttemptStage.of_splLoop u (s.seq.idx + 1) (by rw [hsucc]; exact hu)
      rw [State.bitBound, hlenu, hsucc] at hw
      exact AttemptStage.advance_of_exec (i := .splBits s.seq.idx) hp (by rw [hl]; rfl) (fun h => by cases h) rfl hexec
        ((State.splLoop_faulted _ _).trans hfaulted) hstage (by rw [State.bitBound]; omega)
    · rw [if_neg hpm] at hl
      obtain ⟨u, hexec, hu, hseq, hlenu, hfaulted⟩ := hsplit.splByte hpm hk hs.legal hfits
      obtain ⟨w', hw, hstage⟩ := AttemptStage.of_splLoop u (s.seq.idx + 1) (by rw [hsucc]; exact hu)
      rw [State.bitBound, hlenu, hsucc] at hw
      exact AttemptStage.advance_of_exec (i := .splByte s.seq.idx) hp (by rw [hl]; rfl) (fun h => by cases h) rfl hexec
        ((State.splLoop_faulted _ _).trans hfaulted) hstage (by rw [State.bitBound]; omega)
  | cmInit hl =>
    exact AttemptStage.advance_of_exec (i := .cmInit) hp (by rw [hl]; rfl) (fun h => by cases h) rfl (exec_cmInit s) rfl
      (.pemInit rfl s.cmStart_modeling) (Nat.lt_succ_self (3 * s.bitBound + 6))
  | pemInit hl hm =>
    exact AttemptStage.advance_of_exec (i := .pemInit) hp (by rw [hl]; rfl) (fun h => by cases h) rfl (exec_pemInit s) rfl
      (.gceInit rfl hm) (Nat.lt_succ_self (3 * s.bitBound + 5))
  | gceInit hl hm =>
    obtain ⟨w', hw, hstage⟩ := AttemptStage.of_bitLoop s.gceStart 0 hm (Nat.zero_le _) s.gceStart_encoding
    change w' ≤ 2 * (s.bitBound - 0) + s.bitBound + 4 at hw
    exact AttemptStage.advance_of_exec (i := .gceInit) hp (by rw [hl]; rfl) (fun h => by cases h) rfl (exec_gceInit s)
      (State.bitLoop_faulted _ _) hstage (by omega)
  | cmBit hl hm hn he =>
    have hmodel := s.afterCmBit_modeling s.seq.idx (selectPlane s.pm s.modelSel s.seq.idx).1
      (contextOf (selectPlane s.pm s.modelSel s.seq.idx).1 s.cm (s.history (selectPlane s.pm s.modelSel s.seq.idx).1)) hn hm
    exact AttemptStage.advance_of_exec (i := .cmBit s.seq.idx) hp (by rw [hl]; rfl)
      (fun _ => s.invariantsHold_of_sound hs hm) rfl (exec_cmBit s s.seq.idx _ rfl) rfl (.pemStep rfl hmodel hn he)
      (Nat.lt_succ_self (2 * (s.bitBound - s.seq.idx.toNat) + s.bitBound + 3))
  | pemStep hl hm hn he =>
    obtain ⟨hsucc, hle⟩ := word_succ_of_lt hn
    obtain ⟨row, hexec, hnext⟩ := he.pemStep hn hs hfits s.wires.bit s.wires.ctx
    obtain ⟨w', hw, hstage⟩ := AttemptStage.of_bitLoop (s.afterPemStep s.wires.bit s.wires.ctx row) (s.seq.idx + 1) hm
      (by rw [hsucc]; exact hle) (by rw [hsucc]; exact hnext)
    rw [hsucc] at hw
    change w' ≤ 2 * (s.bitBound - (s.seq.idx.toNat + 1)) + s.bitBound + 4 at hw
    exact AttemptStage.advance_of_exec (i := .pemStep s.wires.bit s.wires.ctx) hp (by rw [hl]; rfl)
      (fun _ => s.invariantsHold_of_sound hs hm) rfl hexec (State.bitLoop_faulted _ _) hstage (by omega)
  | gceFinish hl hm he =>
    have hroom (c : BitVec 3) : (s.chan c).wpos.toNat + 1 ≤ s.cfg.chanCap := by
      have := le_sumChannels (fun d => (s.chan d).wpos.toNat) c
      have hbits := he.2.1
      unfold State.channelBits at hbits
      omega
    exact AttemptStage.advance_of_exec (i := .gceFinish) hp (by rw [hl]; rfl) (fun _ => s.invariantsHold_of_sound hs hm) rfl
      (exec_gceFinish_of_room s fun c _ => hroom c) rfl
      (.ilInit rfl hm (s.afterFinish_encoded s.nb.toNat hchans (by omega) he)) (Nat.lt_succ_self (s.bitBound + 3))
  | ilInit hl hm he =>
    obtain ⟨w', hw, hstage⟩ := AttemptStage.of_tagLoop s.ilStart 0 hm (Nat.zero_le _) (s.ilStart_interleaving s.nb.toNat he)
    change w' ≤ s.bitBound - 0 + 2 at hw
    exact AttemptStage.advance_of_exec (i := .ilInit) hp (by rw [hl]; rfl) (fun _ => s.invariantsHold_of_sound hs hm) rfl
      (exec_ilInit s) (State.tagLoop_faulted _ _) hstage (by omega)
  | ilTag hl hm ht hlimit hi =>
    obtain ⟨-, -, -, -, -, -, -, hcap, -⟩ := hs.sizes
    have hcap' : s.outLimit.toNat ≤ s.cfg.outCap.toNat := BitVec.le_def.1 hcap
    have htags := hi.1
    obtain ⟨c, u, -, hmove, hexec, hnext⟩ := hi.move hatt ht hword (by omega)
    obtain ⟨chans, att, opos, rfl⟩ : ∃ chans att opos, u = { s with chans := chans, att := att, opos := opos } :=
      ⟨_, _, _, State.moveBits_frame _ s u c hmove⟩
    have hsucc : (s.seq.idx + 1).toNat = s.seq.idx.toNat + 1 := by
      rw [word_succ, Nat.mod_eq_of_lt (by omega)]
    obtain ⟨w', hw, hstage⟩ := AttemptStage.of_tagLoop { s with chans := chans, att := att, opos := opos }
      (s.seq.idx + 1) hm
      (by rw [hsucc]; exact ht) (by rw [hsucc]; exact hnext)
    rw [hsucc] at hw
    change w' ≤ s.bitBound - (s.seq.idx.toNat + 1) + 2 at hw
    exact AttemptStage.advance_of_exec (i := .ilTag s.seq.idx) hp (by rw [hl]; rfl) (fun _ => s.invariantsHold_of_sound hs hm) rfl
      hexec (State.tagLoop_faulted _ _) hstage (by omega)
  | ilLen hl hm hi =>
    exact AttemptStage.advance_of_exec (i := .ilLen) hp (by rw [hl]; rfl) (fun _ => s.invariantsHold_of_sound hs hm) rfl
      (exec_ilLen s) rfl (.select rfl (hi.ended rfl)) (Nat.lt_succ_self 1)
  | select hl _ => exact absurd hl hsel

end Sys2Proof.Machine
end

section
/-! The search of a command: what holds from acceptance to completion of the best attempt so far and of the work left, and of every reachable state (46_orchestrator.md R165 to R177, 70_reset_and_hazards.md R209, R219). -/

namespace Sys2Proof.Machine

/-! ### What holds in a search -/

/-- `n` is the least of the lengths `f`, and `h` the least header that reaches it (46_orchestrator.md R177). -/
def IsShortest (f : BitVec 4 → Word) (h : BitVec 4) (n : Word) : Prop :=
  f h = n ∧ (∀ j, n ≤ f j) ∧ ∀ j, j < h → n < f j

/-- The best attempt is the shortest of those ended, with its header's nibble in its first byte; with none that has a length,
no length is known (46_orchestrator.md R170). -/
def State.bestLaw (s : State) : Prop :=
  (s.bestLen = .inf → ∀ j, s.attempt j = infWord) ∧
    ∀ n, s.bestLen = .bytes n → IsShortest s.attempt s.bestHdr n ∧ 0 < n.toNat ∧ topNibble s.best = s.bestHdr

/-- The attempt at hand, and in COMPRESS those after it, have no length yet (46_orchestrator.md R165 to R167). -/
def State.pending (s : State) : Prop :=
  ∀ j, (s.seq.kind = .compress → s.seq.hcur ≤ j) → s.attempt j = infWord

/-- What holds of a running command between its attempts and in them. -/
structure Searching (s : State) : Prop where
  fits : s.lenSnap ≤ s.cfg.inCap
  best : s.bestLaw
  noFault : s.faulted = false

/-- The attempts that follow the one at hand. -/
def State.attemptsLeft (s : State) : Nat := if s.seq.kind = .compress then 15 - s.seq.hcur.toNat else 0

/-- The most micro-operations an attempt takes, from ORC_BEGIN to ORC_SELECT. -/
def State.attemptWork (s : State) : Nat := s.lenSnap.toNat + 3 * s.bitBound + 9

/-- The stages of a command, each with how many micro-operations are left at most, ORC_DONE included. -/
inductive Stage (s : State) : Nat → Prop where
  | begin (hl : s.seq.uop = Label.orcBegin) (hpending : s.pending) : Stage s ((s.attemptsLeft + 1) * s.attemptWork + 1)
  | attempt (w : Nat) (hhdr : s.hdr = s.seq.hcur) (hpending : s.pending) (h : AttemptStage s w) :
      Stage s (s.attemptsLeft * s.attemptWork + w + 1)
  | done (hl : s.seq.uop = Label.orcDone) : Stage s 1

theorem Searching.of_quiet {s t : State} (h : Searching s) (hq : Quiet s t) : Searching t := by
  rw [hq.frame]
  exact ⟨h.fits, h.best, h.noFault⟩

theorem Stage.of_quiet {s t : State} {w : Nat} (h : Stage s w) (hq : Quiet s t) : Stage t w := by
  cases h with
  | begin hl hpending =>
    rw [hq.frame]
    exact .begin hl hpending
  | attempt w hhdr hpending h =>
    have ht := h.of_quiet hq
    rw [hq.frame] at ht ⊢
    exact .attempt w hhdr hpending ht
  | done hl =>
    rw [hq.frame]
    exact .done hl

/-- An attempt takes no more than its share, and at least ORC_SELECT. -/
theorem AttemptStage.lt_attemptWork {s : State} {w : Nat} (h : AttemptStage s w) : w < s.attemptWork := by
  unfold State.attemptWork
  cases h <;> omega

theorem AttemptStage.pos {s : State} {w : Nat} (h : AttemptStage s w) : 1 ≤ w := by
  cases h <;> omega

theorem Stage.pos {s : State} {w : Nat} (h : Stage s w) : 1 ≤ w := by
  cases h <;> omega

/-- What is known where an attempt is at ORC_SELECT. -/
theorem AttemptStage.ended {s : State} {w : Nat} (h : AttemptStage s w) (hl : s.seq.uop = Label.orcSelect) :
    s.attemptEnded := by
  cases h with
  | select _ he => exact he
  | split hl' =>
    rw [hl] at hl'
    split at hl' <;> exact absurd hl' (by decide)
  | _ hl' => exact absurd (hl.symm.trans hl') (by decide)

/-- What is known where an attempt is at IL_LEN. -/
theorem AttemptStage.interleaved {s : State} {w : Nat} (h : AttemptStage s w) (hl : s.seq.uop = Label.ilLen) :
    s.interleaving s.nb.toNat s.tags.length := by
  cases h with
  | ilLen _ _ hi => exact hi
  | split hl' =>
    rw [hl] at hl'
    split at hl' <;> exact absurd hl' (by decide)
  | _ hl' => exact absurd (hl.symm.trans hl') (by decide)

/-- Sixteen attempts bound every command (70_reset_and_hazards.md R219). -/
theorem Stage.le_bound {s : State} {w : Nat} (h : Stage s w) :
    w ≤ 16 * (18 + s.lenSnap.toNat + 13 * (8 * (s.lenSnap.toNat + 1))) + 1 := by
  have hleft : s.attemptsLeft ≤ 15 := by
    unfold State.attemptsLeft
    split <;> omega
  have hshare : s.attemptsLeft * s.attemptWork ≤ 15 * s.attemptWork := Nat.mul_le_mul_right _ hleft
  have hwork : s.attemptWork ≤ 18 + s.lenSnap.toNat + 13 * (8 * (s.lenSnap.toNat + 1)) := by
    unfold State.attemptWork State.bitBound
    omega
  cases h with
  | begin => rw [Nat.add_mul]; omega
  | attempt w _ _ h =>
    have := h.lt_attemptWork
    omega
  | done => omega

/-! ### The selection -/

/-- No length is 0xFFFFFFFF (10_state.md R30). -/
theorem Sound.lt_infWord {s : State} (hs : Sound s) (n : Word) (h : n ≤ s.cfg.outCap) : n < infWord := by
  obtain ⟨-, -, -, -, -, -, -, hcap, -⟩ := hs.legal
  rw [BitVec.le_def] at h
  rw [BitVec.lt_def]
  change n.toNat < 4294967295
  omega

/-- ORC_SELECT's lengths: the attempt's own at its header, the others kept. -/
theorem State.afterSelect_attempt (s : State) (j : BitVec 4) :
    s.afterSelect.attempt j = if j = s.hdr then lenWord s.alen else s.attempt j :=
  s.attempt_setAttempt s.hdr j _

/-- An attempt that becomes the best is the shortest so far, with its own first byte. -/
theorem State.afterSelect_bestLaw_of_keeps {s : State} (hs : Sound s) (hbest : s.bestLaw) (hpending : s.pending)
    (hended : s.attemptEnded) (hk : s.keeps = true) : s.afterSelect.bestLaw := by
  obtain ⟨hinf, hbytes⟩ := hbest
  obtain ⟨-, -, -, hwf, -, -⟩ := hs.canonical
  obtain ⟨-, -, -, -, -, -, -, -, -, halen, -⟩ := hs.sizes
  have hlen : s.afterSelect.bestLen = s.alen := if_pos hk
  have hdr : s.afterSelect.bestHdr = s.hdr := if_pos hk
  have hmem : s.afterSelect.best = s.keptBest := if_pos hk
  have hfirst (h : s.seq.kind = .encode ∨ s.seq.hcur = 0) (j : BitVec 4) : s.attempt j = infWord := by
    refine hpending j fun hkind => ?_
    rw [hkind] at h
    rw [h.resolve_left (by decide)]
    exact BitVec.le_def.2 (Nat.zero_le _)
  refine ⟨fun hnone j => ?_, fun n hn => ?_⟩
  · rw [hlen] at hnone
    rw [State.afterSelect_attempt, hnone]
    split
    · rfl
    · refine hfirst ?_ j
      rcases s.keeps_iff.mp hk with h | ⟨n, hn, -⟩
      · exact h
      · rw [hnone] at hn
        cases hn
  · rw [hlen] at hn
    have hlt := hs.lt_infWord n (halen n hn)
    have hother (j : BitVec 4) : n < s.attempt j := by
      rcases s.keeps_iff.mp hk with h | ⟨n', hn', hnone | ⟨m, hm, hnm⟩⟩
      · rw [hfirst h j]
        exact hlt
      · rw [hinf hnone j]
        exact hlt
      · rw [hn] at hn'
        cases hn'
        exact BitVec.lt_def.2 (Nat.lt_of_lt_of_le (BitVec.lt_def.1 hnm) (BitVec.le_def.1 ((hbytes m hm).1.2.1 j)))
    have hattempt (j : BitVec 4) : s.afterSelect.attempt j = if j = s.hdr then n else s.attempt j := by
      rw [State.afterSelect_attempt, hn]
      rfl
    obtain ⟨hpos, hnibble⟩ := hended.1 n hn
    refine ⟨⟨?_, fun j => ?_, fun j hj => ?_⟩, hpos, ?_⟩
    · rw [hattempt, hdr, if_pos rfl]
    · rw [hattempt]
      split
      · exact BitVec.le_refl n
      · exact BitVec.le_of_lt (hother j)
    · rw [hattempt, if_neg (by rw [hdr] at hj; rintro rfl; exact absurd hj (BitVec.lt_irrefl _))]
      exact hother j
    · rw [hmem, hdr, topNibble, s.keptBest_read n hn hwf, if_pos hpos]
      exact hnibble

/-- An attempt that does not become the best leaves the best one the shortest. -/
theorem State.afterSelect_bestLaw_of_not_keeps {s : State} (hs : Sound s) (hbest : s.bestLaw) (hpending : s.pending)
    (hhdr : s.hdr = s.seq.hcur) (hk : ¬ s.keeps = true) : s.afterSelect.bestLaw := by
  obtain ⟨hinf, hbytes⟩ := hbest
  obtain ⟨-, -, -, -, -, -, -, -, -, -, hcap⟩ := hs.sizes
  have hlen : s.afterSelect.bestLen = s.bestLen := if_neg hk
  have hdr : s.afterSelect.bestHdr = s.bestHdr := if_neg hk
  have hmem : s.afterSelect.best = s.best := if_neg hk
  rw [s.keeps_iff, not_or, not_or] at hk
  obtain ⟨⟨hencode, -⟩, hlonger⟩ := hk
  refine ⟨fun hnone j => ?_, fun m hm => ?_⟩
  · rw [hlen] at hnone
    have halen : s.alen = .inf := by
      cases ha : s.alen with
      | inf => rfl
      | bytes n => exact absurd ⟨n, ha, .inl hnone⟩ hlonger
    rw [State.afterSelect_attempt, halen]
    split
    · rfl
    · exact hinf hnone j
  · rw [hlen] at hm
    obtain ⟨⟨hat, hleast, hbelow⟩, hpos, hnibble⟩ := hbytes m hm
    have hlt := hs.lt_infWord m (hcap m hm)
    have hearlier : s.bestHdr < s.hdr := by
      by_contra hnot
      have hinfBest : s.attempt s.bestHdr = infWord := by
        refine hpending s.bestHdr fun _ => ?_
        rw [← hhdr]
        exact BitVec.not_lt.1 hnot
      rw [hat] at hinfBest
      rw [hinfBest] at hlt
      exact absurd hlt (BitVec.lt_irrefl _)
    have hnotShorter : m ≤ lenWord s.alen := by
      cases ha : s.alen with
      | inf => exact BitVec.le_of_lt hlt
      | bytes n => exact BitVec.not_lt.1 fun hnm => hlonger ⟨n, ha, .inr ⟨m, hm, hnm⟩⟩
    refine ⟨⟨?_, fun j => ?_, fun j hj => ?_⟩, hpos, ?_⟩
    · rw [State.afterSelect_attempt, hdr, if_neg (by intro h; rw [h] at hearlier; exact absurd hearlier (BitVec.lt_irrefl _))]
      exact hat
    · rw [State.afterSelect_attempt]
      split
      · exact hnotShorter
      · exact hleast j
    · rw [hdr] at hj
      rw [State.afterSelect_attempt, if_neg (by rintro rfl; exact absurd (BitVec.lt_trans hearlier hj) (BitVec.lt_irrefl _))]
      exact hbelow j hj
    · rw [hmem, hdr]
      exact hnibble

/-- ORC_SELECT keeps the best attempt the shortest of those ended (46_orchestrator.md R170). -/
theorem State.afterSelect_bestLaw {s : State} (hs : Sound s) (hbest : s.bestLaw) (hpending : s.pending)
    (hhdr : s.hdr = s.seq.hcur) (hended : s.attemptEnded) : s.afterSelect.bestLaw := by
  by_cases hk : s.keeps = true
  · exact State.afterSelect_bestLaw_of_keeps hs hbest hpending hended hk
  · exact State.afterSelect_bestLaw_of_not_keeps hs hbest hpending hhdr hk

/-- After ORC_SELECT the next attempt begins, with one less to follow, or the command is done (46_orchestrator.md R166, R167). -/
theorem Stage.of_nextAttempt (s : State) (hpending : s.pending) (hhdr : s.hdr = s.seq.hcur) :
    ∃ w, w < s.attemptsLeft * s.attemptWork + 1 + 1 ∧ Stage s.afterSelect.nextAttempt w := by
  unfold State.nextAttempt
  split
  next hmore =>
    obtain ⟨hkind, hlast⟩ := hmore
    change s.seq.kind = .compress at hkind
    change s.seq.hcur ≠ 15 at hlast
    have hsucc : (s.seq.hcur + 1).toNat = s.seq.hcur.toNat + 1 := by
      have hne : s.seq.hcur.toNat ≠ 15 := fun h => hlast (BitVec.eq_of_toNat_eq h)
      have := s.seq.hcur.isLt
      rw [BitVec.toNat_add, Nat.mod_eq_of_lt]
      · rfl
      · change s.seq.hcur.toNat + 1 < 16
        omega
    refine ⟨_, ?work, .begin rfl fun j hj => ?pending⟩
    case pending =>
      have hj' : s.seq.hcur + 1 ≤ j := hj hkind
      rw [BitVec.le_def, hsucc] at hj'
      change s.afterSelect.attempt j = infWord
      rw [State.afterSelect_attempt, hhdr, if_neg (by rintro rfl; omega)]
      exact hpending j fun _ => BitVec.le_def.2 (by omega)
    have hleft : s.attemptsLeft = 15 - (s.seq.hcur.toNat + 1) + 1 := by
      have : (s.seq.hcur + 1).toNat < 16 := (s.seq.hcur + 1).isLt
      rw [State.attemptsLeft, if_pos hkind]
      omega
    change ((if s.seq.kind = .compress then 15 - (s.seq.hcur + 1).toNat else 0) + 1) * s.attemptWork + 1 < _
    rw [if_pos hkind, hsucc, hleft]
    exact Nat.lt_succ_self _
  next => exact ⟨1, by omega, .done rfl⟩

/-! ### The engine's turn -/

/-- The command goes on: what the host sees of results, the output, and the host's moves stay. -/
structure Continues (s t : State) : Prop where
  phase : t.seq.phase = s.seq.phase
  status : t.status = s.status
  outLen : t.outLen = s.outLen
  resultHdr : t.resultHdr = s.resultHdr
  outMem : t.outMem = s.outMem
  host : t.host = s.host

/-- ORC_SELECT, with an attempt that ended, goes on with the search. -/
theorem Stage.turn_select {s : State} (hs : Sound s) (hsearch : Searching s) (hp : s.seq.phase = .run)
    (hl : s.seq.uop = Label.orcSelect) (hhdr : s.hdr = s.seq.hcur) (hpending : s.pending) (hended : s.attemptEnded) :
    ∃ t, s.engineTurn = .next t ∧ Continues s t ∧ Searching t ∧
      ∃ w, w < s.attemptsLeft * s.attemptWork + 1 + 1 ∧ Stage t w := by
  obtain ⟨-, -, -, -, -, -, -, -, -, halen, -⟩ := hs.sizes
  have hexec := exec_orcSelect_of_room s fun _ => s.bestRoom_iff.mpr halen
  have hbest := State.afterSelect_bestLaw hs hsearch.best hpending hhdr hended
  have hstage := Stage.of_nextAttempt s hpending hhdr
  obtain ⟨hdr, l, j, hnext⟩ := s.afterSelect.nextAttempt_goto
  rw [hnext] at hexec hstage
  refine ⟨{ s.afterSelect with seq := { s.seq with hcur := hdr, uop := l, idx := j } }, ?_,
    ⟨rfl, rfl, rfl, rfl, rfl, rfl⟩, ⟨hsearch.fits, hbest, hsearch.noFault⟩, hstage⟩
  rw [State.engineTurn_of_fetch s .orcSelect hp (s.fetch_of_decode _ (by rw [hl]; rfl) fun h => by cases h), hexec]
  rfl

/-- The turn of a running engine never stops and never faults: it goes on with less to do, or completes the command. -/
theorem Stage.turn {s : State} {w : Nat} (h : Stage s w) (hs : Sound s) (hsearch : Searching s) (hp : s.seq.phase = .run) :
    (∃ t, s.engineTurn = .next t ∧ Continues s t ∧ Searching t ∧ ∃ w', w' < w ∧ Stage t w') ∨
    (s.seq.uop = Label.orcDone ∧ ((∃ n, s.bestLen = .bytes n ∧ s.engineTurn = .next (s.afterDone n)) ∨
      ∃ e, s.engineTurn = .next (s.failCommand e))) := by
  cases h with
  | begin hl hpending =>
    left
    refine ⟨{ s with hdr := s.seq.hcur, seq := { s.seq with hcur := s.seq.hcur, uop := Label.splInit, idx := 0 } }, ?_,
      ⟨rfl, rfl, rfl, rfl, rfl, rfl⟩, ⟨hsearch.fits, hsearch.best, hsearch.noFault⟩, _, ?_,
      .attempt _ rfl hpending (.splInit rfl)⟩
    · rw [State.engineTurn_of_fetch s (.orcBegin s.seq.hcur) hp (s.fetch_of_decode _ (by rw [hl]; rfl) fun h => by cases h)]
      exact exec_orcBegin s s.seq.hcur
    · change s.attemptsLeft * s.attemptWork + (s.lenSnap.toNat + 3 * s.bitBound + 8) + 1 < _
      rw [Nat.add_mul, Nat.one_mul]
      have hwork : s.attemptWork = s.lenSnap.toNat + 3 * s.bitBound + 9 := rfl
      omega
  | attempt w hhdr hpending h =>
    left
    by_cases hl : s.seq.uop = Label.orcSelect
    · obtain ⟨t, hturn, hcont, ht, w', hw, hstage⟩ := Stage.turn_select hs hsearch hp hl hhdr hpending (h.ended hl)
      have hpos := h.pos
      exact ⟨t, hturn, hcont, ht, w', by omega, hstage⟩
    · obtain ⟨t, w', hturn, hdata, hfaulted, hw, hstage⟩ := h.advance hs hsearch.fits hp hl
      have hnoFault : t.faulted = false := hfaulted.trans hsearch.noFault
      rw [hdata] at hnoFault hstage
      refine ⟨t, hturn, ?_⟩
      rw [hdata]
      exact ⟨⟨rfl, rfl, rfl, rfl, rfl, rfl⟩, ⟨hsearch.fits, hsearch.best, hnoFault⟩, _,
        Nat.add_lt_add_right (Nat.add_lt_add_left hw (s.attemptsLeft * s.attemptWork)) 1, .attempt w' hhdr hpending hstage⟩
  | done hl =>
    refine .inr ⟨hl, ?_⟩
    have hfetch := s.fetch_of_decode .orcDone (by rw [hl]; rfl) fun h => by cases h
    rw [State.engineTurn_of_fetch s .orcDone hp hfetch]
    cases hb : s.bestLen with
    | bytes n => exact .inl ⟨n, rfl, exec_orcDone_of_bytes s n hb⟩
    | inf => exact .inr ⟨_, exec_orcDone_of_inf s hb⟩

/-! ### Every reachable state -/

/-- What holds in every state a block with legal parameters can come to. -/
structure Invariant (s : State) : Prop where
  sound : Sound s
  lawful : s.statusLawful
  noFault : s.faulted = false
  shortest : s.status.done = true → s.status.err = false → IsShortest s.attempt s.resultHdr s.outLen
  header : s.outLen ≠ 0 → topNibble s.outMem = s.resultHdr
  running : s.seq.phase = .run → Searching s ∧ ∃ w, Stage s w

/-- The state after reset, with any legal parameters, is sound. -/
theorem State.start_sound (cfg : Config) (prog : List HostMove) (h : legalConfig cfg) : Sound (State.start cfg prog) where
  legal := h
  canonical := State.deviceReset_obeys (State.start cfg prog) canonicalLaw cfg (canonicalLaw_kept cfg)
  sizes := (State.withinSizes_iff _).mpr ⟨State.deviceReset_obeys (State.start cfg prog) (sizeLaw cfg) cfg (sizeLaw_kept cfg),
    Nat.zero_le _, word_zero_le _, word_zero_le _, fun n hn => by cases hn; exact word_zero_le _, lenWithin_inf _⟩
  units := State.reset_unitsLawful

/-- An idle state without a result, and without a fault, meets the invariant. -/
theorem Invariant.of_noResult {s : State} (hs : Sound s) (hlawful : s.statusLawful) (hfault : s.faulted = false)
    (hidle : s.seq.phase = .idle) (hstatus : s.status.done = false ∨ s.status.err = true) (hlen : s.outLen = 0) :
    Invariant s where
  sound := hs
  lawful := hlawful
  noFault := hfault
  shortest hdone herr := by
    rcases hstatus with h | h
    · exact absurd (h.symm.trans hdone) (by decide)
    · exact absurd (h.symm.trans herr) (by decide)
  header h := absurd hlen h
  running hp := absurd (hidle.symm.trans hp) (by decide)

/-- What a step keeps anyway. -/
theorem Sound.step {s t : State} (hs : Sound s) (hstep : step s = .next t) : Sound t := by
  obtain ⟨hsizes, hcfg⟩ := stepStaysWithinSizes s t hs.sizes hstep
  obtain ⟨-, -, -, -, -, -, -, -, hrows⟩ := hs.legal
  exact ⟨hcfg ▸ hs.legal, step_keeps_canonical s t hs.canonical hstep, hsizes, stepKeepsUnitsLawful s t hrows hs.units hstep⟩

/-- Acceptance begins the search. -/
theorem Invariant.of_accept {s : State} (h : Invariant s) (kind : CmdKind) (hdr : BitVec 4)
    (hsound : Sound (s.accept kind hdr)) : Invariant (s.accept kind hdr) := by
  have hlawful := s.accept_statusLawful kind hdr
  by_cases hfits : s.inLen ≤ s.cfg.inCap
  · rw [State.accept_of_fitting s kind hdr hfits] at hsound hlawful ⊢
    have hinf (j : BitVec 4) : (s.snapshot kind hdr).attempt j = infWord := s.snapshot_attempt kind hdr j
    exact ⟨hsound, hlawful, rfl, fun hdone => (by cases hdone), h.header,
      fun _ => ⟨⟨hfits, ⟨fun _ => hinf, fun n hn => (by cases hn)⟩, rfl⟩, _, .begin rfl fun j _ => hinf j⟩⟩
  · rw [State.accept_of_oversized s kind hdr (BitVec.not_le.1 hfits)] at hsound hlawful ⊢
    exact .of_noResult hsound hlawful h.noFault rfl (.inr rfl) rfl

/-- Completion shows the best attempt (46_orchestrator.md R171, R177). -/
theorem Invariant.of_afterDone {s : State} (h : Invariant s) (hbest : s.bestLaw) (n : Word) (hn : s.bestLen = .bytes n)
    (hsound : Sound (s.afterDone n)) (hlawful : (s.afterDone n).statusLawful) : Invariant (s.afterDone n) := by
  obtain ⟨hshort, hpos, hnibble⟩ := hbest.2 n hn
  obtain ⟨-, hwf, -⟩ := h.sound.canonical
  refine ⟨hsound, hlawful, h.noFault, fun _ _ => hshort, fun _ => ?_, fun hp => (by cases hp)⟩
  change topNibble (Memory.copy s.best n.toNat s.outMem) = s.bestHdr
  rw [topNibble, Memory.read_copy _ _ _ hwf, if_pos hpos]
  exact hnibble

theorem Invariant.of_quiet {s t : State} (h : Invariant s) (hq : Quiet s t) (hsound : Sound t) (hlawful : t.statusLawful) :
    Invariant t := by
  have hrun : t.seq.phase = .run → Searching t ∧ ∃ w, Stage t w := fun hp => by
    rw [hq.frame] at hp
    obtain ⟨hsearch, w, hstage⟩ := h.running hp
    exact ⟨hsearch.of_quiet hq, w, hstage.of_quiet hq⟩
  rw [hq.frame] at hsound hlawful hrun ⊢
  exact ⟨hsound, hlawful, h.noFault, h.shortest, h.header, hrun⟩

/-- A running engine's turn keeps the invariant. -/
theorem Invariant.of_turn {s t : State} (h : Invariant s) (hp : s.seq.phase = .run) (hturn : s.engineTurn = .next t)
    (hsound : Sound t) (hlawful : t.statusLawful) : Invariant t := by
  obtain ⟨hsearch, w, hstage⟩ := h.running hp
  obtain ⟨hbusy, hnoResult, -⟩ := h.lawful
  obtain ⟨hnotDone, -⟩ := hnoResult (hbusy.mpr hp)
  rcases hstage.turn h.sound hsearch hp with ⟨u, hu, hcont, hsearch', w', -, hstage'⟩ | ⟨-, ⟨n, hn, hu⟩ | ⟨e, hu⟩⟩
  · cases hu.symm.trans hturn
    refine ⟨hsound, hlawful, hsearch'.noFault, fun hdone => ?_, fun hlen => ?_, fun _ => ⟨hsearch', w', hstage'⟩⟩
    · rw [hcont.status, hnotDone] at hdone
      cases hdone
    · rw [hcont.outLen] at hlen
      rw [hcont.outMem, hcont.resultHdr]
      exact h.header hlen
  · cases hu.symm.trans hturn
    exact h.of_afterDone hsearch.best n hn hsound hlawful
  · cases hu.symm.trans hturn
    exact .of_noResult hsound hlawful h.noFault rfl (.inr rfl) rfl

/-- Every step keeps the invariant. -/
theorem Invariant.step {s t : State} (h : Invariant s) (hstep : step s = .next t) : Invariant t := by
  have hsound := h.sound.step hstep
  have hlawful := step_keeps_statusLawful s t h.lawful hstep
  rcases step_kinds s t hstep with ⟨rest, -, rfl⟩ | ⟨w, rest, -, hidle, hcmd⟩ | hquiet | ⟨moves, hp, hturn⟩
  · exact .of_noResult hsound hlawful rfl rfl (.inl rfl) rfl
  · have hquiet := Quiet.ofHost s rest
    have hmoved : Invariant { s with host := rest } :=
      h.of_quiet hquiet ⟨h.sound.legal, h.sound.canonical, h.sound.sizes, h.sound.units⟩ h.lawful
    have hnotRun : s.seq.phase = .idle := by
      cases hp : s.seq.phase with
      | idle => rfl
      | run => exact absurd (hidle.symm.trans (h.lawful.1.mpr hp)) (by decide)
    rcases hcmd with ⟨kind, hdr, rfl⟩ | ⟨-, rfl⟩ | rfl
    · exact hmoved.of_accept kind hdr hsound
    · exact ⟨hsound, hlawful, h.noFault, fun hdone => (by cases hdone), h.header,
        fun hp => absurd (hnotRun.symm.trans hp) (by decide)⟩
    · exact .of_noResult hsound hlawful h.noFault hnotRun (.inr rfl) rfl
  · exact h.of_quiet hquiet hsound hlawful
  · have hmoved : Invariant { s with host := moves } :=
      h.of_quiet (Quiet.ofHost s moves) ⟨h.sound.legal, h.sound.canonical, h.sound.sizes, h.sound.units⟩ h.lawful
    exact hmoved.of_turn hp hturn hsound hlawful

/-- Every reachable state meets the invariant. -/
theorem Reachable.invariant {s : State} (h : Reachable s) : Invariant s := by
  induction h with
  | start cfg prog hlegal =>
    exact .of_noResult (State.start_sound cfg prog hlegal) State.reset_statusLawful rfl rfl (.inl rfl) rfl
  | step s t _ hstep ih => exact ih.step hstep

/-- The stage of a reachable state that runs at a label of an attempt. -/
theorem Reachable.attemptStage {s : State} (h : Reachable s) (hp : s.seq.phase = .run)
    (hbegin : s.seq.uop ≠ Label.orcBegin) (hdone : s.seq.uop ≠ Label.orcDone) : ∃ w, AttemptStage s w := by
  obtain ⟨-, w, hstage⟩ := h.invariant.running hp
  cases hstage with
  | begin hl => exact absurd hl hbegin
  | attempt w _ _ hattempt => exact ⟨w, hattempt⟩
  | done hl => exact absurd hl hdone

/-! ### The obligations -/

/-- Settles O54: no stage of a command faults. -/
theorem internalFaultIsUnreachable : Obligations.InternalFaultIsUnreachable := fun _ h => h.invariant.noFault

/-- Settles O55: at IL_LEN every tag's codeword has been moved, and no channel has another bit. -/
theorem interleaverConsumesExactly : Obligations.InterleaverConsumesExactly := by
  intro s h hp hl
  obtain ⟨w, hstage⟩ := h.attemptStage hp (by rw [hl]; decide) (by rw [hl]; decide)
  have hi := hstage.interleaved hl
  obtain ⟨hread, hopos⟩ := hi.consumed
  obtain ⟨htags, hcap, hbits, -⟩ := hi
  exact ⟨hread, hopos, htags, hcap, hbits⟩

/-- Settles O56: the early stop and the limit both need an output of more than OUT_LIMIT bytes. -/
theorem sufficientLimitDiscardsNothing : Obligations.SufficientLimitDiscardsNothing := by
  intro s h hp hl
  obtain ⟨w, hstage⟩ := h.attemptStage hp (by rw [hl]; decide) (by rw [hl]; decide)
  exact (hstage.ended hl).2

/-- Settles O57: the result is the best attempt of the search. -/
theorem resultIsTheShortestAttempt : Obligations.ResultIsTheShortestAttempt := fun _ h => h.invariant.shortest

/-- Settles O58: the output is the best attempt's, which IL_INIT starts with its header. -/
theorem outputStartsWithItsHeader : Obligations.OutputStartsWithItsHeader := fun _ h => h.invariant.header

/-- With no host move left a step is the engine's turn. -/
theorem step_of_noMove (s : State) (h : s.host = []) : step s = s.engineTurn := by
  simp only [step, State.turn, h]

/-- With no host move left a running command completes within the work left. -/
theorem Stage.completes (w : Nat) : ∀ s : State, Invariant s → s.seq.phase = .run → s.host = [] → Stage s w →
    ∃ n t, n ≤ w ∧ Host.Core.run Sys2Proof.core n s = .next t ∧ t.seq.phase = .idle ∧ t.status.done = true := by
  induction w using Nat.strong_induction_on with
  | _ w ih =>
    intro s h hp hhost hstage
    have honce (t : State) (hturn : s.engineTurn = .next t) (n : Nat) :
        Host.Core.run Sys2Proof.core (n + 1) s = Host.Core.run Sys2Proof.core n t := by
      have hstep : Sys2Proof.core.step s = .next t := (step_of_noMove s hhost).trans hturn
      simp only [Host.Core.run, hstep]
    have hpos := hstage.pos
    rcases hstage.turn h.sound (h.running hp).1 hp with ⟨t, hturn, hcont, -, w', hw, hstage'⟩ | ⟨-, ⟨n, -, hturn⟩ | ⟨e, hturn⟩⟩
    · have hstep : step s = .next t := (step_of_noMove s hhost).trans hturn
      obtain ⟨n, u, hn, hrun, hu⟩ := ih w' hw t (h.step hstep) (hcont.phase.trans hp) (hcont.host.trans hhost) hstage'
      exact ⟨n + 1, u, by omega, (honce t hturn n).trans hrun, hu⟩
    · exact ⟨1, _, hpos, honce _ hturn 0, rfl, rfl⟩
    · exact ⟨1, _, hpos, honce _ hturn 0, rfl, rfl⟩

/-- Settles O59: the work left, which every turn of the engine makes less, is within the bound. -/
theorem everyCommandCompletes : Obligations.EveryCommandCompletes := by
  intro s h hp hhost
  obtain ⟨-, w, hstage⟩ := h.invariant.running hp
  obtain ⟨n, t, hn, hrun, ht⟩ := Stage.completes w s h.invariant hp hhost hstage
  exact ⟨n, t, hn.trans hstage.le_bound, hrun, ht⟩

end Sys2Proof.Machine
end

section
/-! Two runs of one command: what the second machine may have left over from earlier at each stage of an attempt, that every micro-operation reads none of it, and that both show the same result (46_orchestrator.md R178, 70_reset_and_hazards.md R208). -/

namespace Sys2Proof.Machine

/-! ### Leftovers

Each stage's `s` with what a command neither has set by then nor reads from then on taken from a state `o`; a later stage takes less.
-/

/-- While tags are moved: what no micro-operation of an attempt reads before it sets it. -/
def State.atMoving (s o : State) : State :=
  { s with
    status := { s.status with ovr := o.status.ovr }
    inLen := o.inLen, outMax := o.outMax, outLen := o.outLen, resultHdr := o.resultHdr, ie := o.ie
    inMem := o.inMem, outMem := o.outMem, alen := o.alen, best := o.best, wires := o.wires
    reads := o.reads, draws := o.draws }

/-- While bits are encoded, and at IL_INIT: ATT and OPOS too. -/
def State.atCoding (s o : State) : State := { s.atMoving o with att := o.att, opos := o.opos }

/-- At GCE_INIT: the channels, counters and tags too. -/
def State.atGceInit (s o : State) : State := { s.atCoding o with runcnt := o.runcnt, chans := o.chans, tags := o.tags }

/-- At PEM_INIT: the slots too. -/
def State.atPemInit (s o : State) : State := { s.atGceInit o with slots := o.slots }

/-- While the planes are filled: the modeler and the planes too, of which bits and write cursors are compared by number. -/
def State.atSplitting (s o : State) : State :=
  { s.atPemInit o with planes := o.planes, modelSel := o.modelSel, nbit := o.nbit, hist := o.hist }

/-- At SPL_INIT: SPLIT_SEL too. -/
def State.atSplInit (s o : State) : State := { s.atSplitting o with splitSel := o.splitSel }

/-- At ORC_SELECT: the attempt's length is set, and its bytes are compared where it has one. -/
def State.atSelect (s o : State) : State := { s.atSplInit o with alen := s.alen }

/-- Between attempts: HDR too. -/
def State.atBegin (s o : State) : State := { s.atSplInit o with hdr := o.hdr }

/-- Two planes hold the same bits. -/
def samePlanes (s t : State) : Prop := ∀ p, (t.plane p).mem = (s.plane p).mem ∧ (t.plane p).wpos = (s.plane p).wpos

/-- Two machines at the same place of the same command, each with its own leftovers. -/
inductive Twin (s t : State) : Prop where
  | begin (hl : s.seq.uop = Label.orcBegin) (h : ∃ o, t = s.atBegin o)
  | splInit (hl : s.seq.uop = Label.splInit) (h : ∃ o, t = s.atSplInit o)
  | split (hl : s.seq.uop = if s.pm = 3 then Label.splBits else Label.splByte) (hk : s.seq.idx < s.lenSnap)
      (h : ∃ o, t = s.atSplitting o) (hplanes : samePlanes s t)
  | cmInit (hl : s.seq.uop = Label.cmInit) (h : ∃ o, t = s.atSplitting o) (hplanes : samePlanes s t)
  | pemInit (hl : s.seq.uop = Label.pemInit) (h : ∃ o, t = s.atPemInit o)
  | gceInit (hl : s.seq.uop = Label.gceInit) (h : ∃ o, t = s.atGceInit o)
  | cmBit (hl : s.seq.uop = Label.cmBit) (h : ∃ o, t = s.atCoding o)
  | pemStep (hl : s.seq.uop = Label.pemStep) (h : ∃ o, t = s.atCoding o) (hbit : t.wires.bit = s.wires.bit)
      (hctx : t.wires.ctx = s.wires.ctx)
  | gceFinish (hl : s.seq.uop = Label.gceFinish) (h : ∃ o, t = s.atCoding o)
  | ilInit (hl : s.seq.uop = Label.ilInit) (h : ∃ o, t = s.atCoding o)
  | ilTag (hl : s.seq.uop = Label.ilTag) (h : ∃ o, t = s.atMoving o)
  | ilLen (hl : s.seq.uop = Label.ilLen) (h : ∃ o, t = s.atMoving o)
  | select (hl : s.seq.uop = Label.orcSelect) (h : ∃ o, t = s.atSelect o) (hatt : ∀ n, s.alen = .bytes n → t.att = s.att)
  | done (hl : s.seq.uop = Label.orcDone) (h : ∃ o, t = s.atBegin o)

/-- Whatever the place, the two machines agree on what lies outside the attempt. -/
theorem Twin.atBegin {s t : State} (h : Twin s t) : ∃ o, t = s.atBegin o := by
  cases h with
  | split _ _ h _ => obtain ⟨o, rfl⟩ := h; exact ⟨s.atSplitting o, rfl⟩
  | cmInit _ h _ => obtain ⟨o, rfl⟩ := h; exact ⟨s.atSplitting o, rfl⟩
  | pemStep _ h _ _ => obtain ⟨o, rfl⟩ := h; exact ⟨s.atCoding o, rfl⟩
  | select _ h _ => obtain ⟨o, rfl⟩ := h; exact ⟨s.atSelect o, rfl⟩
  | begin _ h => exact h
  | done _ h => exact h
  | splInit _ h => obtain ⟨o, rfl⟩ := h; exact ⟨s.atSplInit o, rfl⟩
  | pemInit _ h => obtain ⟨o, rfl⟩ := h; exact ⟨s.atPemInit o, rfl⟩
  | gceInit _ h => obtain ⟨o, rfl⟩ := h; exact ⟨s.atGceInit o, rfl⟩
  | cmBit _ h => obtain ⟨o, rfl⟩ := h; exact ⟨s.atCoding o, rfl⟩
  | gceFinish _ h => obtain ⟨o, rfl⟩ := h; exact ⟨s.atCoding o, rfl⟩
  | ilInit _ h => obtain ⟨o, rfl⟩ := h; exact ⟨s.atCoding o, rfl⟩
  | ilTag _ h => obtain ⟨o, rfl⟩ := h; exact ⟨s.atMoving o, rfl⟩
  | ilLen _ h => obtain ⟨o, rfl⟩ := h; exact ⟨s.atMoving o, rfl⟩

/-- At ORC_SELECT the two machines agree on what it reads. -/
theorem Twin.select_of_label {s t : State} (h : Twin s t) (hl : s.seq.uop = Label.orcSelect) :
    (∃ o, t = s.atSelect o) ∧ ∀ n, s.alen = .bytes n → t.att = s.att := by
  cases h with
  | select _ h hatt => exact ⟨h, hatt⟩
  | split hl' =>
    rw [hl] at hl'
    split at hl' <;> exact absurd hl' (by decide)
  | _ hl' => exact absurd (hl.symm.trans hl') (by decide)

/-! ### The loops and the fault -/

/-- INTERNAL_FAULT in both machines: the attempt has no length. -/
theorem Twin.of_internalFault (s o : State) : Twin s.internalFault (s.atSplInit o).internalFault :=
  .select rfl ⟨(s.atSplInit o).internalFault, rfl⟩ fun n hn => by cases hn

theorem Twin.of_splLoop (s t : State) (k : Word) (h : t = s.atSplitting t) (hplanes : samePlanes s t) :
    Twin (s.splLoop k) (t.splLoop k) := by
  obtain ⟨o, rfl⟩ : ∃ o, t = s.atSplitting o := ⟨t, h⟩
  by_cases hk : k < s.lenSnap
  · rw [State.splLoop, if_pos hk, State.splLoop, if_pos (show k < (s.atSplitting o).lenSnap from hk)]
    exact .split rfl hk ⟨(s.atSplitting o).goto (if s.pm = 3 then Label.splBits else Label.splByte) k, rfl⟩ hplanes
  · rw [State.splLoop, if_neg hk, State.splLoop, if_neg (show ¬ k < (s.atSplitting o).lenSnap from hk)]
    exact .cmInit rfl ⟨(s.atSplitting o).goto Label.cmInit 0, rfl⟩ hplanes

theorem Twin.of_bitLoop (s o : State) (n : Word) : Twin (s.bitLoop n) ((s.atCoding o).bitLoop n) := by
  by_cases hn : n < s.nb
  · rw [State.bitLoop, if_pos hn, State.bitLoop, if_pos (show n < (s.atCoding o).nb from hn)]
    exact .cmBit rfl ⟨(s.atCoding o).goto Label.cmBit n, rfl⟩
  · rw [State.bitLoop, if_neg hn, State.bitLoop, if_neg (show ¬ n < (s.atCoding o).nb from hn)]
    exact .gceFinish rfl ⟨(s.atCoding o).goto Label.gceFinish 0, rfl⟩

theorem Twin.of_tagLoop (s o : State) (k : Word) : Twin (s.tagLoop k) ((s.atMoving o).tagLoop k) := by
  unfold State.tagLoop
  by_cases hk : k.toNat < s.tags.length
  · rw [if_pos hk, if_pos (show k.toNat < (s.atMoving o).tags.length from hk)]
    by_cases hover : s.overLimit = true
    · rw [if_pos hover, if_pos (show (s.atMoving o).overLimit = true from hover)]
      exact .select rfl ⟨{ (s.atMoving o).goto Label.orcSelect 0 with alen := .inf }, rfl⟩ fun n hn => by cases hn
    · rw [if_neg hover, if_neg (show ¬ (s.atMoving o).overLimit = true from hover)]
      exact .ilTag rfl ⟨(s.atMoving o).goto Label.ilTag k, rfl⟩
  · rw [if_neg hk, if_neg (show ¬ k.toNat < (s.atMoving o).tags.length from hk)]
    exact .ilLen rfl ⟨(s.atMoving o).goto Label.ilLen 0, rfl⟩

/-! ### The micro-operations of the data path -/

/-- Both machines' micro-operation answers a next state, again at the same place: the fault, or one of `Twin`. -/
def TwinExec (i : Instr) (s t : State) : Prop :=
  (exec i s = .next s.internalFault ∧ exec i t = .next t.internalFault) ∨
    ∃ s' t', exec i s = .next s' ∧ exec i t = .next t' ∧ Twin s' t'

/-- The bits of a buffer after an append depend on its bits and its write cursor. -/
theorem BitBuf.appendAll_congr (b b' : BitBuf) (vs : List Bit) (hmem : b'.mem = b.mem) (hwpos : b'.wpos = b.wpos) :
    (b'.appendAll vs).mem = (b.appendAll vs).mem ∧ (b'.appendAll vs).wpos = (b.appendAll vs).wpos := by
  induction vs generalizing b b' with
  | nil => exact ⟨hmem, hwpos⟩
  | cons v vs ih =>
    rw [BitBuf.appendAll_cons, BitBuf.appendAll_cons]
    refine ih _ _ ?_ ?_
    · simp only [BitBuf.append, hmem, hwpos]
    · simp only [BitBuf.append, hwpos]

theorem twinExec_splByte (s o : State) (k : Word) (hplanes : samePlanes s (s.atSplitting o))
    (hin : Memory.read o.inMem k.toNat = Memory.read s.inMem k.toNat) : TwinExec (.splByte k) s (s.atSplitting o) := by
  obtain ⟨hmem, hwpos⟩ := hplanes (nextSel s.pm s.splitSel k)
  by_cases hroom : k < s.cfg.inCap ∧ (s.plane (nextSel s.pm s.splitSel k)).wpos.toNat + 8 ≤ 8 * s.cfg.planeCap
  · have hroom' : ((s.atSplitting o).plane (nextSel s.pm s.splitSel k)).wpos.toNat + 8 ≤ 8 * s.cfg.planeCap := by
      rw [hwpos]
      exact hroom.2
    refine .inr ⟨_, _, exec_splByte_of_room s k hroom.1 hroom.2, exec_splByte_of_room (s.atSplitting o) k hroom.1 hroom', ?_⟩
    refine Twin.of_splLoop _ _ (k + 1) rfl fun q => ?_
    rw [State.plane_setPlane, State.plane_setPlane]
    change Memory.read (s.atSplitting o).inMem k.toNat = _ at hin
    rw [hin]
    by_cases hq : q = nextSel s.pm s.splitSel k
    · rw [if_pos hq, if_pos (show q = nextSel (s.atSplitting o).pm (s.atSplitting o).splitSel k from hq)]
      exact BitBuf.appendAll_congr _ _ _ hmem hwpos
    · rw [if_neg hq, if_neg (show ¬ q = nextSel (s.atSplitting o).pm (s.atSplitting o).splitSel k from hq)]
      exact hplanes q
  · refine .inl ⟨exec_splByte_of_noRoom s k hroom, exec_splByte_of_noRoom (s.atSplitting o) k fun h => hroom ⟨h.1, ?_⟩⟩
    rw [← hwpos]
    exact h.2

theorem twinExec_splBits (s o : State) (k : Word) (hplanes : samePlanes s (s.atSplitting o))
    (hin : Memory.read o.inMem k.toNat = Memory.read s.inMem k.toNat) : TwinExec (.splBits k) s (s.atSplitting o) := by
  by_cases hroom : k < s.cfg.inCap ∧ ∀ p, (s.plane p).wpos.toNat + 1 ≤ 8 * s.cfg.planeCap
  · have hroom' (p : BitVec 3) : ((s.atSplitting o).plane p).wpos.toNat + 1 ≤ 8 * s.cfg.planeCap := by
      rw [(hplanes p).2]
      exact hroom.2 p
    refine .inr ⟨_, _, exec_splBits_of_room s k hroom.1 hroom.2, exec_splBits_of_room (s.atSplitting o) k hroom.1 hroom', ?_⟩
    refine Twin.of_splLoop _ _ (k + 1) rfl fun q => ?_
    obtain ⟨hmem, hwpos⟩ := hplanes q
    rw [State.plane_with_vec8, State.plane_with_vec8]
    change Memory.read (s.atSplitting o).inMem k.toNat = _ at hin
    rw [hin]
    exact BitBuf.appendAll_congr _ _ [_] hmem hwpos
  · refine .inl ⟨exec_splBits_of_noRoom s k hroom, exec_splBits_of_noRoom (s.atSplitting o) k fun h => hroom ⟨h.1, fun p => ?_⟩⟩
    rw [← (hplanes p).2]
    exact h.2 p

theorem twinExec_splInit (s o : State) : TwinExec .splInit s (s.atSplInit o) := by
  refine .inr ⟨_, _, exec_splInit s, exec_splInit (s.atSplInit o), Twin.of_splLoop _ _ 0 rfl fun p => ?_⟩
  rw [State.splStart_plane, State.splStart_plane]
  exact ⟨rfl, rfl⟩

theorem twinExec_cmInit (s o : State) (hplanes : samePlanes s (s.atSplitting o)) : TwinExec .cmInit s (s.atSplitting o) := by
  refine .inr ⟨_, _, exec_cmInit s, exec_cmInit (s.atSplitting o), .pemInit rfl ⟨(s.atSplitting o).cmStart.goto Label.pemInit 0, ?_⟩⟩
  have hsame : (s.atSplitting o).cmStart.planes = s.cmStart.planes := by
    have hreset : (fun p => { (s.atSplitting o).plane p with rpos := 0 }) = fun p => { s.plane p with rpos := 0 } := by
      funext p
      obtain ⟨hmem, hwpos⟩ := hplanes p
      simp only [hmem, hwpos]
    exact congrArg vec8 hreset
  have hset : (s.atSplitting o).cmStart = { (s.atSplitting o).cmStart with planes := s.cmStart.planes } := by
    rw [← hsame]
  rw [hset]
  rfl

theorem twinExec_pemInit (s o : State) : TwinExec .pemInit s (s.atPemInit o) :=
  .inr ⟨_, _, exec_pemInit s, exec_pemInit (s.atPemInit o), .gceInit rfl ⟨s.atPemInit o, rfl⟩⟩

theorem twinExec_gceInit (s o : State) : TwinExec .gceInit s (s.atGceInit o) :=
  .inr ⟨_, _, exec_gceInit s, exec_gceInit (s.atGceInit o), Twin.of_bitLoop s.gceStart (s.atGceInit o).gceStart 0⟩

theorem twinExec_cmBit (s o : State) (n : Word) : TwinExec (.cmBit n) s (s.atCoding o) :=
  .inr ⟨_, _, exec_cmBit s n _ rfl, exec_cmBit (s.atCoding o) n _ rfl,
    .pemStep rfl ⟨(s.atCoding o).afterCmBit n (selectPlane s.pm s.modelSel n).1
      (contextOf (selectPlane s.pm s.modelSel n).1 s.cm (s.history (selectPlane s.pm s.modelSel n).1)), rfl⟩ rfl rfl⟩

/-- PEM_STEP by the row of its slot's state: the row's symbol encoded, or no room for it. -/
theorem exec_pemStep_of_row (s : State) (bit : Bit) (ctx : BitVec 5) (row : StRow)
    (hrow : s.cfg.st[(s.slot ctx).state.toNat]? = some row) :
    exec (.pemStep bit ctx) s = .next (if s.gceRoom row.runClass (s.symbolFor bit ctx) then
      (s.afterPemStep bit ctx row).bitLoop (s.seq.idx + 1) else s.internalFault) := by
  obtain ⟨h, rfl⟩ := Vector.getElem?_eq_some_iff.mp hrow
  cases hroom : s.gceRoom (s.cfg.st[(s.slot ctx).state.toNat]).runClass (s.symbolFor bit ctx) with
  | true => exact exec_pemStep_of_room s bit ctx h hroom
  | false => exact exec_pemStep_of_noRoom s bit ctx h hroom

/-- A row's update of a slot and its channel reads nothing of the leftovers. -/
theorem State.atCoding_afterPemStep (s o : State) (bit : Bit) (ctx : BitVec 5) (row : StRow) :
    (s.atCoding o).afterPemStep bit ctx row =
      (s.afterPemStep bit ctx row).atCoding ((s.atCoding o).afterPemStep bit ctx row) := rfl

theorem twinExec_pemStep (s o : State) (bit : Bit) (ctx : BitVec 5) : TwinExec (.pemStep bit ctx) s (s.atCoding o) := by
  cases hrow : s.cfg.st[(s.slot ctx).state.toNat]? with
  | none =>
    have hbad : 32 < (s.slot ctx).state.toNat := Vector.getElem?_eq_none_iff.mp hrow
    exact .inl ⟨exec_pemStep_of_badSlot s bit ctx hbad, exec_pemStep_of_badSlot (s.atCoding o) bit ctx hbad⟩
  | some row =>
    have hs := exec_pemStep_of_row s bit ctx row hrow
    have ht := exec_pemStep_of_row (s.atCoding o) bit ctx row hrow
    change _ = Host.Outcome.next (if s.gceRoom row.runClass (s.symbolFor bit ctx) then _ else _) at ht
    cases hroom : s.gceRoom row.runClass (s.symbolFor bit ctx) with
    | true =>
      rw [hroom, if_pos rfl] at hs ht
      rw [State.atCoding_afterPemStep] at ht
      exact .inr ⟨_, _, hs, ht, Twin.of_bitLoop _ _ _⟩
    | false =>
      rw [hroom, if_neg (by decide)] at hs ht
      exact .inl ⟨hs, ht⟩

theorem twinExec_gceFinish (s o : State) : TwinExec .gceFinish s (s.atCoding o) := by
  by_cases h : ∀ c, s.count c ≠ 0 → (s.chan c).wpos.toNat + 1 ≤ s.cfg.chanCap
  · exact .inr ⟨_, _, exec_gceFinish_of_room s h, exec_gceFinish_of_room (s.atCoding o) h, .ilInit rfl ⟨s.atCoding o, rfl⟩⟩
  · exact .inl ⟨exec_gceFinish_of_noRoom s h, exec_gceFinish_of_noRoom (s.atCoding o) h⟩

theorem twinExec_ilInit (s o : State) : TwinExec .ilInit s (s.atCoding o) :=
  .inr ⟨_, _, exec_ilInit s, exec_ilInit (s.atCoding o), Twin.of_tagLoop s.ilStart (s.atCoding o) 0⟩

/-- Moving bits reads the channels, the output and its position only. -/
theorem State.moveBits_atMoving (n : Nat) (s o : State) (c : BitVec 3) :
    (∃ u, s.moveBits c n = .ok u ∧ (s.atMoving o).moveBits c n = .ok (u.atMoving o)) ∨
    ∃ u : State, s.moveBits c n = .error u.internalFault ∧ (s.atMoving o).moveBits c n = .error (u.atMoving o).internalFault := by
  induction n generalizing s with
  | zero => exact .inl ⟨s, rfl, rfl⟩
  | succ n ih =>
    simp only [State.moveBits]
    by_cases hroom : (s.chan c).rpos < (s.chan c).wpos ∧ s.opos.toNat / 8 ≤ s.cfg.outCap.toNat
    · rw [s.moveBit_of_lt c hroom.1 hroom.2, (s.atMoving o).moveBit_of_lt c hroom.1 hroom.2]
      exact ih (s.afterMove c)
    · have hnone : (s.chan c).wpos ≤ (s.chan c).rpos ∨ s.cfg.outCap.toNat < s.opos.toNat / 8 := by
        rwa [not_and_or, BitVec.not_lt, Nat.not_le] at hroom
      rw [s.moveBit_of_none c hnone, (s.atMoving o).moveBit_of_none c hnone]
      exact .inr ⟨s, rfl, rfl⟩

/-- IL_TAG answers what its moves come to. -/
theorem exec_ilTag_of_error (s u : State) (k : Word) (h : s.moveTag k = .error u) : exec (.ilTag k) s = .next u := by
  change execIlTag k s = _
  simp only [execIlTag, h]

theorem exec_ilTag_of_ok (s u : State) (k : Word) (h : s.moveTag k = .ok u) :
    exec (.ilTag k) s = .next (u.tagLoop (k + 1)) := by
  change execIlTag k s = _
  simp only [execIlTag, h]

theorem twinExec_ilTag (s o : State) (k : Word) : TwinExec (.ilTag k) s (s.atMoving o) := by
  cases htag : s.tags[k.toNat]? with
  | none =>
    have hfault (v : State) (hv : v.tags[k.toNat]? = none) : exec (.ilTag k) v = .next v.internalFault :=
      exec_ilTag_of_error v _ k (by simp only [State.moveTag, hv])
    exact .inl ⟨hfault s htag, hfault (s.atMoving o) htag⟩
  | some c =>
    have hmove := s.moveTag_eq_moveBits k c htag
    have hmove' := (s.atMoving o).moveTag_eq_moveBits k c htag
    right
    rcases State.moveBits_atMoving (s.codewordLength c) s o c with ⟨u, hu, hu'⟩ | ⟨u, hu, hu'⟩
    · exact ⟨_, _, exec_ilTag_of_ok s u k (hmove.trans hu), exec_ilTag_of_ok _ _ k (hmove'.trans hu'),
        Twin.of_tagLoop u o (k + 1)⟩
    · exact ⟨_, _, exec_ilTag_of_error s _ k (hmove.trans hu), exec_ilTag_of_error _ _ k (hmove'.trans hu'),
        Twin.of_internalFault u (u.atMoving o)⟩

theorem twinExec_ilLen (s o : State) : TwinExec .ilLen s (s.atMoving o) :=
  .inr ⟨_, _, exec_ilLen s, exec_ilLen (s.atMoving o), .select rfl ⟨s.atMoving o, rfl⟩ fun _ _ => rfl⟩

/-! ### The engine's turn -/

/-- Both machines run, with the same input and the same best bytes, and their hosts make no move. -/
structure Running (s t : State) : Prop where
  input : ∀ k, k < s.lenSnap.toNat → Memory.read t.inMem k = Memory.read s.inMem k
  best : ∀ n, s.bestLen = .bytes n → ∀ k, k < n.toNat → Memory.read t.best k = Memory.read s.best k
  hosts : s.host = [] ∧ t.host = []
  phase : s.seq.phase = .run
  busy : s.status.busy = true

/-- The data path touches nothing of `Running`. -/
theorem Running.of_dataPath {s t s' t' : State} (h : Running s t) (hs : DataPath s s') (ht : DataPath t t') :
    Running s' t' := by
  rw [hs, ht]
  exact ⟨h.input, h.best, h.hosts, h.phase, h.busy⟩

/-- What a turn of two machines at one place leads to. -/
def TwinTurn (s t : State) : Prop :=
  ∃ s' t', s.engineTurn = .next s' ∧ t.engineTurn = .next t' ∧ DataPath s s' ∧ DataPath t t' ∧ Twin s' t'

/-- The engine's turn at a label that decodes: the micro-operation, or INTERNAL_FAULT where the invariants fail. -/
theorem State.engineTurn_of_decode (s : State) (i : Instr) (hp : s.seq.phase = .run)
    (hd : decodeUop s.seq.uop s.operands = .ok i) :
    s.engineTurn = if attemptLive i && !s.invariantsHold then .next s.internalFault else exec i s := by
  cases hlive : attemptLive i && !s.invariantsHold with
  | true => exact s.engineTurn_of_noFetch hp (by simp only [State.fetch, hd, hlive, if_true])
  | false => exact s.engineTurn_of_fetch i hp (by simp only [State.fetch, hd, hlive, Bool.false_eq_true, if_false])

/-- Two machines whose micro-operations agree, and whose invariants do where they are checked, take the same turn. -/
theorem TwinExec.turn {s t : State} {i : Instr} (h : TwinExec i s t) (hp : s.seq.phase = .run) (ht : ∃ o, t = s.atSplInit o)
    (hd : decodeUop s.seq.uop s.operands = .ok i) (hd' : decodeUop s.seq.uop t.operands = .ok i)
    (hi : Instr.isDataPath i = true) (hinv : attemptLive i = true → t.invariantsHold = s.invariantsHold) : TwinTurn s t := by
  have hseq : t.seq = s.seq := by
    obtain ⟨o, rfl⟩ := ht
    rfl
  have hfault : Twin s.internalFault t.internalFault := by
    obtain ⟨o, rfl⟩ := ht
    exact .of_internalFault s o
  have hsame : (attemptLive i && !t.invariantsHold) = (attemptLive i && !s.invariantsHold) := by
    cases hlive : attemptLive i with
    | true => rw [hinv hlive]
    | false => rfl
  have hturn := s.engineTurn_of_decode i hp hd
  have hturn' := t.engineTurn_of_decode i (by rw [hseq]; exact hp) (by rw [hseq]; exact hd')
  rw [hsame] at hturn'
  cases hlive : attemptLive i && !s.invariantsHold with
  | true =>
    rw [hlive, if_pos rfl] at hturn hturn'
    exact ⟨_, _, hturn, hturn', rfl, rfl, hfault⟩
  | false =>
    rw [hlive, if_neg (by decide)] at hturn hturn'
    rcases h with ⟨hs, ht⟩ | ⟨s', t', hs, ht, htwin⟩
    · exact ⟨_, _, hturn.trans hs, hturn'.trans ht, rfl, rfl, hfault⟩
    · exact ⟨s', t', hturn.trans hs, hturn'.trans ht, dataPath_of_exec s s' i hi hs, dataPath_of_exec t t' i hi ht, htwin⟩

/-- Two machines at one label of the data path take the same turn. -/
theorem Twin.turn_dataPath {s t : State} (h : Twin s t) (hr : Running s t) (hbegin : s.seq.uop ≠ Label.orcBegin)
    (hselect : s.seq.uop ≠ Label.orcSelect) (hdone : s.seq.uop ≠ Label.orcDone) : TwinTurn s t := by
  have hp := hr.phase
  cases h with
  | begin hl => exact absurd hl hbegin
  | select hl => exact absurd hl hselect
  | done hl => exact absurd hl hdone
  | splInit hl h =>
    obtain ⟨o, rfl⟩ := h
    exact (twinExec_splInit s o).turn hp ⟨o, rfl⟩ (by rw [hl]; rfl) (by rw [hl]; rfl) rfl
      fun h => by cases h
  | split hl hk h hplanes =>
    obtain ⟨o, rfl⟩ := h
    have hin := hr.input s.seq.idx.toNat hk
    by_cases hpm : s.pm = 3
    · rw [if_pos hpm] at hl
      exact (twinExec_splBits s o s.seq.idx hplanes hin).turn hp ⟨s.atSplitting o, rfl⟩ (by rw [hl]; rfl)
        (by rw [hl]; rfl) rfl fun h => by cases h
    · rw [if_neg hpm] at hl
      exact (twinExec_splByte s o s.seq.idx hplanes hin).turn hp ⟨s.atSplitting o, rfl⟩ (by rw [hl]; rfl)
        (by rw [hl]; rfl) rfl fun h => by cases h
  | cmInit hl h hplanes =>
    obtain ⟨o, rfl⟩ := h
    exact (twinExec_cmInit s o hplanes).turn hp ⟨s.atSplitting o, rfl⟩ (by rw [hl]; rfl)
      (by rw [hl]; rfl) rfl fun h => by cases h
  | pemInit hl h =>
    obtain ⟨o, rfl⟩ := h
    exact (twinExec_pemInit s o).turn hp ⟨s.atPemInit o, rfl⟩ (by rw [hl]; rfl)
      (by rw [hl]; rfl) rfl fun h => by cases h
  | gceInit hl h =>
    obtain ⟨o, rfl⟩ := h
    exact (twinExec_gceInit s o).turn hp ⟨s.atGceInit o, rfl⟩ (by rw [hl]; rfl)
      (by rw [hl]; rfl) rfl fun h => by cases h
  | cmBit hl h =>
    obtain ⟨o, rfl⟩ := h
    exact (twinExec_cmBit s o s.seq.idx).turn hp ⟨s.atCoding o, rfl⟩ (by rw [hl]; rfl)
      (by rw [hl]; rfl) rfl fun _ => rfl
  | pemStep hl h hbit hctx =>
    obtain ⟨o, rfl⟩ := h
    refine (twinExec_pemStep s o s.wires.bit s.wires.ctx).turn hp ⟨s.atCoding o, rfl⟩ (by rw [hl]; rfl) ?_ rfl fun _ => rfl
    rw [hl, ← hbit, ← hctx]
    rfl
  | gceFinish hl h =>
    obtain ⟨o, rfl⟩ := h
    exact (twinExec_gceFinish s o).turn hp ⟨s.atCoding o, rfl⟩ (by rw [hl]; rfl)
      (by rw [hl]; rfl) rfl fun _ => rfl
  | ilInit hl h =>
    obtain ⟨o, rfl⟩ := h
    exact (twinExec_ilInit s o).turn hp ⟨s.atCoding o, rfl⟩ (by rw [hl]; rfl)
      (by rw [hl]; rfl) rfl fun _ => rfl
  | ilTag hl h =>
    obtain ⟨o, rfl⟩ := h
    exact (twinExec_ilTag s o s.seq.idx).turn hp ⟨s.atMoving o, rfl⟩ (by rw [hl]; rfl)
      (by rw [hl]; rfl) rfl fun _ => rfl
  | ilLen hl h =>
    obtain ⟨o, rfl⟩ := h
    exact (twinExec_ilLen s o).turn hp ⟨s.atMoving o, rfl⟩ (by rw [hl]; rfl)
      (by rw [hl]; rfl) rfl fun _ => rfl

/-! ### The orchestrator -/

/-- Both machines are idle, show the same result, and their hosts make no move. -/
structure Finished (s t : State) : Prop where
  results : sameResults s t
  hosts : s.host = [] ∧ t.host = []
  phases : s.seq.phase = .idle ∧ t.seq.phase = .idle
  busy : s.status.busy = false ∧ t.status.busy = false

/-- Two machines after the same moves: running at one place, or finished. -/
def Linked (s t : State) : Prop := (Running s t ∧ Twin s t) ∨ Finished s t

/-- Both machines' turn leads to linked machines. -/
def LinkedTurn (s t : State) : Prop := ∃ s' t', s.engineTurn = .next s' ∧ t.engineTurn = .next t' ∧ Linked s' t'

/-- A turn of two machines at one label of the Orchestrator's is `exec` in both. -/
theorem LinkedTurn.of_exec {s t : State} {i : Instr} (hp : s.seq.phase = .run) (hseq : t.seq = s.seq)
    (hd : ∀ ops : UopOperands, ops.hdr = s.seq.hcur → decodeUop s.seq.uop ops = .ok i) (hlive : attemptLive i = false)
    (h : ∃ s' t', exec i s = .next s' ∧ exec i t = .next t' ∧ Linked s' t') : LinkedTurn s t := by
  obtain ⟨s', t', hs, ht, hlinked⟩ := h
  have hturn := s.engineTurn_of_decode i hp (hd _ rfl)
  have hturn' := t.engineTurn_of_decode i (by rw [hseq]; exact hp) (by
    rw [hseq]
    exact hd _ (congrArg Seq.hcur hseq))
  rw [hlive, Bool.false_and, if_neg (by decide)] at hturn hturn'
  exact ⟨s', t', hturn.trans hs, hturn'.trans ht, hlinked⟩

theorem Twin.turn_begin {s o : State} (hr : Running s (s.atBegin o)) (hl : s.seq.uop = Label.orcBegin) :
    LinkedTurn s (s.atBegin o) := by
  refine .of_exec (i := .orcBegin s.seq.hcur) hr.phase rfl (fun ops h => by rw [hl, ← h]; rfl) rfl
    ⟨_, _, exec_orcBegin s _, exec_orcBegin (s.atBegin o) _, .inl ⟨?_, .splInit rfl ⟨s.atBegin o, rfl⟩⟩⟩
  exact ⟨hr.input, hr.best, hr.hosts, hr.phase, hr.busy⟩

/-- What ORC_SELECT keeps is the same in both machines. -/
theorem Running.of_afterSelect {s o : State} (hr : Running s (s.atSelect o)) (hwf : Memory.wf s.best) (hwf' : Memory.wf o.best)
    (hatt : ∀ n, s.alen = .bytes n → o.att = s.att) : Running s.afterSelect (s.atSelect o).afterSelect := by
  refine ⟨hr.input, fun n hn k hk => ?_, hr.hosts, hr.phase, hr.busy⟩
  by_cases hkeeps : s.keeps = true
  · have hlen : s.alen = .bytes n := (if_pos hkeeps).symm.trans hn
    have hs : s.afterSelect.best = s.keptBest := if_pos hkeeps
    have ht : (s.atSelect o).afterSelect.best = (s.atSelect o).keptBest := if_pos hkeeps
    rw [hs, ht, s.keptBest_read n hlen hwf, (s.atSelect o).keptBest_read n hlen hwf', if_pos hk, if_pos hk]
    exact congrArg (Memory.read · k) (hatt n hlen)
  · have hlen : s.bestLen = .bytes n := (if_neg hkeeps).symm.trans hn
    have hs : s.afterSelect.best = s.best := if_neg hkeeps
    have ht : (s.atSelect o).afterSelect.best = (s.atSelect o).best := if_neg hkeeps
    rw [hs, ht]
    exact hr.best n hlen k hk

/-- The next attempt, or the end of the command, is the same in both machines. -/
theorem Linked.of_nextAttempt {s t : State} (hr : Running s t) (h : t = s.atBegin t) :
    Linked s.nextAttempt t.nextAttempt := by
  obtain ⟨o, rfl⟩ : ∃ o, t = s.atBegin o := ⟨t, h⟩
  left
  by_cases hmore : s.seq.kind = .compress ∧ s.seq.hcur ≠ 15
  · rw [State.nextAttempt, if_pos hmore, State.nextAttempt,
      if_pos (show (s.atBegin o).seq.kind = .compress ∧ (s.atBegin o).seq.hcur ≠ 15 from hmore)]
    exact ⟨⟨hr.input, hr.best, hr.hosts, hr.phase, hr.busy⟩, .begin rfl ⟨s.atBegin o, rfl⟩⟩
  · rw [State.nextAttempt, if_neg hmore, State.nextAttempt,
      if_neg (show ¬ ((s.atBegin o).seq.kind = .compress ∧ (s.atBegin o).seq.hcur ≠ 15) from hmore)]
    exact ⟨⟨hr.input, hr.best, hr.hosts, hr.phase, hr.busy⟩, .done rfl ⟨s.atBegin o, rfl⟩⟩

theorem Twin.turn_select {s o : State} (hr : Running s (s.atSelect o)) (hl : s.seq.uop = Label.orcSelect)
    (hwf : Memory.wf s.best) (hwf' : Memory.wf o.best) (hatt : ∀ n, s.alen = .bytes n → o.att = s.att) :
    LinkedTurn s (s.atSelect o) := by
  refine .of_exec (i := .orcSelect) hr.phase rfl (fun ops _ => by rw [hl]; rfl) rfl ?_
  by_cases hroom : s.keeps = true → s.bestRoom = true
  · exact ⟨_, _, exec_orcSelect_of_room s hroom, exec_orcSelect_of_room (s.atSelect o) hroom,
      .of_nextAttempt (hr.of_afterSelect hwf hwf' hatt) rfl⟩
  · rw [Classical.not_imp, Bool.not_eq_true] at hroom
    exact ⟨_, _, exec_orcSelect_of_noRoom s hroom.1 hroom.2, exec_orcSelect_of_noRoom (s.atSelect o) hroom.1 hroom.2,
      .inl ⟨⟨hr.input, hr.best, hr.hosts, hr.phase, hr.busy⟩, .of_internalFault s (s.atSelect o)⟩⟩

theorem Twin.turn_done {s o : State} (hr : Running s (s.atBegin o)) (hl : s.seq.uop = Label.orcDone)
    (hwf : Memory.wf s.outMem) (hwf' : Memory.wf o.outMem) : LinkedTurn s (s.atBegin o) := by
  refine .of_exec (i := .orcDone) hr.phase rfl (fun ops _ => by rw [hl]; rfl) rfl ?_
  cases hb : s.bestLen with
  | bytes n =>
    refine ⟨_, _, exec_orcDone_of_bytes s n hb, exec_orcDone_of_bytes (s.atBegin o) n hb, .inr
      ⟨⟨rfl, rfl, rfl, rfl, fun k hk => ?_⟩, hr.hosts, ⟨rfl, rfl⟩, rfl, rfl⟩⟩
    have hkn : k < n.toNat := hk
    have hbest := hr.best n hb k hkn
    change Memory.read (Memory.copy s.best n.toNat s.outMem) k = Memory.read (Memory.copy o.best n.toNat o.outMem) k
    rw [Memory.read_copy _ _ _ hwf, Memory.read_copy _ _ _ hwf', if_pos hkn, if_pos hkn]
    exact hbest.symm
  | inf =>
    exact ⟨_, _, exec_orcDone_of_inf s hb, exec_orcDone_of_inf (s.atBegin o) hb, .inr
      ⟨⟨rfl, rfl, rfl, rfl, fun k hk => absurd hk (Nat.not_lt_zero k)⟩, hr.hosts, ⟨rfl, rfl⟩, rfl, rfl⟩⟩

/-- Running machines at one place take the same turn. -/
theorem Twin.turn {s t : State} (h : Twin s t) (hr : Running s t) (hs : s.canonical) (ht : t.canonical) :
    LinkedTurn s t := by
  obtain ⟨-, hout, -, hbest, -⟩ := hs
  obtain ⟨-, hout', -, hbest', -⟩ := ht
  by_cases hbegin : s.seq.uop = Label.orcBegin
  · obtain ⟨o, rfl⟩ := h.atBegin
    exact Twin.turn_begin hr hbegin
  by_cases hdone : s.seq.uop = Label.orcDone
  · obtain ⟨o, rfl⟩ := h.atBegin
    exact Twin.turn_done hr hdone hout hout'
  by_cases hselect : s.seq.uop = Label.orcSelect
  · obtain ⟨⟨o, rfl⟩, hatt⟩ := h.select_of_label hselect
    exact Twin.turn_select hr hselect hbest hbest' hatt
  · obtain ⟨s', t', hturn, hturn', hdata, hdata', htwin⟩ := h.turn_dataPath hr hbegin hselect hdone
    exact ⟨s', t', hturn, hturn', .inl ⟨hr.of_dataPath hdata hdata', htwin⟩⟩

/-! ### Runs -/

/-- Linked machines stay linked. -/
theorem Linked.step {s t s' : State} (h : Linked s t) (hs : s.canonical) (ht : t.canonical) (hstep : step s = .next s') :
    ∃ t', step t = .next t' ∧ Linked s' t' := by
  rcases h with ⟨hr, htwin⟩ | hfin
  · obtain ⟨u, t', hu, ht', hlinked⟩ := htwin.turn hr hs ht
    rw [step_of_noMove s hr.hosts.1, hu] at hstep
    cases hstep
    exact ⟨t', (step_of_noMove t hr.hosts.2).trans ht', hlinked⟩
  · rw [step_of_noMove s hfin.hosts.1, s.engineTurn_of_idle hfin.phases.1] at hstep
    cases hstep
    exact ⟨t, (step_of_noMove t hfin.hosts.2).trans (t.engineTurn_of_idle hfin.phases.2), .inr hfin⟩

/-- A run of one step more. -/
theorem run_succ_iff (n : Nat) (s u : State) : Host.Core.run Sys2Proof.core (n + 1) s = .next u ↔
    ∃ v, step s = .next v ∧ Host.Core.run Sys2Proof.core n v = .next u := by
  have hcore : Sys2Proof.core.step s = step s := rfl
  cases hs : step s with
  | next v =>
    simp only [Host.Core.run, hcore, hs, Host.Outcome.next.injEq, exists_eq_left']
  | fault r => simp [Host.Core.run, hcore, hs]
  | refused r => simp [Host.Core.run, hcore, hs]

/-- Linked machines stay linked over any number of steps. -/
theorem Linked.run (n : Nat) {s t s' : State} (h : Linked s t) (hs : s.canonical) (ht : t.canonical)
    (hrun : Host.Core.run Sys2Proof.core n s = .next s') :
    ∃ t', Host.Core.run Sys2Proof.core n t = .next t' ∧ Linked s' t' := by
  induction n generalizing s t with
  | zero =>
    cases hrun
    exact ⟨t, rfl, h⟩
  | succ n ih =>
    obtain ⟨u, hstep, hrest⟩ := (run_succ_iff n s s').mp hrun
    obtain ⟨v, hstep', hlinked⟩ := h.step hs ht hstep
    obtain ⟨t', hrun', hend⟩ := ih hlinked (step_keeps_canonical s u hs hstep) (step_keeps_canonical t v ht hstep') hrest
    exact ⟨t', (run_succ_iff n t t').mpr ⟨v, hstep', hrun'⟩, hend⟩

/-- Linked machines show the same BUSY, and once it is 0 the same results. -/
theorem Linked.shows {s t : State} (h : Linked s t) :
    s.status.busy = t.status.busy ∧ (s.status.busy = false → sameResults s t) := by
  rcases h with ⟨hr, htwin⟩ | hfin
  · refine ⟨?_, fun hidle => absurd (hr.busy.symm.trans hidle) (by decide)⟩
    obtain ⟨o, rfl⟩ := htwin.atBegin
    rfl
  · exact ⟨hfin.busy.1.trans hfin.busy.2.symm, fun _ => hfin.results⟩

/-! ### Acceptance -/

/-- A COMPRESS or ENCODE word decodes to its command. -/
theorem decodeCommand_of_start (w : BitVec 32) (hw : w = 0x00000010 ∨ w.extractLsb' 4 28 = 2) :
    decodeCommand w = .ok .compress ∨ decodeCommand w = .ok (.encode (w.extractLsb' 0 4)) := by
  rcases hw with rfl | hw
  · exact .inl rfl
  · have hfield (i n : Nat) (h : i + n ≤ 28) : w.extractLsb' (4 + i) n = (2#28).extractLsb' i n := by
      have hsub : w.extractLsb' 4 28 = 2#28 := hw
      rw [← hsub]
      apply BitVec.eq_of_getLsbD_eq
      intro j hj
      simp only [BitVec.getLsbD_extractLsb', hj, decide_true, Bool.true_and, show i + j < 28 by omega, Nat.add_assoc]
    have hrsvd : w.extractLsb' 8 24 = 0 := hfield 4 24 (by decide)
    have hopc : w.extractLsb' 4 4 = 2 := hfield 0 4 (by decide)
    right
    simp only [decodeCommand, hrsvd, hopc]
    rfl

/-- A command accepted while idle is acceptance of its kind and header. -/
theorem step_of_start (w : BitVec 32) (hw : w = 0x00000010 ∨ w.extractLsb' 4 28 = 2) :
    ∃ kind h, ∀ s : State, s.status.busy = false → s.hostMakes (.regWrite .w32 0 w) [] →
      step s = .next (({ s with host := [] } : State).accept kind h) := by
  rcases decodeCommand_of_start w hw with hd | hd
  · refine ⟨.compress, 0, fun s hidle hmove => ?_⟩
    rw [step_of_cmdWrite s w [] hmove]
    simp only [State.writeCmd, hd, exec_compress_of_idle { s with host := [] } hidle]
  · refine ⟨.encode, w.extractLsb' 0 4, fun s hidle hmove => ?_⟩
    rw [step_of_cmdWrite s w [] hmove]
    simp only [State.writeCmd, hd, exec_encode_of_idle { s with host := [] } _ hidle]

/-- Acceptance with the same inputs links two machines. -/
theorem Linked.of_accept (s t : State) (kind : CmdKind) (h : BitVec 4) (hin : sameInputs s t)
    (hhosts : s.host = [] ∧ t.host = []) : Linked (s.accept kind h) (t.accept kind h) := by
  obtain ⟨hcfg, hlen, hmax, hread⟩ := hin
  by_cases hfits : s.inLen ≤ s.cfg.inCap
  · left
    rw [State.accept_of_fitting s kind h hfits, State.accept_of_fitting t kind h (by rw [← hcfg, ← hlen]; exact hfits)]
    refine ⟨⟨fun k hk => (hread k hk).symm, fun n hn => (by cases hn), hhosts, rfl, rfl⟩, .begin rfl
      ⟨{ t.snapshot kind h with bestLen := .inf, bestHdr := 0, faulted := false }, ?_⟩⟩
    obtain ⟨hhost, hhost'⟩ := hhosts
    simp only [State.snapshot, ← hcfg, ← hlen, ← hmax, hhost']
    rw [← hhost]
    rfl
  · right
    have hover := BitVec.not_le.1 hfits
    rw [State.accept_of_oversized s kind h hover,
      State.accept_of_oversized t kind h (by rw [← hcfg, ← hlen]; exact hover)]
    exact ⟨⟨rfl, rfl, rfl, rfl, fun k hk => absurd hk (Nat.not_lt_zero k)⟩, hhosts, ⟨rfl, rfl⟩, rfl, rfl⟩

/-- Settles O60: acceptance links the two machines, and every turn keeps them linked. -/
theorem resultDependsOnInputsOnly : Obligations.ResultDependsOnInputsOnly := by
  intro s t w hin hs ht hidle hidle' hmove hmove' hw n s' hrun
  obtain ⟨kind, h, hstart⟩ := step_of_start w hw
  obtain ⟨u, hstep, hrest⟩ := (run_succ_iff n s s').mp hrun
  have hstep' := hstart t hidle' hmove'
  have hu := hstart s hidle hmove
  rw [hstep] at hu
  cases hu
  have hlinked := Linked.of_accept { s with host := [] } { t with host := [] } kind h hin ⟨rfl, rfl⟩
  obtain ⟨t', hrun', hend⟩ := hlinked.run n (step_keeps_canonical s _ hs hstep) (step_keeps_canonical t _ ht hstep') hrest
  exact ⟨t', (run_succ_iff n t t').mpr ⟨_, hstep', hrun'⟩, hend.shows⟩

end Sys2Proof.Machine
end
